-- ==== Sys2Proof/Word.lean ====
section
/-! DEFINITION. The two words the block works on: the byte of the data bus and of the link, and the
32-bit word of the hex fields (R6, R270: `DATA_WIDTH` 8, `FIELD_WIDTH` 32). Everything is unsigned. -/

namespace Sys2Proof

/-- A byte: the unit of the data bus, of both link streams and of every buffer (R6). -/
abbrev Byte := BitVec 8

/-- A 32-bit unsigned value: a hex field, a command register, an address before truncation (R14, R41). -/
abbrev Word := BitVec 32

end Sys2Proof
end

