-- ==== Sys2Proof/Config.lean ====
section
/-! DEFINITION. What an implementation fixes (the parameter table R270) and the free values the spec leaves open.
The default values of the parameters stand in Machine/Params.lean. -/

namespace Sys2Proof

/-- What `p` does when `length > PAGE_CAP` (R195, D21). -/
inductive POverflow where
  | fault
  | reject
  | truncate
deriving DecidableEq, Repr

/-- What `d` does with a last row of fewer than 16 bytes (R184, D18). -/
inductive DumpTail where
  | fullRow
  | shortRow
deriving DecidableEq, Repr

/-- The order of the first three events of `readByte`: output-enable, chip-enable, address. R102 writes
`oeCeAddr`; a pin-level model admits the other orders too (D26). -/
inductive ReadOrder where
  | oeCeAddr
  | oeAddrCe
  | ceOeAddr
  | ceAddrOe
  | addrOeCe
  | addrCeOe
deriving DecidableEq, Repr

/-- The names of the delays (R262). No rule computes with their lengths. -/
inductive DelayName where
  | tOeValid
  | tWeLow
  | tFlashByte
  | tErase
  | tSwp
deriving DecidableEq, Repr

/-- A figure for a delay, in nanoseconds, with what the source says of it (R262, R270). -/
inductive DelayFigure where
  /-- A lower bound (`T_OE_VALID` and `T_WE_LOW`, U15). -/
  | atLeast (ns : Nat)
  /-- An approximate value that bounds the wait on neither side (`T_FLASH_BYTE`). -/
  | about (ns : Nat)
deriving DecidableEq, Repr

/-- The parameters of R270. "Every parameter below is an argument of the model": they stand in State as one field,
and no step changes them. -/
structure Params where
  /-- `ADDR_WIDTH`, 16 to 32 (D3). -/
  addrWidth : Nat
  /-- `LINE_MAX`, 29 or more (D11). -/
  lineMax : Nat
  /-- `ID_STRING`, OPEN (D16). -/
  idString : List Byte
  /-- `VERSION_STRING`, OPEN (D16). -/
  versionString : List Byte
  /-- `READY_STRING`, OPEN, not empty (D16). -/
  readyString : List Byte
  /-- `BOOT_BANNER` (D17). -/
  bootBanner : List Byte
  /-- `EOL_OUT` (D16). -/
  eolOut : List Byte
  /-- `SWP_ENABLE_SEQ`, three writes (D22). -/
  swpEnableSeq : List (Word × Byte)
  /-- `SWP_DISABLE_SEQ`, six writes (D22). -/
  swpDisableSeq : List (Word × Byte)
  /-- `POLL_LIMIT`: `none` is infinity, the value of the spec; a finite value is fuel (D24). -/
  pollLimit : Option Nat
  /-- `P_OVERFLOW` (D21). -/
  pOverflow : POverflow
  /-- `DUMP_TAIL` (D18). -/
  dumpTail : DumpTail
  /-- `PRINTABLE`, a set of byte values given as ranges, each end included (D19). -/
  printable : List (Byte × Byte)
  /-- The order of the first three events of `readByte` (D26). -/
  readOrder : ReadOrder
  /-- `T_OE_VALID` in nanoseconds, 100 or more. -/
  tOeValid : Nat
  /-- `T_WE_LOW` in nanoseconds, 100 or more. -/
  tWeLow : Nat
  /-- `T_FLASH_BYTE` in nanoseconds, about 20000. -/
  tFlashByte : Nat
  /-- `T_ERASE` in nanoseconds, OPEN (D23). -/
  tErase : Nat
  /-- `T_SWP` in nanoseconds, OPEN (D23). -/
  tSwp : Nat
  /-- `LINK_RATE` in bits per second, OPEN; "no rule reads them". -/
  linkRate : Nat
  /-- `RX_DEPTH` in bytes, OPEN; no rule reads it. -/
  rxDepth : Nat
deriving DecidableEq, Repr

/-! Free values: constants without a body. -/

/-- FREE VALUE (log 7): the byte of the `n`-th sample that no device model answers, "a draw under no law" (R47, U10). -/
opaque Config.undriven : Nat → Byte

/-- FREE VALUE (log 2): `ID_STRING` (D16), its characters numbered as `textByte` numbers them. -/
opaque Config.idText : List (Fin 127)

/-- FREE VALUE (log 2): `VERSION_STRING` (D16). -/
opaque Config.versionText : List (Fin 127)

/-- FREE VALUE (log 2): the first character of `READY_STRING`, which is not empty (D16). -/
opaque Config.readyHead : Fin 127

/-- FREE VALUE (log 2): the other characters of `READY_STRING` (D16). -/
opaque Config.readyTail : List (Fin 127)

/-- FREE VALUE (log 38): the lengths of the delays in nanoseconds, those with a lower bound counted from that bound (D23). -/
opaque Config.delayFree : DelayName → Nat

/-- FREE VALUE (log 38): `LINK_RATE` (R270). -/
opaque Config.linkRateFree : Nat

/-- FREE VALUE (log 38): `RX_DEPTH` (R270). -/
opaque Config.rxDepthFree : Nat

end Sys2Proof
end

