-- ==== Sys2Proof/Syntax.lean ====
section
/-! DEFINITION. The instructions: one constructor per row of `spec/opcode_table.json`. The first thirteen are host
commands (R79, R81); the last four are the bus sequences the block emits (R124), which no command line decodes to. -/

namespace Sys2Proof

/-- An instruction with the operands its rule reads. A range operand is the pair after the clamp of R77. -/
inductive Instr where
  /-- `i`: identification (R170). -/
  | ident
  /-- `v`: version (R171). -/
  | version
  /-- `a`: set address (R172). -/
  | setAddress (start : Word)
  /-- `d`: hex dump (R180). -/
  | dump (start stop : Word)
  /-- `f`: fill; `value` is the whole third field, of which the low byte is used (R190, R84). -/
  | fill (start stop value : Word)
  /-- `r`: raw read (R181). -/
  | read (start stop : Word)
  /-- `p`: page write; the payload follows on the link (R193). -/
  | page (start stop : Word)
  /-- `l`: enable software write protection (R200). -/
  | lock
  /-- `u`: disable software write protection (R201). -/
  | unlock
  /-- `e`: chip erase (R203). -/
  | erase
  /-- `E`: select the EEPROM strategy (R205). -/
  | modeEeprom
  /-- `F`: select the Flash strategy (R206). -/
  | modeFlash
  /-- Any other line: its first byte, or `none` for the empty line (R208). -/
  | unrecognised (opcode : Option Byte)
  /-- Bus sequence: one Flash byte program (R122). -/
  | seqFlashByteProgram (target : Word) (value : Byte)
  /-- Bus sequence: chip erase (R125). -/
  | seqChipErase
  /-- Bus sequence: write-protection enable (R126). -/
  | seqSwpEnable
  /-- Bus sequence: write-protection disable (R127). -/
  | seqSwpDisable
deriving DecidableEq, Repr

/-- What an instruction is encoded as: the bytes of a command line with its terminator (R70), or the bus writes of an
unlock sequence (R123). -/
inductive Code where
  | line (bytes : List Byte)
  | writes (steps : List (Word × Byte))
deriving DecidableEq, Repr

end Sys2Proof
end

