-- ==== Sys2Proof/WellFormed.lean ====
section
/-! DEFINITION. Which instruction terms the parser can produce: a range is not inverted (R77: after the clamp
`endAddr >= startAddr`), and an unrecognised opcode is none of the twelve opcode bytes (R81) and not the terminator (R70). -/

namespace Sys2Proof

/-- The twelve opcode bytes of R79, in the order of the map. -/
def commandBytes : List Byte :=
  [0x69#8, 0x76#8, 0x61#8, 0x64#8, 0x66#8, 0x72#8, 0x70#8, 0x6C#8, 0x75#8, 0x65#8, 0x45#8, 0x46#8]

/-- The range of a command is not inverted (R14, R77). -/
def rangeOk (start stop : Word) : Bool := start.toNat ≤ stop.toNat

/-- A byte that can be the opcode of an unrecognised line (R81). -/
def unmatched (b : Byte) : Bool := !commandBytes.contains b && b != 0x0A#8

/-- Well-formedness of an instruction. -/
def Instr.wf : Instr → Bool
  | .ident => true
  | .version => true
  | .setAddress _ => true
  | .dump start stop => rangeOk start stop
  | .fill start stop _ => rangeOk start stop
  | .read start stop => rangeOk start stop
  | .page start stop => rangeOk start stop
  | .lock => true
  | .unlock => true
  | .erase => true
  | .modeEeprom => true
  | .modeFlash => true
  | .unrecognised none => true
  | .unrecognised (some b) => unmatched b
  | .seqFlashByteProgram _ _ => true
  | .seqChipErase => true
  | .seqSwpEnable => true
  | .seqSwpDisable => true

end Sys2Proof
end

