-- ==== Sys2Proof/Decode.lean ====
section
/-! DEFINITION. Command encoding (30_encoding.md) and the line reader (R152, R153): from bytes of the link to an
instruction, and the encoder written from the same tables. The bus sequences of R124 are encoded as lists of writes. -/

namespace Sys2Proof

/-! ## Characters -/

/-- `LF`, the only line terminator (R70, D10). -/
def charLF : Byte := 0x0A#8

/-- `SP`. -/
def charSP : Byte := 0x20#8

/-- A number below 127 as an ASCII character other than `LF`: the characters a text line may hold (D16). -/
def textByte (c : Fin 127) : Byte := BitVec.ofNat 8 (if c.val < 10 then c.val else c.val + 1)

/-- The lower-case hexadecimal digit of a number below 16 (R6). -/
def hexDigit (n : Nat) : Byte := BitVec.ofNat 8 (if n < 10 then 0x30 + n else 0x61 + (n - 10))

/-- `count` lower-case hexadecimal digits of `v`, most significant first. -/
def hexDigits : Nat → Nat → List Byte
  | 0, _ => []
  | count + 1, v => hexDigits count (v / 16) ++ [hexDigit (v % 16)]

/-- `hex2(b)` (R6). -/
def hex2 (b : Byte) : List Byte := hexDigits 2 b.toNat

/-- `hex8(w)` (R6). -/
def hex8 (w : Word) : List Byte := hexDigits 8 w.toNat

/-- `HexVal(c)`: both cases are digits, every other byte is invalid (R75, D8). -/
def hexVal (c : Byte) : Option Nat :=
  if 0x30 ≤ c.toNat ∧ c.toNat ≤ 0x39 then some (c.toNat - 0x30)
  else if 0x61 ≤ c.toNat ∧ c.toNat ≤ 0x66 then some (c.toNat - 0x61 + 10)
  else if 0x41 ≤ c.toNat ∧ c.toNat ≤ 0x46 then some (c.toNat - 0x41 + 10)
  else none

/-- The sum of R76 over a list of characters, the first digit most significant; `none` if one is invalid. -/
def hexSum : List Byte → Option Nat
  | [] => some 0
  | c :: cs =>
    match hexVal c, hexSum cs with
    | some d, some rest => some (d * 16 ^ cs.length + rest)
    | _, _ => none

/-- `HexField` at an offset: 0 when the line is too short or a character is not a hex digit (R76). -/
def hexField (line : List Byte) (offset : Nat) : Word :=
  if line.length < offset + 8 then 0#32
  else
    match hexSum ((line.drop offset).take 8) with
    | some v => BitVec.ofNat 32 v
    | none => 0#32

/-! ## The parser (R74 to R78) -/

/-- The four registers the parser writes, once per line (R78). -/
structure Parsed where
  opcode : Option Byte
  startAddr : Word
  endAddr : Word
  fillField : Word
deriving DecidableEq, Repr

/-- The clamp of R77, an unsigned comparison. -/
def clampEnd (start stop : Word) : Word := if stop.toNat < start.toNat then start else stop

/-- `Parse()` (R78): the opcode (R74), the fields at offsets 2, 11 and 20 (R71, R76), the clamp (R77). -/
def parseLine (line : List Byte) : Parsed :=
  { opcode := line.head?
    startAddr := hexField line 2
    endAddr := clampEnd (hexField line 2) (hexField line 11)
    fillField := hexField line 20 }

/-- The opcode map (R79), on the exact byte (R74); any other byte, and the empty line, is unrecognised (R81). -/
def instrOf (p : Parsed) : Instr :=
  match p.opcode with
  | none => .unrecognised none
  | some b =>
    if b = 0x69#8 then .ident
    else if b = 0x76#8 then .version
    else if b = 0x61#8 then .setAddress p.startAddr
    else if b = 0x64#8 then .dump p.startAddr p.endAddr
    else if b = 0x66#8 then .fill p.startAddr p.endAddr p.fillField
    else if b = 0x72#8 then .read p.startAddr p.endAddr
    else if b = 0x70#8 then .page p.startAddr p.endAddr
    else if b = 0x6C#8 then .lock
    else if b = 0x75#8 then .unlock
    else if b = 0x65#8 then .erase
    else if b = 0x45#8 then .modeEeprom
    else if b = 0x46#8 then .modeFlash
    else .unrecognised (some b)

/-! ## The line reader (R152, R153) -/

/-- What `ReadLine` has when it stops: a line and the bytes after it, or the link is empty and the line is not ended. -/
inductive LineRead where
  | complete (line rest : List Byte)
  | incomplete (line : List Byte)
deriving DecidableEq, Repr

/-- `ReadLine` from a line already begun, over the bytes at hand (R152); a line of `lineMax` characters ends without a
terminator (R153). -/
def readLine (lineMax : Nat) : List Byte → List Byte → LineRead
  | line, [] => .incomplete line
  | line, b :: rest =>
    if b = charLF then .complete line rest
    else if (line ++ [b]).length = lineMax then .complete (line ++ [b]) rest
    else readLine lineMax (line ++ [b]) rest

/-! ## Decoding -/

/-- Why bytes, or bus writes, are no instruction. -/
inductive Reject where
  /-- The bytes end before the line does (R229: the block would wait). -/
  | incompleteLine
  /-- The writes are no sequence of R124. -/
  | notASequence
deriving DecidableEq, Repr

/-- The next command of the link stream and the bytes after its line; every complete line is some command (R81). -/
def decodeStream (lineMax : Nat) (input : List Byte) : Except Reject (Instr × List Byte) :=
  match readLine lineMax [] input with
  | .complete line rest => .ok (instrOf (parseLine line), rest)
  | .incomplete _ => .error .incompleteLine

/-! ## The unlock sequences (R124) -/

/-- `UNLOCK_A1` (R270). -/
def unlockA1 : Word := 0x5555#32

/-- `UNLOCK_A2` (R270). -/
def unlockA2 : Word := 0x2AAA#32

/-- The three unlock steps before a Flash data byte (R122). -/
def flashUnlock : List (Word × Byte) :=
  [(unlockA1, 0xAA#8), (unlockA2, 0x55#8), (unlockA1, 0xA0#8)]

/-- The chip-erase sequence (R125). -/
def chipEraseSeq : List (Word × Byte) :=
  [(unlockA1, 0xAA#8), (unlockA2, 0x55#8), (unlockA1, 0x80#8), (unlockA1, 0xAA#8), (unlockA2, 0x55#8), (unlockA1, 0x10#8)]

/-- The default `SWP_ENABLE_SEQ` (R124, D22: the values are general knowledge, log 20). -/
def swpEnableDefault : List (Word × Byte) :=
  [(unlockA1, 0xAA#8), (unlockA2, 0x55#8), (unlockA1, 0xA0#8)]

/-- The default `SWP_DISABLE_SEQ` (R124, D22: the values are general knowledge, log 20). -/
def swpDisableDefault : List (Word × Byte) :=
  [(unlockA1, 0xAA#8), (unlockA2, 0x55#8), (unlockA1, 0x80#8), (unlockA1, 0xAA#8), (unlockA2, 0x55#8), (unlockA1, 0x20#8)]

/-- A list of bus writes read as one of the sequences of R124 under the parameters given. -/
def decodeWrites (p : Params) (steps : List (Word × Byte)) : Except Reject Instr :=
  if steps = chipEraseSeq then .ok .seqChipErase
  else if steps = p.swpEnableSeq then .ok .seqSwpEnable
  else if steps = p.swpDisableSeq then .ok .seqSwpDisable
  else
    match steps.drop 3 with
    | [(target, value)] =>
      if steps.take 3 = flashUnlock then .ok (.seqFlashByteProgram target value) else .error .notASequence
    | _ => .error .notASequence

/-! ## Encoding -/

/-- Format `F0`: the opcode and the terminator (R71). -/
def lineF0 (opcode : Byte) : Code := .line [opcode, charLF]

/-- Format `F1`: one field (R71). -/
def lineF1 (opcode : Byte) (x : Word) : Code := .line (opcode :: charSP :: (hex8 x ++ [charLF]))

/-- Format `F2`: two fields (R71). -/
def lineF2 (opcode : Byte) (x y : Word) : Code :=
  .line (opcode :: charSP :: (hex8 x ++ charSP :: (hex8 y ++ [charLF])))

/-- Format `F3`: three fields (R71). -/
def lineF3 (opcode : Byte) (x y z : Word) : Code :=
  .line (opcode :: charSP :: (hex8 x ++ charSP :: (hex8 y ++ charSP :: (hex8 z ++ [charLF]))))

/-- The canonical form of a command (R83), or the writes of a bus sequence (R124). The payload of `p` is data and no part
of it. -/
def encode (p : Params) : Instr → Code
  | .ident => lineF0 0x69#8
  | .version => lineF0 0x76#8
  | .setAddress start => lineF1 0x61#8 start
  | .dump start stop => lineF2 0x64#8 start stop
  | .fill start stop value => lineF3 0x66#8 start stop value
  | .read start stop => lineF2 0x72#8 start stop
  | .page start stop => lineF2 0x70#8 start stop
  | .lock => lineF0 0x6C#8
  | .unlock => lineF0 0x75#8
  | .erase => lineF0 0x65#8
  | .modeEeprom => lineF0 0x45#8
  | .modeFlash => lineF0 0x46#8
  | .unrecognised none => .line [charLF]
  | .unrecognised (some b) => lineF0 b
  | .seqFlashByteProgram target value => .writes (flashUnlock ++ [(target, value)])
  | .seqChipErase => .writes chipEraseSeq
  | .seqSwpEnable => .writes p.swpEnableSeq
  | .seqSwpDisable => .writes p.swpDisableSeq

/-! ## The opcode table's numbering -/

/-- The bytes of an instruction whose bits are `w`, the first byte the low one. -/
def bytesOf : Nat → Nat → List Byte
  | 0, _ => []
  | count + 1, w => BitVec.ofNat 8 w :: bytesOf count (w / 256)

/-- The command line of an opcode-table word: its bytes and the terminator. Operand bits above `nbits` are 0, which no
field reads as digits, so the short line stands for them (R76, log 27). -/
def tableLine (nbits w : Nat) : List Byte := bytesOf (nbits / 8) w ++ [charLF]

/-- The instruction the decoder reads from an opcode-table word (log 27). -/
def decodeTableWord (nbits w : Nat) : Option Instr :=
  match decodeStream 32 (tableLine nbits w) with
  | .ok (i, _) => some i
  | .error _ => none

end Sys2Proof
end

