-- ==== Sys2Proof/Machine/Params.lean ====
section
/-! DEFINITION. The constants the source fixes and the default values of the parameters (R270). -/

namespace Sys2Proof.Machine

/-- `PAGE_CAP`, the capacity of the page buffer (R140, R270). -/
def pageCap : Nat := 4096

/-- Bytes per dump row (R180). -/
def rowBytes : Nat := 16

/-- `ID_STRING`: OPEN, a free text (D16, log 2). -/
def idStringFree : List Byte := Config.idText.map textByte

/-- `VERSION_STRING`: OPEN, a free text (D16, log 2). -/
def versionStringFree : List Byte := Config.versionText.map textByte

/-- `READY_STRING`: OPEN, a free text that is not empty (D16, log 2). -/
def readyStringFree : List Byte := textByte Config.readyHead :: Config.readyTail.map textByte

/-- The source's figure for each delay, where it gives one (R262, R270); nothing computes with it (D23). The figures of
`T_OE_VALID` and `T_WE_LOW` are lower bounds (U15). DESIGN CHOICE (log 37): R262 and R270 say only "about 20 us" of
`T_FLASH_BYTE` and not whether that bounds the wait, and the model takes it as an approximate value and as no bound. -/
def delayFigure : DelayName → Option DelayFigure
  | .tOeValid => some (.atLeast 100)
  | .tWeLow => some (.atLeast 100)
  | .tFlashByte => some (.about 20000)
  | .tErase => none
  | .tSwp => none

/-- The length of a delay agrees with its figure: it is not below a lower bound (R270). -/
def figureOk (figure : Option DelayFigure) (ns : Nat) : Bool :=
  match figure with
  | some (.atLeast least) => least ≤ ns
  | some (.about _) => true
  | none => true

/-- The length of a delay where R270 gives no one value: a free value, at or above the lower bound where there is one
(log 38). -/
def delayDefault (t : DelayName) : Nat :=
  match delayFigure t with
  | some (.atLeast least) => least + Config.delayFree t
  | some (.about _) => Config.delayFree t
  | none => Config.delayFree t

/-- The parameters at the defaults of R270; the OPEN ones and the delays are free values (log 2, 38). -/
def defaultParams : Params :=
  { addrWidth := 24
    lineMax := 32
    idString := idStringFree
    versionString := versionStringFree
    readyString := readyStringFree
    bootBanner := []
    eolOut := [charLF]
    swpEnableSeq := swpEnableDefault
    swpDisableSeq := swpDisableDefault
    pollLimit := none
    pOverflow := .fault
    dumpTail := .fullRow
    printable := [(0x20#8, 0x7E#8)]
    readOrder := .oeCeAddr
    tOeValid := delayDefault .tOeValid
    tWeLow := delayDefault .tWeLow
    tFlashByte := delayDefault .tFlashByte
    tErase := delayDefault .tErase
    tSwp := delayDefault .tSwp
    linkRate := Config.linkRateFree
    rxDepth := Config.rxDepthFree }

/-- The length in nanoseconds of the delay that an event `DELAY(t)` of the traces stands for (R262). No rule computes with it
(D23). -/
def delayLength (p : Params) : DelayName → Nat
  | .tOeValid => p.tOeValid
  | .tWeLow => p.tWeLow
  | .tFlashByte => p.tFlashByte
  | .tErase => p.tErase
  | .tSwp => p.tSwp

/-- Every delay's length agrees with its figure (R270). -/
def delaysLegal (p : Params) : Bool :=
  [DelayName.tOeValid, .tWeLow, .tFlashByte, .tErase, .tSwp].all fun t => figureOk (delayFigure t) (delayLength p t)

/-- A text the block may emit as a line: ASCII without `LF` (D16). -/
def textOk (s : List Byte) : Bool := s.all fun c => c.toNat < 128 && c != charLF

/-- A write-protection sequence uses the two unlock addresses only (R123, D22). -/
def seqOk (count : Nat) (steps : List (Word × Byte)) : Bool :=
  steps.length == count && steps.all fun step => step.1 == unlockA1 || step.1 == unlockA2

/-- The legal ranges of the parameters (R270, D3, D11, D16, D22), a delay no shorter than its lower bound; the disable
sequence is not the erase sequence ("a distinct final command byte", R126). -/
def paramsLegal (p : Params) : Bool :=
  16 ≤ p.addrWidth && p.addrWidth ≤ 32 && 29 ≤ p.lineMax
    && textOk p.idString && textOk p.versionString && textOk p.readyString && !p.readyString.isEmpty
    && seqOk 3 p.swpEnableSeq && seqOk 6 p.swpDisableSeq && p.swpDisableSeq != chipEraseSeq
    && delaysLegal p

end Sys2Proof.Machine
end

