-- ==== Sys2Proof/Machine/State.lean ====
section
/-! DEFINITION. The state of the machine as plain data (10_state.md), its reasons to stop, and reset (R38). -/

namespace Sys2Proof.Machine

/-- `S`, the session state (R10). -/
inductive Session where
  | awaitingCommand
  | awaitingBinary
  | executing
deriving DecidableEq, Repr

/-- `strategy` (R19). -/
inductive Strategy where
  | eeprom
  | flash
deriving DecidableEq, Repr

/-- `DIR`, the data-bus direction (R21). -/
inductive Direction where
  | input
  | output
deriving DecidableEq, Repr

/-- The level of a control line, whatever voltage that is (R22). -/
inductive Level where
  | asserted
  | deasserted
deriving DecidableEq, Repr

/-- `busState` (R24), a function of the other state. -/
inductive BusState where
  | idle
  | driving
  | polling
deriving DecidableEq, Repr

/-- A bus event (R8). -/
inductive BusEvent where
  | addr (a : Word)
  | dir (d : Direction)
  | data (v : Byte)
  | ce (x : Level)
  | oe (x : Level)
  | we (x : Level)
  | sample (v : Byte)
  | delay (t : DelayName)
deriving DecidableEq, Repr

/-- An entry of the cycle trace: the records of R108, the lone `ADDR` of the command `a`, and the engine's delays. -/
inductive Cycle where
  | rd (a : Word) (v : Byte)
  | wr (a : Word) (v : Byte)
  | poll (a : Word) (v : Byte)
  | addr (a : Word)
  | delay (t : DelayName)
deriving DecidableEq, Repr

/-- A memory of bytes: the entries that differ from what an unlisted address reads as, addresses strictly rising.
`unlisted = none` says that an unlisted address holds no value a rule may read. -/
structure Memory where
  unlisted : Option Byte
  cells : List Host.Cell
deriving DecidableEq, Repr

/-- A test device of R66: `TDk` with `polls = k`, and `TD0` with `polls = 0`. `pollsLeft` polls still answer the last
written byte with bit 7 inverted. -/
structure TestDevice where
  polls : Nat
  pollsLeft : Nat
  lastWritten : Byte
  mem : Memory
deriving DecidableEq, Repr

/-- `Dev`, the agent behind the bus (R5, R28), as the model holds it: nothing known of it, its answers given in advance
in the order of the samples, or a test device (log 7, 8, 9). -/
inductive Dev where
  | oracle
  | scripted (answers : List Byte)
  | test (device : TestDevice)
deriving DecidableEq, Repr

/-- Control is inside `waitWriteComplete` (R105): the byte awaited, the polls made, and what a fill still has to commit
afterwards (R190; `left = 0` for a page write). -/
structure PollWait where
  expect : Byte
  polls : Nat
  next : Word
  left : Nat
deriving DecidableEq, Repr

/-- All the state the spec gives the machine, its environment and its history. -/
structure State where
  /-- The parameters (R270). -/
  params : Params
  /-- `S` (R10). -/
  session : Session
  /-- `line[0 .. lineLen-1]`; `lineLen` is its length (R12). -/
  line : List Byte
  /-- `opcode` (R13). -/
  opcode : Option Byte
  /-- `startAddr` (R14). -/
  startAddr : Word
  /-- `endAddr` (R14). -/
  endAddr : Word
  /-- `fillField` (R15). -/
  fillField : Word
  /-- `binCount` (R16). -/
  binCount : Nat
  /-- `binIndex` (R16). -/
  binIndex : Nat
  /-- `strategy` (R19). -/
  strategy : Strategy
  /-- `A`, its bits at and above `ADDR_WIDTH` 0 (R20). -/
  addr : Word
  /-- `DIR` (R21). -/
  dir : Direction
  /-- `DOUT` (R21). -/
  dout : Byte
  /-- `CE` (R22). -/
  ce : Level
  /-- `OE` (R22). -/
  oe : Level
  /-- `WE` (R22). -/
  we : Level
  /-- `PageBuffer` (R25). -/
  pageBuffer : Memory
  /-- `linkIn`, the oldest byte first (R27). -/
  linkIn : List Byte
  /-- `linkOut`, the oldest byte first (R27). -/
  linkOut : List Byte
  /-- `faultMark` (R29). -/
  faultMark : Bool
  /-- The control position inside `waitWriteComplete` (R24, R105). -/
  wait : Option PollWait
  /-- The target chip (R28, R47). -/
  dev : Dev
  /-- The model's own: how many free samples were drawn (log 7). -/
  draws : Nat
  /-- The bus trace, the oldest event first (R8). -/
  busTrace : List BusEvent
  /-- The cycle trace, the oldest entry first (R8, R108). -/
  cycleTrace : List Cycle
deriving DecidableEq, Repr

/-- Why a step stops with a fault. -/
inductive Fault where
  /-- Raised by a step of a state whose `faultMark` is set, that is after `p` with `length > 4096` under
  `P_OVERFLOW = fault`: the run has left the specified behaviour (R228, R29). Safe. -/
  | pageOverflow
  /-- Raised by the hand-over of `p` when an entry of the page buffer it reads holds no value (R25); no state that a run
  from reset reaches does (log 6). Safe. -/
  | absentBufferEntry
  /-- Raised by a poll only under a finite `POLL_LIMIT`, used as fuel, when it is exhausted (R234, D24, log 12); with the
  spec's infinite limit never. Safe. -/
  | hang
deriving DecidableEq, Repr

/-- Why a step declines. -/
inductive Refusal where
  /-- An instruction of the table that has no meaning yet, by its mnemonic. Safe. -/
  | notModelled (mnemonic : String)
deriving DecidableEq, Repr

/-- The machine right after reset (R38). Values R38 leaves unspecified are named in log 4 to 7 and 17. -/
def State.reset : State :=
  { params := defaultParams
    session := .awaitingCommand
    line := []
    opcode := none
    startAddr := 0#32
    endAddr := 0#32
    fillField := 0#32
    binCount := 0
    binIndex := 0
    strategy := .eeprom
    addr := 0#32
    dir := .input
    dout := 0#8
    ce := .asserted
    oe := .deasserted
    we := .deasserted
    pageBuffer := { unlisted := none, cells := [] }
    linkIn := []
    linkOut := defaultParams.bootBanner
    faultMark := false
    wait := none
    dev := .oracle
    draws := 0
    busTrace := []
    cycleTrace := [] }

end Sys2Proof.Machine
end

