-- ==== Sys2Proof/Machine/Operands.lean ====
section
/-! DEFINITION. Operand forms: the length of a range, address formation, the rows of a dump and their text. -/

namespace Sys2Proof.Machine

/-- `length = endAddr - startAddr + 1`, an integer from 1 to 2^32 (R16, R77, D14). -/
def rangeLength (start stop : Word) : Nat := stop.toNat - start.toNat + 1

/-- `BusAddr(a) = a[ADDR_WIDTH-1:0]`; the bits above are dropped (R41). -/
def busAddr (addrWidth : Nat) (a : Word) : Word := BitVec.ofNat 32 (a.toNat % 2 ^ addrWidth)

/-- `start + i` modulo 2^32 (R41). -/
def spanAddr (start : Word) (i : Nat) : Word := start + BitVec.ofNat 32 i

/-- The fill byte, `fillField[7:0]` (R84, R190). -/
def fillByte (fillField : Word) : Byte := fillField.setWidth 8

/-- The rows of a dump, `ceil(length / 16)` (R180). -/
def rowTotal (length : Nat) : Nat := (length + (rowBytes - 1)) / rowBytes

/-- `RowCount(k)` (R184). -/
def rowCount (tail : DumpTail) (length k : Nat) : Nat :=
  match tail with
  | .fullRow => rowBytes
  | .shortRow => if k + 1 = rowTotal length then length - rowBytes * k else rowBytes

/-- A byte of the set `PRINTABLE` (R183). -/
def isPrintable (ranges : List (Byte × Byte)) (b : Byte) : Bool :=
  ranges.any fun r => r.1.toNat ≤ b.toNat && b.toNat ≤ r.2.toNat

/-- `Render(b)` (R183). -/
def render (ranges : List (Byte × Byte)) (b : Byte) : Byte := if isPrintable ranges b then b else 0x2E#8

/-- `RowText(base, row, n)`, `n` the length of `row` (R182, C1). -/
def rowText (ranges : List (Byte × Byte)) (base : Word) (row : List Byte) : List Byte :=
  hex8 base ++ [0x3A#8, charSP, charSP] ++ row.flatMap (fun b => hex2 b ++ [charSP]) ++ [charSP] ++ row.map (render ranges)

end Sys2Proof.Machine
end

