-- ==== Sys2Proof/Machine/Flags.lean ====
section
/-! DEFINITION. The block has no flags and no condition codes; these are the conditions it evaluates, none of them
latched (R18), and the functions of the state that R24 and R229 name. The conditions of the line reader and the parser
stand in Decode.lean. -/

namespace Sys2Proof.Machine

/-- `lineLen` (R12). -/
def State.lineLen (s : State) : Nat := s.line.length

/-- `p` asks for more bytes than the page buffer holds (R193). -/
def overflows (start stop : Word) : Bool := pageCap < rangeLength start stop

/-- `binIndex = binCount`: the whole payload is in (R142). -/
def payloadComplete (s : State) : Bool := s.binCount ≤ s.binIndex

/-- `strategy = FLASH` (R120). -/
def flashSelected (s : State) : Bool := s.strategy == .flash

/-- `sampled = lastValueWritten`, all eight bits (R105). -/
def pollMatches (sampled expected : Byte) : Bool := sampled == expected

/-- The chip drives the data lines only while chip-enable and output-enable are asserted (R47, R100). -/
def chipDrives (s : State) : Bool := s.ce == .asserted && s.oe == .asserted

/-- Under a finite `POLL_LIMIT` the polls of the wait are used up (R234, D24). -/
def pollsExhausted (limit : Nat) (s : State) : Bool :=
  match s.wait with
  | none => false
  | some w => limit ≤ w.polls

/-- `busState` (R24): `Driving` while the block drives the data lines, `Polling` inside `waitWriteComplete`, else
`Idle`. -/
def State.busState (s : State) : BusState :=
  match s.dir with
  | .output => .driving
  | .input => if s.wait.isSome then .polling else .idle

/-- `Ctl` is stuck: it waits in `LinkGet` with `linkIn` empty (R229, R160). -/
def State.stuck (s : State) : Bool := s.session != .executing && s.linkIn.isEmpty && !s.faultMark

/-- The rest state (R245). -/
def State.atRest (s : State) : Bool :=
  s.session == .awaitingCommand && s.line.isEmpty && s.linkIn.isEmpty && s.busState == .idle
    && s.oe == .deasserted && s.we == .deasserted && s.ce == .asserted && !s.faultMark

end Sys2Proof.Machine
end

