-- ==== Sys2Proof/Machine/Ops.lean ====
section
/-! DEFINITION. The shared operations: memories, bus events, samples, the operations of the bus driver (R101 to R105)
and of the link (R7). The block raises no exception and returns from none (R220, R224, R225): there is no operation for
taking one. -/

namespace Sys2Proof.Machine

/-! ## Memories -/

/-- The value listed at an address. -/
def cellLookup (a : Nat) : List Host.Cell → Option Byte
  | [] => none
  | c :: rest => if c.1 = a then some c.2 else cellLookup a rest

/-- The list with `v` at address `a`, addresses rising. -/
def cellInsert (a : Nat) (v : Byte) : List Host.Cell → List Host.Cell
  | [] => [(a, v)]
  | c :: rest =>
    if a < c.1 then (a, v) :: c :: rest
    else if a = c.1 then (a, v) :: rest
    else c :: cellInsert a v rest

/-- The list without an entry at address `a`. -/
def cellErase (a : Nat) : List Host.Cell → List Host.Cell
  | [] => []
  | c :: rest => if c.1 = a then rest else c :: cellErase a rest

/-- The byte a memory holds at an address; `none` where it holds none a rule may read. -/
def Memory.read (m : Memory) (a : Nat) : Option Byte :=
  match cellLookup a m.cells with
  | some v => some v
  | none => m.unlisted

/-- One byte written; the canonical form is kept by not listing what an unlisted address reads as. -/
def Memory.write (m : Memory) (a : Nat) (v : Byte) : Memory :=
  if m.unlisted = some v then { m with cells := cellErase a m.cells }
  else { m with cells := cellInsert a v m.cells }

/-- Addresses strictly rising, all of them above `low` where a bound is given. -/
def cellsRising : Option Nat → List Host.Cell → Bool
  | _, [] => true
  | none, c :: rest => cellsRising (some c.1) rest
  | some low, c :: rest => decide (low < c.1) && cellsRising (some c.1) rest

/-- The canonical form: addresses strictly rising, no entry equal to what an unlisted address reads as. -/
def Memory.wf (m : Memory) : Bool :=
  cellsRising none m.cells && m.cells.all fun c => m.unlisted != some c.2

/-- Every listed address is below a bound. -/
def Memory.below (m : Memory) (bound : Nat) : Bool := m.cells.all fun c => c.1 < bound

/-! ## The target chip -/

/-- Which bus operation samples: a test device answers polls and reads differently (R66). -/
inductive SampleKind where
  | read
  | poll
deriving DecidableEq, Repr

/-- What a test device answers to a read at an address: its memory (R66). -/
def TestDevice.readAt (t : TestDevice) (a : Word) : Option Byte := t.mem.read a.toNat

/-- What a test device answers to a poll: while polls are left the last written byte with bit 7 inverted, then its
memory (R66). -/
def TestDevice.pollAt (t : TestDevice) (a : Word) : Option Byte × TestDevice :=
  if t.pollsLeft = 0 then (t.mem.read a.toNat, t)
  else (some (t.lastWritten ^^^ 0x80#8), { t with pollsLeft := t.pollsLeft - 1 })

/-- The byte the chip presents, where the model of it gives one, and the chip afterwards (R47). -/
def Dev.answer (d : Dev) (kind : SampleKind) (a : Word) : Option Byte × Dev :=
  match d with
  | .oracle => (none, .oracle)
  | .scripted [] => (none, .scripted [])
  | .scripted (v :: rest) => (some v, .scripted rest)
  | .test t =>
    match kind with
    | .read => (t.readAt a, .test t)
    | .poll => ((t.pollAt a).1, .test (t.pollAt a).2)

/-- The chip latches a write (R103). A test device stores at once and starts its polls anew (R66). -/
def Dev.latch (d : Dev) (a : Word) (v : Byte) : Dev :=
  match d with
  | .oracle => .oracle
  | .scripted answers => .scripted answers
  | .test t => .test { t with pollsLeft := t.polls, lastWritten := v, mem := t.mem.write a.toNat v }

/-! ## Bus events -/

/-- A bus event takes place: the line it names takes its level, and the trace grows by it (R8). -/
def emit (e : BusEvent) (s : State) : State :=
  match e with
  | .addr a => { s with addr := a, busTrace := s.busTrace ++ [e] }
  | .dir d => { s with dir := d, busTrace := s.busTrace ++ [e] }
  | .data v => { s with dout := v, busTrace := s.busTrace ++ [e] }
  | .ce x => { s with ce := x, busTrace := s.busTrace ++ [e] }
  | .oe x => { s with oe := x, busTrace := s.busTrace ++ [e] }
  | .we x => { s with we := x, busTrace := s.busTrace ++ [e] }
  | .sample _ => { s with busTrace := s.busTrace ++ [e] }
  | .delay _ => { s with busTrace := s.busTrace ++ [e] }

/-- Bus events in order. -/
def emitAll : List BusEvent → State → State
  | [], s => s
  | e :: rest, s => emitAll rest (emit e s)

/-- The cycle trace grows by an entry (R108). -/
def record (c : Cycle) (s : State) : State := { s with cycleTrace := s.cycleTrace ++ [c] }

/-- `sample()` (R47): what the chip answers while it drives the lines, and otherwise a free value, a fresh one each
time (D31, log 7). -/
def sample (kind : SampleKind) (s : State) : Byte × State :=
  match (if chipDrives s then s.dev.answer kind s.addr else (none, s.dev)) with
  | (some v, d) => (v, { s with dev := d })
  | (none, d) => (Config.undriven s.draws, { s with dev := d, draws := s.draws + 1 })

/-- The chip latches the write at the end of the write-enable pulse, if it is selected (R100, R103). -/
def latchWrite (s : State) : State :=
  if s.ce = .asserted then { s with dev := s.dev.latch s.addr s.dout } else s

/-! ## The bus driver (40_bus_driver.md) -/

/-- `setAddress(a)` (R101). -/
def setAddress (a : Word) (s : State) : State := emit (.addr (busAddr s.params.addrWidth a)) s

/-- The first three events of `readByte`, in the order given (R102, D26). -/
def readOpening (order : ReadOrder) (a : Word) : List BusEvent :=
  match order with
  | .oeCeAddr => [.oe .asserted, .ce .asserted, .addr a]
  | .oeAddrCe => [.oe .asserted, .addr a, .ce .asserted]
  | .ceOeAddr => [.ce .asserted, .oe .asserted, .addr a]
  | .ceAddrOe => [.ce .asserted, .addr a, .oe .asserted]
  | .addrOeCe => [.addr a, .oe .asserted, .ce .asserted]
  | .addrCeOe => [.addr a, .ce .asserted, .oe .asserted]

/-- The end of `readByte` and `pollCycle`: wait, sample, deassert output-enable (R102, R104). -/
def takeSample (kind : SampleKind) (s : State) : Byte × State :=
  let r := sample kind (emit (.delay .tOeValid) s)
  (r.1, emit (.oe .deasserted) (emit (.sample r.1) r.2))

/-- `readByte(a)` (R102), recorded as `RD`. -/
def readByte (a : Word) (s : State) : Byte × State :=
  let r := takeSample .read (emitAll (readOpening s.params.readOrder (busAddr s.params.addrWidth a)) s)
  (r.1, record (.rd r.2.addr r.1) r.2)

/-- `writeByte(a, value)` (R103), recorded as `WR`. -/
def writeByte (a : Word) (v : Byte) (s : State) : State :=
  let s1 := setAddress a (emitAll [.dir .output, .data v] s)
  let s2 := latchWrite (emitAll [.we .asserted, .delay .tWeLow, .we .deasserted] s1)
  record (.wr s2.addr v) (emit (.dir .input) s2)

/-- `pollCycle()` (R104), recorded as `POLL`; it does not set the address. -/
def pollCycle (s : State) : Byte × State :=
  let r := takeSample .poll (emit (.oe .asserted) s)
  (r.1, record (.poll r.2.addr r.1) r.2)

/-- One turn of the loop of `waitWriteComplete` (R105): a poll cycle, and control leaves the wait when the byte matches. -/
def pollOnce (w : PollWait) (s : State) : State :=
  let r := pollCycle { s with wait := some w }
  { r.2 with wait := if pollMatches r.1 w.expect then none else some { w with polls := w.polls + 1 } }

/-- A delay of the programming engine, an entry of both traces (R8, R262). -/
def engineDelay (t : DelayName) (s : State) : State := record (.delay t) (emit (.delay t) s)

/-! ## The link -/

/-- `LinkPut(bytes)` (R7, R27). -/
def linkPut (bytes : List Byte) (s : State) : State := { s with linkOut := s.linkOut ++ bytes }

/-- `PutLine(text)` (R7). -/
def putLine (text : List Byte) (s : State) : State := linkPut (text ++ s.params.eolOut) s

end Sys2Proof.Machine
end

