-- ==== Sys2Proof/Machine/Engine.lean ====
section
/-! DEFINITION. The device programming engine (41_programming_engine.md) and the page buffer controller
(42_page_buffer.md). -/

namespace Sys2Proof.Machine

/-- `WriteSeq(steps)`: the writes in order, nothing between them (R123). -/
def writeSeq : List (Word × Byte) → State → State
  | [], s => s
  | step :: rest, s => writeSeq rest (writeByte step.1 step.2 s)

/-- The writes of a page load: bytes at ascending addresses (R121). -/
def writeSpan : Word → List Byte → State → State
  | _, [], s => s
  | a, v :: rest, s => writeSpan (a + 1#32) rest (writeByte a v s)

/-- One Flash byte: unlock, data byte, settle delay (R122). -/
def flashByteProgram (target : Word) (v : Byte) (s : State) : State :=
  engineDelay .tFlashByte (writeByte target v (writeSeq flashUnlock s))

/-- `CommitFLASH` (R122). -/
def commitFlash : Word → List Byte → State → State
  | _, [], s => s
  | a, v :: rest, s => commitFlash (a + 1#32) rest (flashByteProgram a v s)

/-- `CommitEEPROM` (R121) up to and with the first poll of `waitWriteComplete`; while the byte does not match control
stays in the wait. `left` is what a fill commits afterwards. The buffer is not empty (R120). -/
def commitEeprom (start : Word) (bytes : List Byte) (left : Nat) (s : State) : State :=
  match bytes.getLast? with
  | none => s
  | some last =>
    pollOnce { expect := last, polls := 0, next := spanAddr start bytes.length, left := left } (writeSpan start bytes s)

/-- `Commit(start, count, buf)`; the strategy is read once, at entry (R120). -/
def commit (start : Word) (bytes : List Byte) (left : Nat) (s : State) : State :=
  if flashSelected s then commitFlash start bytes s else commitEeprom start bytes left s

/-- `ChipErase()` (R125). -/
def chipErase (s : State) : State := engineDelay .tErase (writeSeq chipEraseSeq s)

/-- `EnableWriteProtection()` (R126). -/
def enableWriteProtection (s : State) : State := engineDelay .tSwp (writeSeq s.params.swpEnableSeq s)

/-- `DisableWriteProtection()` (R127). -/
def disableWriteProtection (s : State) : State := engineDelay .tSwp (writeSeq s.params.swpDisableSeq s)

/-! ## The page buffer -/

/-- Payload bytes into the buffer from an index on (R141); a byte beyond the capacity is discarded, which only
`P_OVERFLOW = truncate` brings about (R195). -/
def storePayload : Nat → List Byte → Memory → Memory
  | _, [], m => m
  | i, b :: rest, m => storePayload (i + 1) rest (if i < pageCap then m.write i b else m)

/-- `PageBuffer[0 .. count-1]`, `none` if one of them holds no value (R25, R142). -/
def bufferPrefix (m : Memory) : Nat → Option (List Byte)
  | 0 => some []
  | count + 1 =>
    match bufferPrefix m count, m.read count with
    | some bytes, some b => some (bytes ++ [b])
    | _, _ => none

/-- `CollectBinary()` over the bytes at hand (R141): it takes the bytes still wanted, or all there are. -/
def collectBinary (s : State) : State :=
  let wanted := s.binCount - s.binIndex
  let taken := s.linkIn.take wanted
  { s with
    pageBuffer := storePayload s.binIndex taken s.pageBuffer
    binIndex := s.binIndex + taken.length
    linkIn := s.linkIn.drop wanted }

/-- A finite `POLL_LIMIT` turns an exhausted wait into the outcome `hang` (R234, D24); with the infinite limit the state
is the answer as it is. -/
def answer (limit : Option Nat) (s : State) : Host.Outcome State Fault Refusal :=
  match limit with
  | none => .next s
  | some n => if pollsExhausted n s then .fault .hang else .next s

/-- Hand-over (R142): when the payload is complete the session executes the commit; until then it waits for more bytes
(R233). -/
def handOver (s : State) : Host.Outcome State Fault Refusal :=
  if payloadComplete s then
    match bufferPrefix s.pageBuffer (min s.binCount pageCap) with
    | none => .fault .absentBufferEntry
    | some bytes => answer s.params.pollLimit (commit s.startAddr bytes 0 { s with session := .executing })
  else .next s

/-- The fill loop (R190): one complete one-byte commit per address; a commit that stays in its wait suspends the loop,
which remembers how many addresses are left. -/
def fillFrom (v : Byte) : Nat → Word → State → State
  | 0, _, s => s
  | left + 1, a, s =>
    let t := commit a [v] left s
    if t.wait.isSome then t else fillFrom v left (a + 1#32) t

/-- The next turn of a wait, and what follows it when it ends (R105, R190). -/
def resumeWait (w : PollWait) (s : State) : Host.Outcome State Fault Refusal :=
  let t := pollOnce w s
  answer s.params.pollLimit (if t.wait.isSome then t else fillFrom w.expect w.left w.next t)

end Sys2Proof.Machine
end

