-- ==== Sys2Proof/Machine/BusSeq.lean ====
section
/-! DEFINITION. The four bus sequences of the opcode table as instructions of their own (R124, log 26): what the block
puts on the bus when a command emits them. -/

namespace Sys2Proof.Machine

/-- `busseq.flash_byte_program` (R122). -/
def execSeqFlashByteProgram (target : Word) (value : Byte) (s : State) : Host.Outcome State Fault Refusal :=
  .next (flashByteProgram target value s)

/-- `busseq.chip_erase` (R125). -/
def execSeqChipErase (s : State) : Host.Outcome State Fault Refusal := .next (chipErase s)

/-- `busseq.swp_enable` (R126). -/
def execSeqSwpEnable (s : State) : Host.Outcome State Fault Refusal := .next (enableWriteProtection s)

/-- `busseq.swp_disable` (R127). -/
def execSeqSwpDisable (s : State) : Host.Outcome State Fault Refusal := .next (disableWriteProtection s)

end Sys2Proof.Machine
end

