-- ==== Sys2Proof/Machine/Control.lean ====
section
/-! DEFINITION. The commands `l`, `u`, `e`, `E`, `F` and unrecognised lines (47_cmd_device_control.md). -/

namespace Sys2Proof.Machine

/-- `l`: enable software write protection (R200). -/
def execLock (s : State) : Host.Outcome State Fault Refusal := .next (enableWriteProtection s)

/-- `u`: disable software write protection (R201). -/
def execUnlock (s : State) : Host.Outcome State Fault Refusal := .next (disableWriteProtection s)

/-- `e`: chip erase (R203). -/
def execErase (s : State) : Host.Outcome State Fault Refusal := .next (chipErase s)

/-- `E`: select the EEPROM strategy (R205). -/
def execModeEeprom (s : State) : Host.Outcome State Fault Refusal := .next { s with strategy := .eeprom }

/-- `F`: select the Flash strategy (R206). -/
def execModeFlash (s : State) : Host.Outcome State Fault Refusal := .next { s with strategy := .flash }

/-- An unrecognised line has no effect (R208, R81). -/
def execUnrecognised (_opcode : Option Byte) (s : State) : Host.Outcome State Fault Refusal := .next s

end Sys2Proof.Machine
end

