-- ==== Sys2Proof/Machine/Info.lean ====
section
/-! DEFINITION. The commands `i`, `v`, `a` (44_cmd_info_diag.md). -/

namespace Sys2Proof.Machine

/-- `i`: the identification line (R170). -/
def execIdent (s : State) : Host.Outcome State Fault Refusal := .next (putLine s.params.idString s)

/-- `v`: the version line (R171). -/
def execVersion (s : State) : Host.Outcome State Fault Refusal := .next (putLine s.params.versionString s)

/-- `a`: set the bus address, recorded as `ADDR` (R172, R108). -/
def execSetAddress (start : Word) (s : State) : Host.Outcome State Fault Refusal :=
  let t := setAddress start s
  .next (record (.addr t.addr) t)

end Sys2Proof.Machine
end

