-- ==== Sys2Proof/Machine/Read.lean ====
section
/-! DEFINITION. The commands `d` and `r` (45_cmd_read.md). -/

namespace Sys2Proof.Machine

/-- `count` bytes read at ascending addresses, each address once (R180, D32). -/
def readSpan : Nat → Word → State → List Byte × State
  | 0, _, s => ([], s)
  | count + 1, a, s =>
    let r := readByte a s
    let q := readSpan count (a + 1#32) r.2
    (r.1 :: q.1, q.2)

/-- One dump row: its reads, then its text (R180, R182). -/
def dumpRow (base : Word) (count : Nat) (s : State) : State :=
  let r := readSpan count base s
  putLine (rowText s.params.printable base r.1) r.2

/-- The last `left` rows of a dump of `length` bytes (R180). -/
def dumpRows (start : Word) (length : Nat) : Nat → State → State
  | 0, s => s
  | left + 1, s =>
    let k := rowTotal length - (left + 1)
    dumpRows start length left (dumpRow (spanAddr start (rowBytes * k)) (rowCount s.params.dumpTail length k) s)

/-- `count` bytes read and emitted one by one (R181, D32). -/
def streamBytes : Nat → Word → State → State
  | 0, _, s => s
  | count + 1, a, s =>
    let r := readByte a s
    streamBytes count (a + 1#32) (linkPut [r.1] r.2)

/-- `d`: hex dump (R180). -/
def execDump (start stop : Word) (s : State) : Host.Outcome State Fault Refusal :=
  .next (dumpRows start (rangeLength start stop) (rowTotal (rangeLength start stop)) s)

/-- `r`: raw read (R181). -/
def execRead (start stop : Word) (s : State) : Host.Outcome State Fault Refusal :=
  .next (streamBytes (rangeLength start stop) start s)

end Sys2Proof.Machine
end

