-- ==== Sys2Proof/Machine/Write.lean ====
section
/-! DEFINITION. The commands `f` and `p` (46_cmd_write.md). -/

namespace Sys2Proof.Machine

/-- `f`: one one-byte commit per address (R190, D20). -/
def execFill (start stop value : Word) (s : State) : Host.Outcome State Fault Refusal :=
  answer s.params.pollLimit (fillFrom (fillByte value) (rangeLength start stop) start s)

/-- `p` from where its length is admitted: collect the payload at hand, hand over when it is complete (R193). The start
address of the commit is the register `startAddr`, which the parser has loaded with the operand (log 28). -/
def enterBinary (start : Word) (length : Nat) (s : State) : Host.Outcome State Fault Refusal :=
  handOver (collectBinary { s with startAddr := start, binCount := length, binIndex := 0, session := .awaitingBinary })

/-- `PageOverflow()` (R195). -/
def pageOverflow (start : Word) (length : Nat) (s : State) : Host.Outcome State Fault Refusal :=
  match s.params.pOverflow with
  | .fault => .next { s with faultMark := true }
  | .reject => .next s
  | .truncate => enterBinary start length s

/-- `p`: page write (R193). -/
def execPage (start stop : Word) (s : State) : Host.Outcome State Fault Refusal :=
  if overflows start stop then pageOverflow start (rangeLength start stop) s
  else enterBinary start (rangeLength start stop) s

end Sys2Proof.Machine
end

