-- ==== Sys2Proof/Machine/Dispatch.lean ====
section
/-! DEFINITION. `Dispatch()` (R156): one arm per constructor of Instr, each one call of its meaning. -/

namespace Sys2Proof.Machine

/-- The effect of an instruction, without the session's ready marker (R156, R158). -/
def exec (i : Instr) (s : State) : Host.Outcome State Fault Refusal :=
  match i with
  | .ident => Sys2Proof.Machine.execIdent s
  | .version => Sys2Proof.Machine.execVersion s
  | .setAddress start => Sys2Proof.Machine.execSetAddress start s
  | .dump start stop => Sys2Proof.Machine.execDump start stop s
  | .fill start stop value => Sys2Proof.Machine.execFill start stop value s
  | .read start stop => Sys2Proof.Machine.execRead start stop s
  | .page start stop => Sys2Proof.Machine.execPage start stop s
  | .lock => Sys2Proof.Machine.execLock s
  | .unlock => Sys2Proof.Machine.execUnlock s
  | .erase => Sys2Proof.Machine.execErase s
  | .modeEeprom => Sys2Proof.Machine.execModeEeprom s
  | .modeFlash => Sys2Proof.Machine.execModeFlash s
  | .unrecognised opcode => Sys2Proof.Machine.execUnrecognised opcode s
  | .seqFlashByteProgram target value => Sys2Proof.Machine.execSeqFlashByteProgram target value s
  | .seqChipErase => Sys2Proof.Machine.execSeqChipErase s
  | .seqSwpEnable => Sys2Proof.Machine.execSeqSwpEnable s
  | .seqSwpDisable => Sys2Proof.Machine.execSeqSwpDisable s

end Sys2Proof.Machine
end

