-- ==== Sys2Proof/Machine/Session.lean ====
section
/-! DEFINITION. The protocol session around `Dispatch` (43_protocol_session.md), the moves of `Host`, and the reset
event (R240). A step runs from one point where `Ctl` can wait to the next (R160, log 10). -/

namespace Sys2Proof.Machine

/-- The parser's registers are written and the session executes (R78, R150, R151). -/
def loadCommand (p : Parsed) (s : State) : State :=
  { s with
    opcode := p.opcode
    startAddr := p.startAddr
    endAddr := p.endAddr
    fillField := p.fillField
    session := .executing }

/-- What the session does at a wait point: it has a command to dispatch, or it answers by itself. -/
inductive Fetched where
  | command (i : Instr) (s : State)
  | answered (o : Host.Outcome State Fault Refusal)

/-- `AwaitingCommand`: the line reader over the bytes at hand (R152), and the parse of a complete line (R154). With no
byte at hand the block waits and nothing changes (R229). -/
def fetchCommand (s : State) : Fetched :=
  match readLine s.params.lineMax s.line s.linkIn with
  | .incomplete line => .answered (.next { s with line := line, linkIn := [] })
  | .complete line rest =>
    .command (instrOf (parseLine line)) (loadCommand (parseLine line) { s with line := line, linkIn := rest })

/-- The end of a command's turn (R151, R158): when its effect is finished, the ready marker and back to
`AwaitingCommand` with an empty line; while it waits, or once `faultMark` is set, nothing. -/
def sessionTail (s : State) : State :=
  if s.faultMark then s
  else
    match s.session, s.wait with
    | .executing, none => { putLine s.params.readyString s with session := .awaitingCommand, line := [] }
    | _, _ => s

/-- `sessionTail` after whatever the command answered. -/
def finish (o : Host.Outcome State Fault Refusal) : Host.Outcome State Fault Refusal :=
  match o with
  | .next s => .next (sessionTail s)
  | .fault r => .fault r
  | .refused r => .refused r

/-- What stands at the machine's wait point (R160). A state whose `faultMark` is set has no specified behaviour (R29). -/
def fetch (s : State) : Fetched :=
  if s.faultMark then .answered (.fault .pageOverflow)
  else
    match s.session with
    | .awaitingCommand => fetchCommand s
    | .awaitingBinary => .answered (finish (handOver (collectBinary s)))
    | .executing =>
      match s.wait with
      | none => .answered (finish (.next s))
      | some w => .answered (finish (resumeWait w s))

/-! ## The other agents -/

/-- `Host` appends bytes to the link (R27, R260). -/
def hostSend (bytes : List Byte) (s : State) : State := { s with linkIn := s.linkIn ++ bytes }

/-- The reset event (R240): every piece of state takes its reset value; the parameters and the target chip stay, and so
does the count of free samples, which only keeps later samples fresh. DESIGN CHOICE: it clears `faultMark`, as R38 says, where
R29 and R228 say that the mark is never cleared (log 35). -/
def resetEvent (s : State) : State :=
  { State.reset with params := s.params, linkOut := s.params.bootBanner, dev := s.dev, draws := s.draws }

/-- Where the chip's contents are unspecified after a reset inside a command (R242, U13). -/
inductive ChipArea where
  /-- Nowhere: the command writes nothing to the chip. -/
  | untouched
  /-- The span of a command under EEPROM. -/
  | span (start : Word) (count : Nat)
  /-- The whole device. -/
  | whole
deriving DecidableEq, Repr

/-- What a reset inside a command leaves in the chip where R242 leaves it unspecified: bytes at addresses, the polls a test
device still answers wrongly, the answers a scripted chip has left. Any value is a case of R242 (log 36). -/
structure ChipRemains where
  cells : List Host.Cell
  pollsLeft : Nat
  lastWritten : Byte
  answers : List Byte
deriving DecidableEq, Repr

/-- The area of a command (U13): its span for `p` and `f` under EEPROM, the whole device for `e`, `l`, `u`, the bus sequences
and every Flash commit; a command without a write cycle has none. -/
def disturbedArea (strategy : Strategy) : Instr → ChipArea
  | .ident => .untouched
  | .version => .untouched
  | .setAddress _ => .untouched
  | .dump _ _ => .untouched
  | .fill start stop _ => if strategy = .flash then .whole else .span start (rangeLength start stop)
  | .read _ _ => .untouched
  | .page start stop => if strategy = .flash then .whole else .span start (rangeLength start stop)
  | .lock => .whole
  | .unlock => .whole
  | .erase => .whole
  | .modeEeprom => .untouched
  | .modeFlash => .untouched
  | .unrecognised _ => .untouched
  | .seqFlashByteProgram _ _ => .whole
  | .seqChipErase => .whole
  | .seqSwpEnable => .whole
  | .seqSwpDisable => .whole

/-- The command a reset abandons when it falls inside the step from this state: the one whose line the link completes, the page
write whose payload is being collected, or the one in the parser's registers (R150, R240). -/
def abandoned (s : State) : Option Instr :=
  match s.session with
  | .awaitingCommand =>
    match readLine s.params.lineMax s.line s.linkIn with
    | .complete line _ => some (instrOf (parseLine line))
    | .incomplete _ => none
  | .awaitingBinary => some (.page s.startAddr s.endAddr)
  | .executing =>
    some (instrOf { opcode := s.opcode, startAddr := s.startAddr, endAddr := s.endAddr, fillField := s.fillField })

/-- The address belongs to the area, on a bus of the given width (R41). -/
def ChipArea.covers (addrWidth : Nat) (area : ChipArea) (a : Nat) : Bool :=
  match area with
  | .untouched => false
  | .span start count => (List.range count).any fun i => (busAddr addrWidth (spanAddr start i)).toNat == a
  | .whole => a < 2 ^ addrWidth

/-- The memory with the given bytes at the addresses of the area, and no other byte changed. -/
def Memory.disturb (addrWidth : Nat) (area : ChipArea) : List Host.Cell → Memory → Memory
  | [], m => m
  | c :: rest, m => Memory.disturb addrWidth area rest (if area.covers addrWidth c.1 then m.write c.1 c.2 else m)

/-- The chip after a reset inside a command with this area (R242). -/
def Dev.disturb (addrWidth : Nat) (area : ChipArea) (remains : ChipRemains) (d : Dev) : Dev :=
  match d with
  | .oracle => .oracle
  | .scripted _ => .scripted remains.answers
  | .test t =>
    if area = .untouched then .test t
    else .test { t with
      pollsLeft := remains.pollsLeft
      lastWritten := remains.lastWritten
      mem := Memory.disturb addrWidth area remains.cells t.mem }

/-- A reset that falls inside the step from this state, wherever in it (R242): the block is as after any reset, its write-enable
released; the chip's contents are unspecified in the area of the abandoned command and nowhere else. -/
def resetDuring (remains : ChipRemains) (s : State) : State :=
  match abandoned s with
  | none => resetEvent s
  | some i =>
    { resetEvent s with dev := s.dev.disturb s.params.addrWidth (disturbedArea s.strategy i) remains }

/-! ## Placing an instruction -/

/-- The payload an opcode-table word of `p` takes: bytes of zeros (R73, log 27). -/
def tablePayload (i : Option Instr) : List Byte :=
  match i with
  | some (.page start stop) => List.replicate (rangeLength start stop) 0#8
  | _ => []

/-- The machine at rest with one command on the link: the session waits for a command, no line is begun, and the bytes
of the instruction are what it reads next (R245, log 27). -/
def placeWord (s : State) (nbits w : Nat) : State :=
  { s with
    session := .awaitingCommand
    line := []
    wait := none
    faultMark := false
    linkIn := tableLine nbits w ++ tablePayload (decodeTableWord nbits w) }

end Sys2Proof.Machine
end

