-- ==== Sys2Proof/Machine/Step.lean ====
section
/-! DEFINITION. One step of `Ctl`. -/

namespace Sys2Proof.Machine

/-- One step: a command read from the link is executed and ended by the session, or the session's own answer (R151). -/
def step (s : State) : Host.Outcome State Fault Refusal :=
  match fetch s with
  | .command i t => finish (exec i t)
  | .answered o => o

/-- The state with an opcode-table word placed where the next step reads its command. -/
def State.withFetchWord (s : State) (nbits w : Nat) : State := placeWord s nbits w

end Sys2Proof.Machine
end

