-- ==== Sys2Proof/Safety.lean ====
section
/-! DEFINITION. The terms claims use: the events a cycle record stands for, what a frame leaves unchanged, the
discipline of the bus at the pins, the memory of the target chip, and the machine's invariant. -/

namespace Sys2Proof.Machine

/-! ## Traces -/

/-- The bus events a record of the cycle trace stands for (R108), `readByte` in the order of the parameter (R102). -/
def cycleEvents (order : ReadOrder) : Cycle → List BusEvent
  | .rd a v => readOpening order a ++ [.delay .tOeValid, .sample v, .oe .deasserted]
  | .wr a v => [.dir .output, .data v, .addr a, .we .asserted, .delay .tWeLow, .we .deasserted, .dir .input]
  | .poll _ v => [.oe .asserted, .delay .tOeValid, .sample v, .oe .deasserted]
  | .addr a => [.addr a]
  | .delay t => [.delay t]

/-- The pin-level trace a cycle trace stands for (R108). -/
def expand (order : ReadOrder) (cycles : List Cycle) : List BusEvent := cycles.flatMap (cycleEvents order)

/-- A record is a write cycle. -/
def Cycle.isWrite : Cycle → Bool
  | .wr _ _ => true
  | .rd _ _ => false
  | .poll _ _ => false
  | .addr _ => false
  | .delay _ => false

/-- A record is a poll cycle. -/
def Cycle.isPoll : Cycle → Bool
  | .poll _ _ => true
  | .wr _ _ => false
  | .rd _ _ => false
  | .addr _ => false
  | .delay _ => false

/-- A record is an engine delay. -/
def Cycle.isDelay : Cycle → Bool
  | .delay _ => true
  | .poll _ _ => false
  | .wr _ _ => false
  | .rd _ _ => false
  | .addr _ => false

/-! ## The pins -/

/-- The control lines between bus operations: the block drives nothing, the chip is selected (R21, R22, R24). -/
def linesIdle (s : State) : Bool :=
  s.dir == .input && s.oe == .deasserted && s.we == .deasserted && s.ce == .asserted

/-- The data-bus direction after an event. -/
def dirAfter (d : Direction) : BusEvent → Direction
  | .dir d' => d'
  | .addr _ => d
  | .data _ => d
  | .ce _ => d
  | .oe _ => d
  | .we _ => d
  | .sample _ => d
  | .delay _ => d

/-- The level of output-enable after an event. -/
def oeAfter (x : Level) : BusEvent → Level
  | .oe x' => x'
  | .addr _ => x
  | .dir _ => x
  | .data _ => x
  | .ce _ => x
  | .we _ => x
  | .sample _ => x
  | .delay _ => x

/-- Before the first event, between any two and after the last one, the block does not drive the data lines while
output-enable is asserted (R23). -/
def busExclusive : Direction → Level → List BusEvent → Bool
  | d, x, [] => !(d == .output && x == .asserted)
  | d, x, e :: rest => !(d == .output && x == .asserted) && busExclusive (dirAfter d e) (oeAfter x e) rest

/-- Write-enable is asserted only while the block drives the data lines, and while it is asserted nothing happens but the
delay and its release, so address and data are stable over the pulse (R103, R106 (a)). -/
def pulseStable : Direction → Level → List BusEvent → Bool
  | _, x, [] => x == .deasserted
  | d, .asserted, .delay _ :: rest => pulseStable d .asserted rest
  | d, .asserted, .we .deasserted :: rest => pulseStable d .deasserted rest
  | _, .asserted, _ :: _ => false
  | d, .deasserted, .we x :: rest => (d == .output) && pulseStable d x rest
  | d, .deasserted, e :: rest => pulseStable (dirAfter d e) .deasserted rest

/-! ## Frames -/

/-- Nothing differs but what bus cycles change: the address, the data register, the chip, the count of free samples and
the two traces. The control lines are as before. -/
def busFrame (s t : State) : Prop :=
  t = { s with
        addr := t.addr
        dout := t.dout
        dev := t.dev
        draws := t.draws
        busTrace := t.busTrace
        cycleTrace := t.cycleTrace }

/-- Both traces grow by the same cycles, and nothing else differs but what bus cycles change. -/
def busCycles (cycles : List Cycle) (s t : State) : Prop :=
  busFrame s t ∧ t.cycleTrace = s.cycleTrace ++ cycles
    ∧ t.busTrace = s.busTrace ++ expand s.params.readOrder cycles

/-! ## The target chip -/

/-- The byte a test device stores at an address; the other chips hold none a claim may name (R66). -/
def storedByte (d : Dev) (a : Word) : Option Byte :=
  match d with
  | .oracle => none
  | .scripted _ => none
  | .test t => t.mem.read a.toNat

/-- The value of the last write cycle to an address in a cycle trace. -/
def lastWriteTo (a : Word) : List Cycle → Option Byte
  | [] => none
  | c :: rest =>
    match lastWriteTo a rest with
    | some v => some v
    | none =>
      match c with
      | .wr b v => if b = a then some v else none
      | .rd _ _ => none
      | .poll _ _ => none
      | .addr _ => none
      | .delay _ => none

/-- A chip that is a test device (R66). -/
def Dev.isTest : Dev → Bool
  | .test _ => true
  | .scripted _ => false
  | .oracle => false

/-- A chip whose memory, if the model holds one, is in canonical form. -/
def Dev.wf : Dev → Bool
  | .test t => t.mem.wf
  | .scripted _ => true
  | .oracle => true

/-- Bus activity: these cycles, nothing else changed but what bus cycles change, and a test device's memory changed at the
addresses of the write cycles and at no other. -/
def busRun (cycles : List Cycle) (s t : State) : Prop :=
  busCycles cycles s t
    ∧ (s.dev.isTest = true → s.dev.wf = true →
        ∀ a, storedByte t.dev a = (lastWriteTo a cycles).or (storedByte s.dev a))

/-! ## The invariant -/

/-- The page buffer's form: canonical, indices below the capacity, unwritten entries absent (R25, R140). -/
def bufferOk (m : Memory) : Bool := m.wf && m.unlisted == none && m.below pageCap

/-- The entries of the current payload received so far hold a value (R141). -/
def payloadHeld (s : State) : Bool := (bufferPrefix s.pageBuffer (min s.binIndex pageCap)).isSome

/-- A line being collected or parsed holds no terminator (R152). -/
def lineOk (s : State) : Bool := s.line.all fun c => c != charLF

/-- What holds in each session state at a wait point (R10, R150, R160): a line still short of `LINE_MAX`; a payload still
short of its length; a wait in the poll loop. -/
def sessionOk (s : State) : Bool :=
  match s.session with
  | .awaitingCommand => s.wait.isNone && decide (s.line.length < s.params.lineMax)
  | .awaitingBinary => s.wait.isNone && decide (s.binIndex < s.binCount) && payloadHeld s
  | .executing => s.wait.isSome || s.faultMark

/-- The invariant of the machine between steps. -/
structure Inv (s : State) : Prop where
  /-- The parameters are in their legal ranges (R270). -/
  params : paramsLegal s.params = true
  /-- The bus is in read direction with the chip selected (R21 to R24). -/
  lines : linesIdle s = true
  /-- `A` has `ADDR_WIDTH` bits (R20). -/
  addr : s.addr.toNat < 2 ^ s.params.addrWidth
  /-- The range registers are clamped (R14). -/
  range : s.startAddr.toNat ≤ s.endAddr.toNat
  /-- The payload counters (R16). -/
  counters : s.binIndex ≤ s.binCount ∧ s.binCount ≤ 2 ^ 32
  /-- The page buffer (R25). -/
  buffer : bufferOk s.pageBuffer = true
  /-- The chip's memory is canonical. -/
  chip : s.dev.wf = true
  /-- The line buffer (R12, R152). -/
  line : lineOk s = true ∧ s.line.length ≤ s.params.lineMax
  /-- The session state (R10). -/
  session : sessionOk s = true
  /-- The pin-level trace is what the cycle trace stands for (R108). -/
  traces : s.busTrace = expand s.params.readOrder s.cycleTrace

/-! ## Small vocabularies of claims -/

/-- The same state under another `POLL_LIMIT` (D24). -/
def withPollLimit (limit : Option Nat) (s : State) : State := { s with params := { s.params with pollLimit := limit } }

/-- Where `t` waits, the last cycle from `s` to `t` is a poll that missed the awaited byte, and the wait counts it: it is the
wait's first, or one more than the wait of `s` has made (R105). -/
def endsInMissedPoll (s t : State) : Prop :=
  ∀ w, t.wait = some w →
    (w.polls = 1 ∨ ∃ w0, s.wait = some w0 ∧ w = { w0 with polls := w0.polls + 1 })
      ∧ ∃ cycles a v, t.cycleTrace = s.cycleTrace ++ cycles ++ [.poll a v] ∧ v ≠ w.expect

/-- The write cycles of an unlock sequence on a bus of the given width (R123). -/
def writeCycles (addrWidth : Nat) (steps : List (Word × Byte)) : List Cycle :=
  steps.map fun step => .wr (busAddr addrWidth step.1) step.2

/-- The read cycles of a span (R180, R181). -/
def readCycles (addrWidth : Nat) (start : Word) (bytes : List Byte) : List Cycle :=
  bytes.zipIdx.map fun vi => .rd (busAddr addrWidth (spanAddr start vi.2)) vi.1

/-- The write cycles of a page load: byte `i` at `start + i` (R121, R43). -/
def loadCycles (addrWidth : Nat) (start : Word) (bytes : List Byte) : List Cycle :=
  bytes.zipIdx.map fun vi => .wr (busAddr addrWidth (spanAddr start vi.2)) vi.1

/-- The cycles of a Flash commit, the unlock writes spelt out (R122). -/
def flashCycles (addrWidth : Nat) (start : Word) (bytes : List Byte) : List Cycle :=
  bytes.zipIdx.flatMap fun vi =>
    [.wr 0x5555#32 0xAA#8, .wr 0x2AAA#32 0x55#8, .wr 0x5555#32 0xA0#8, .wr (busAddr addrWidth (spanAddr start vi.2)) vi.1,
      .delay .tFlashByte]

/-- The cycles of a fill under EEPROM on a chip that answers `busy` polls of each byte with bit 7 inverted and then the byte
written (R190, R121, R66). -/
def fillCycles (addrWidth busy : Nat) (start : Word) (v : Byte) (count : Nat) : List Cycle :=
  (List.range count).flatMap fun i =>
    .wr (busAddr addrWidth (spanAddr start i)) v
      :: List.replicate busy (.poll (busAddr addrWidth (spanAddr start i)) (v ^^^ 0x80#8))
      ++ [.poll (busAddr addrWidth (spanAddr start i)) v]

/-- The text of a dump row with its end of line (R182, R85). -/
def rowLine (p : Params) (base : Word) (row : List Byte) : List Byte :=
  hex8 base ++ [0x3A#8, 0x20#8, 0x20#8] ++ row.flatMap (fun b => hex2 b ++ [0x20#8]) ++ [0x20#8] ++ row.map (render p.printable)
    ++ p.eolOut

end Sys2Proof.Machine
end

