-- ==== Sys2Proof/Certificates/Slice0/Obligations.lean ====
section
/-! DEFINITION. The statements for the provers. "A chip that answers" below is a chip of `Machine.Dev`; nothing is stated
about the value of a free sample or of a free text. -/

open Sys2Proof Sys2Proof.Machine

/-! ## Encoding and decoding -/

/-- Decoding an encoded well-formed instruction gives it back, whatever follows it on the link (30_encoding.md sections 1
to 5; the bus sequences under log 26). -/
def Obligations.DecodeOfEncodeIsTheInstruction : Prop :=
  ∀ (p : Params) (i : Instr), paramsLegal p = true → i.wf = true →
    match encode p i with
    | .line bytes => ∀ rest : List Byte, decodeStream p.lineMax (bytes ++ rest) = .ok (i, rest)
    | .writes steps => decodeWrites p steps = .ok i

/-- Whatever the bytes, the decoder gives only well-formed instructions: the range is clamped (R77) and an unrecognised
opcode is none of the twelve (R81). -/
def Obligations.DecodedInstructionIsWellFormed : Prop :=
  ∀ (lineMax : Nat) (input rest : List Byte) (i : Instr),
    decodeStream lineMax input = .ok (i, rest) → i.wf = true

/-- Canonical lines of R83 and vectors V1, V2, V7 and V9, written out byte by byte, decode to the commands they stand for. -/
def Obligations.SpecLinesDecode : Prop :=
  decodeStream 32 [0x69, 0x0A] = .ok (.ident, [])
    ∧ decodeStream 32 [0x61, 0x20, 0x30, 0x30, 0x30, 0x31, 0x41, 0x42, 0x43, 0x44, 0x0A]
        = .ok (.setAddress 0x0001ABCD, [])
    ∧ decodeStream 32 [0x64, 0x20, 0x30, 0x30, 0x30, 0x30, 0x30, 0x30, 0x31, 0x30, 0x20, 0x30, 0x30, 0x30, 0x30, 0x30,
        0x30, 0x31, 0x46, 0x0A, 0x55] = .ok (.dump 0x10 0x1F, [0x55])
    ∧ decodeStream 32 [0x64, 0x20, 0x30, 0x30, 0x30, 0x30, 0x30, 0x30, 0x31, 0x46, 0x20, 0x30, 0x30, 0x30, 0x30, 0x30,
        0x30, 0x31, 0x30, 0x0A] = .ok (.dump 0x1F 0x1F, [])
    ∧ decodeStream 32 [0x64, 0x58, 0x30, 0x30, 0x30, 0x30, 0x30, 0x30, 0x30, 0x31, 0x59, 0x30, 0x30, 0x30, 0x30, 0x30,
        0x30, 0x30, 0x32, 0x0A] = .ok (.dump 1 2, [])
    ∧ decodeStream 32 [0x66, 0x20, 0x30, 0x30, 0x30, 0x30, 0x30, 0x30, 0x30, 0x31, 0x20, 0x30, 0x30, 0x30, 0x30, 0x30,
        0x30, 0x30, 0x31, 0x20, 0x34, 0x31, 0x0A] = .ok (.fill 1 1 0, [])
    ∧ decodeStream 32 [0x45, 0x0A] = .ok (.modeEeprom, [])
    ∧ decodeStream 32 [0x65, 0x0A] = .ok (.erase, [])

/-- The value of a hex digit in both cases, every other byte invalid (the ranges of `HexVal`, D8); and a hex field: 0 when
the line ends before its eighth character or one of them is no hex digit, and otherwise the sum of its digits times powers of
16, the first digit most significant (the formula of `HexField`; that a bad character makes the whole field 0 is D8). -/
def Obligations.HexFieldValue : Prop :=
  (∀ c : Byte,
    (0x30 ≤ c.toNat → c.toNat ≤ 0x39 → hexVal c = some (c.toNat - 0x30))
      ∧ (0x61 ≤ c.toNat → c.toNat ≤ 0x66 → hexVal c = some (c.toNat - 0x61 + 10))
      ∧ (0x41 ≤ c.toNat → c.toNat ≤ 0x46 → hexVal c = some (c.toNat - 0x41 + 10))
      ∧ (¬ (0x30 ≤ c.toNat ∧ c.toNat ≤ 0x39) → ¬ (0x61 ≤ c.toNat ∧ c.toNat ≤ 0x66) →
          ¬ (0x41 ≤ c.toNat ∧ c.toNat ≤ 0x46) → hexVal c = none))
    ∧ ∀ (line : List Byte) (o : Nat),
      (line.length < o + 8 → hexField line o = 0)
        ∧ (o + 8 ≤ line.length → (∃ c ∈ (line.drop o).take 8, hexVal c = none) → hexField line o = 0)
        ∧ (∀ d0 d1 d2 d3 d4 d5 d6 d7 : Nat,
            ((line.drop o).take 8).map hexVal
                = [some d0, some d1, some d2, some d3, some d4, some d5, some d6, some d7] →
              (hexField line o).toNat
                = d0 * 16 ^ 7 + d1 * 16 ^ 6 + d2 * 16 ^ 5 + d3 * 16 ^ 4 + d4 * 16 ^ 3 + d5 * 16 ^ 2 + d6 * 16 + d7)

/-- Two lines that agree in their first 28 characters, the separator positions 1, 10 and 19 apart, parse alike (D7). -/
def Obligations.ParserSkipsSeparatorsAndTail : Prop :=
  ∀ l m : List Byte, min l.length 28 = min m.length 28 →
    (∀ j, j < 28 → j ≠ 1 → j ≠ 10 → j ≠ 19 → l[j]? = m[j]?) → parseLine l = parseLine m

/-- An inverted range is raised to the start and has length 1, any other is kept; the length is an integer from 1 to 2^32
(the formula of 30_encoding.md section 2; that it does not wrap is D14). -/
def Obligations.RangeIsClamped : Prop :=
  ∀ line : List Byte,
    (parseLine line).startAddr = hexField line 2
      ∧ ((hexField line 11).toNat < (hexField line 2).toNat →
          (parseLine line).endAddr = (parseLine line).startAddr
            ∧ rangeLength (parseLine line).startAddr (parseLine line).endAddr = 1)
      ∧ ((hexField line 2).toNat ≤ (hexField line 11).toNat → (parseLine line).endAddr = hexField line 11)
      ∧ rangeLength (parseLine line).startAddr (parseLine line).endAddr
          + (parseLine line).startAddr.toNat = (parseLine line).endAddr.toNat + 1
      ∧ rangeLength (parseLine line).startAddr (parseLine line).endAddr ≤ 2 ^ 32

/-- R74: the opcode is the first character, matched on the exact byte, and none for the empty line; with it the map of the
twelve opcodes and the fallback for every other byte (30_encoding.md section 3). -/
def Obligations.OpcodeMapOnTheExactByte : Prop :=
  (∀ (b : Byte) (more : List Byte),
    let p := parseLine (b :: more)
    p.opcode = some b
      ∧ (b = 0x69 → instrOf p = .ident)
      ∧ (b = 0x76 → instrOf p = .version)
      ∧ (b = 0x61 → instrOf p = .setAddress p.startAddr)
      ∧ (b = 0x64 → instrOf p = .dump p.startAddr p.endAddr)
      ∧ (b = 0x66 → instrOf p = .fill p.startAddr p.endAddr p.fillField)
      ∧ (b = 0x72 → instrOf p = .read p.startAddr p.endAddr)
      ∧ (b = 0x70 → instrOf p = .page p.startAddr p.endAddr)
      ∧ (b = 0x6C → instrOf p = .lock)
      ∧ (b = 0x75 → instrOf p = .unlock)
      ∧ (b = 0x65 → instrOf p = .erase)
      ∧ (b = 0x45 → instrOf p = .modeEeprom)
      ∧ (b = 0x46 → instrOf p = .modeFlash)
      ∧ (b ∉ commandBytes → instrOf p = .unrecognised (some b)))
    ∧ (parseLine []).opcode = none ∧ instrOf (parseLine []) = .unrecognised none

/-! ## The session -/

/-- The line reader (43_protocol_session.md section 2): it stores every byte but 0x0A, stops at 0x0A, which it consumes and
does not store, and stops when the line has `LINE_MAX` characters. The model's division into steps (log 10): when the link is
empty before that, the step has stored what there was and changed nothing else; and a line begins empty, since a step that
leaves the session in `AwaitingCommand` leaves an empty line or one it is still reading. -/
def Obligations.LineReaderCollectsALine : Prop :=
  (∀ (n : Nat) (line bytes rest : List Byte), charLF ∉ bytes → line.length + bytes.length < n →
      readLine n line (bytes ++ charLF :: rest) = .complete (line ++ bytes) rest)
    ∧ (∀ (n : Nat) (line bytes rest : List Byte), charLF ∉ bytes → bytes ≠ [] → line.length + bytes.length = n →
      readLine n line (bytes ++ rest) = .complete (line ++ bytes) rest)
    ∧ (∀ s : State, s.session = .awaitingCommand → s.faultMark = false → charLF ∉ s.linkIn →
      s.line.length + s.linkIn.length < s.params.lineMax →
      step s = .next { s with line := s.line ++ s.linkIn, linkIn := [] })
    ∧ (∀ s t : State, step s = .next t → t.session = .awaitingCommand →
      t.line = [] ∨ s.session = .awaitingCommand ∧ readLine s.params.lineMax s.line s.linkIn = .incomplete t.line)

/-- When the bytes of the link complete a line, begun in this step or in an earlier one, the step writes the parser's
registers, runs `exec` of the command the line decodes to with the rest of the link unread, and ends it as the session does
(43_protocol_session.md section 1). That command is what the decoder reads from the line's beginning and the link; a line begun
earlier is short of `LINE_MAX` and holds no terminator, as the invariant has it. -/
def Obligations.StepRunsTheDecodedCommand : Prop :=
  ∀ s : State, s.session = .awaitingCommand → s.faultMark = false →
    (∀ line rest, readLine s.params.lineMax s.line s.linkIn = .complete line rest →
      step s = finish (exec (instrOf (parseLine line))
        { s with
          line := line
          linkIn := rest
          opcode := (parseLine line).opcode
          startAddr := (parseLine line).startAddr
          endAddr := (parseLine line).endAddr
          fillField := (parseLine line).fillField
          session := .executing }))
      ∧ (s.line = [] ∨ lineOk s = true ∧ s.line.length < s.params.lineMax →
        ∀ i rest, decodeStream s.params.lineMax (s.line ++ s.linkIn) = .ok (i, rest) →
          ∃ line, readLine s.params.lineMax s.line s.linkIn = .complete line rest ∧ i = instrOf (parseLine line))

/-- What the session adds to a command's answer: the ready line and the return to an empty line when the effect is
finished; nothing while the command waits for payload or for the chip (43_protocol_session.md section 4; that unrecognised
lines get the marker too is D17). That nothing follows `faultMark`, which D21 leaves open, is the model's choice (log 13). -/
def Obligations.SessionEndsACommandWithReady : Prop :=
  ∀ t : State,
    (t.faultMark = false → t.session = .executing → t.wait = none →
        finish (.next t) = .next { t with
          linkOut := t.linkOut ++ t.params.readyString ++ t.params.eolOut
          session := .awaitingCommand
          line := [] })
      ∧ (t.faultMark = true ∨ t.session ≠ .executing ∨ t.wait ≠ none → finish (.next t) = .next t)

/-- An unrecognised line, whatever stands after its first byte, and the empty line: the step consumes the line, the parser
writes its registers, the ready line is emitted, and nothing else changes (47_cmd_device_control.md; that such a line gets the
ready marker is D17). -/
def Obligations.UnrecognisedLineIsIgnored : Prop :=
  ∀ (s : State) (line rest : List Byte),
    s.session = .awaitingCommand → s.faultMark = false → s.wait = none →
    readLine s.params.lineMax s.line s.linkIn = .complete line rest →
    (∀ b more, line = b :: more → b ∉ commandBytes) →
    step s = .next { s with
      line := []
      linkIn := rest
      opcode := (parseLine line).opcode
      startAddr := (parseLine line).startAddr
      endAddr := (parseLine line).endAddr
      fillField := (parseLine line).fillField
      linkOut := s.linkOut ++ s.params.readyString ++ s.params.eolOut }

/-- A stuck state (R229): while `linkIn` is empty a step changes nothing, in `AwaitingCommand` and in `AwaitingBinary`
(that the model's step answers the same state is log 10). -/
def Obligations.StuckStepChangesNothing : Prop :=
  ∀ s : State, s.stuck = true → (s.session = .awaitingBinary → s.binIndex < s.binCount) → step s = .next s

/-- R141: the bytes at hand, as many as are still wanted, land in the buffer in order from `binIndex` on; every other entry
keeps its byte, the surplus stays on the link, and nothing else changes: no bus event, no output. -/
def Obligations.PayloadIsCollectedInOrder : Prop :=
  ∀ s : State, s.pageBuffer.unlisted = none → s.binIndex ≤ s.binCount → s.binCount ≤ 4096 →
    let n := min s.linkIn.length (s.binCount - s.binIndex)
    let t := collectBinary s
    (∀ i, i < n → t.pageBuffer.read (s.binIndex + i) = s.linkIn[i]?)
      ∧ (∀ j, j < s.binIndex ∨ s.binIndex + n ≤ j → t.pageBuffer.read j = s.pageBuffer.read j)
      ∧ t = { s with pageBuffer := t.pageBuffer, binIndex := s.binIndex + n, linkIn := s.linkIn.drop n }

/-- Payload starvation (R233, its first sentence): with fewer bytes than are wanted the step takes them all and stays in
`AwaitingBinary`; no bus cycle is performed and nothing is emitted. The bytes stand in the page buffer from `binIndex` on, those
below its capacity, and every other entry reads as before (R141; that a byte beyond the capacity is taken and dropped is
`truncate`, D21, log 33). -/
def Obligations.StarvedPageWriteStaysWaiting : Prop :=
  ∀ s : State, s.session = .awaitingBinary → s.faultMark = false →
    s.linkIn.length < s.binCount - s.binIndex →
    ∃ t, step s = .next t ∧ t.session = .awaitingBinary ∧ t.binIndex = s.binIndex + s.linkIn.length
      ∧ t.binIndex < t.binCount ∧ t.linkIn = []
      ∧ t = { s with pageBuffer := t.pageBuffer, binIndex := t.binIndex, linkIn := [] }
      ∧ (s.pageBuffer.unlisted = none →
          (∀ i, i < s.linkIn.length → s.binIndex + i < 4096 → t.pageBuffer.read (s.binIndex + i) = s.linkIn[i]?)
            ∧ ∀ j, j < s.binIndex ∨ s.binIndex + s.linkIn.length ≤ j ∨ 4096 ≤ j →
                t.pageBuffer.read j = s.pageBuffer.read j)

/-- Binary mode is entered by the command `p` alone (43_protocol_session.md sections 1 and 3). A step that starts in
`Executing` ends there, still in the poll loop, or in `AwaitingCommand`: that is the model's division of a run into steps, in
which `Executing` between steps is the poll loop (log 10, 11), and no transition of the session is missing. -/
def Obligations.BinaryModeOnlyAfterPage : Prop :=
  ∀ s t : State, step s = .next t →
    (t.session = .awaitingBinary →
        s.session = .awaitingBinary
          ∨ ∃ line rest start stop, s.session = .awaitingCommand
              ∧ readLine s.params.lineMax s.line s.linkIn = .complete line rest
              ∧ instrOf (parseLine line) = .page start stop)
      ∧ (s.session = .executing → t.session = .executing ∧ t.wait ≠ none ∨ t.session = .awaitingCommand)

/-! ## Reset -/

/-- The state after reset (10_state.md section 7; every value but `strategy` is the spec's choice D25, D5, D17, D21). -/
def Obligations.ResetState : Prop :=
  let s := State.reset
  s.strategy = .eeprom ∧ s.session = .awaitingCommand ∧ s.lineLen = 0 ∧ s.dir = .input ∧ s.ce = .asserted
    ∧ s.oe = .deasserted ∧ s.we = .deasserted ∧ s.busState = .idle ∧ s.linkIn = [] ∧ s.linkOut = s.params.bootBanner
    ∧ s.params.bootBanner = [] ∧ s.faultMark = false ∧ s.atRest = true ∧ ∀ i, s.pageBuffer.read i = none

/-- The reset event from any state: the block is as after reset under the same parameters, whatever it was doing, and the
target chip is not touched (70_reset_and_hazards.md section 1, D25; that it clears `faultMark` too is the model's choice,
log 35). A reset inside a command leaves the block the same; of a test device it leaves unspecified the bytes in the span of an
abandoned `p` or `f` under EEPROM, all of them for `e`, `l`, `u` and a Flash commit, and none for a command that writes nothing;
every other byte is kept (U13; the division into abandoned commands and the fixture are log 36 and D35). -/
def Obligations.ResetEventFromAnyState : Prop :=
  (∀ s : State,
    let t := resetEvent s
    t.strategy = .eeprom ∧ t.session = .awaitingCommand ∧ t.line = [] ∧ t.linkIn = []
      ∧ t.linkOut = s.params.bootBanner ∧ t.params = s.params ∧ t.dev = s.dev ∧ t.faultMark = false ∧ t.wait = none
      ∧ t.atRest = true ∧ step t = .next t)
    ∧ (∀ (remains : ChipRemains) (s : State),
      resetDuring remains s = { resetEvent s with dev := (resetDuring remains s).dev }
        ∧ (abandoned s = none → resetDuring remains s = resetEvent s))
    ∧ ∀ (remains : ChipRemains) (s : State) (d : TestDevice) (i : Instr),
      s.dev = .test d → d.mem.wf = true → abandoned s = some i →
      let t := resetDuring remains s
      t.dev.isTest = true ∧ t.dev.wf = true
        ∧ (i = .ident ∨ i = .version ∨ (∃ a, i = .setAddress a) ∨ (∃ a b, i = .dump a b) ∨ (∃ a b, i = .read a b)
            ∨ i = .modeEeprom ∨ i = .modeFlash ∨ (∃ o, i = .unrecognised o) → t.dev = s.dev)
        ∧ (∀ start stop, s.strategy = .eeprom → (i = .page start stop ∨ ∃ value, i = .fill start stop value) →
            (∀ a, (∀ k, k < rangeLength start stop → busAddr s.params.addrWidth (spanAddr start k) ≠ a) →
              storedByte t.dev a = storedByte s.dev a)
              ∧ ∀ k v, k < rangeLength start stop →
                remains.cells = [((busAddr s.params.addrWidth (spanAddr start k)).toNat, v)] →
                storedByte t.dev (busAddr s.params.addrWidth (spanAddr start k)) = some v)
        ∧ (i = .erase ∨ i = .lock ∨ i = .unlock
            ∨ s.strategy = .flash ∧ ((∃ a b, i = .page a b) ∨ ∃ a b c, i = .fill a b c) →
            ∀ (a : Word) v, a.toNat < 2 ^ s.params.addrWidth → remains.cells = [(a.toNat, v)] →
              storedByte t.dev a = some v)

/-! ## The invariant -/

/-- The state after reset meets the invariant. -/
def Obligations.InvariantHoldsAtReset : Prop := Inv State.reset

/-- Every step keeps the invariant: the bus idle between steps with the chip selected, `A` within its lines, the range
registers clamped, the payload counters ordered, both memories canonical, the line short of `LINE_MAX` and without a
terminator, the session state consistent, the pin-level trace the expansion of the cycle trace. -/
def Obligations.StepKeepsTheInvariant : Prop :=
  ∀ s t : State, Inv s → step s = .next t → Inv t

/-- A state with `faultMark` set has no specified behaviour, and its step answers the fault of that name (D21, log 13). From
any other state that meets the invariant a step answers a next state or `hang` (D24, log 12): no entry of the page buffer is
found absent, and nothing is refused. It answers `hang` only where some `n` is the limit and the step, with no limit, ends in a
wait that has made `n` polls and whose last poll, the step's last cycle, missed the awaited byte. In a wait whose poll does not
return the awaited byte a finite limit is used up exactly when this poll reaches it; and a poll that returns it ends the wait
of the last commit under any limit. -/
def Obligations.OnlyMarkedStatesFault : Prop :=
  (∀ s : State, s.faultMark = true → step s = .fault .pageOverflow)
    ∧ (∀ s : State, Inv s → s.faultMark = false →
      (∃ t, step s = .next t)
        ∨ ∃ n t w, s.params.pollLimit = some n ∧ step s = .fault .hang
            ∧ step (withPollLimit none s) = .next t ∧ t.wait = some w ∧ n ≤ w.polls ∧ endsInMissedPoll s t)
    ∧ (∀ (s : State) (w : PollWait) (n : Nat), s.faultMark = false → s.session = .executing → s.wait = some w →
      s.params.pollLimit = some n → (pollCycle s).1 ≠ w.expect →
      (n ≤ w.polls + 1 → step s = .fault .hang)
        ∧ (w.polls + 1 < n → ∃ t, step s = .next t ∧ t.wait = some { w with polls := w.polls + 1 }))
    ∧ ∀ (s : State) (w : PollWait), s.faultMark = false → s.session = .executing → s.wait = some w → w.left = 0 →
      (pollCycle s).1 = w.expect → ∃ t, step s = .next t ∧ t.wait = none ∧ t.session = .awaitingCommand

/-- Bytes leave `linkIn` from its front and `linkOut` only grows (10_state.md section 6, 20_memory.md section 5); and no step
changes the parameters, which are arguments of the machine (00_scope.md section 5) and a field of State by the model's choice
(log 1). -/
def Obligations.LinksAreFirstInFirstOut : Prop :=
  ∀ s t : State, step s = .next t →
    t.params = s.params ∧ (∃ used, s.linkIn = used ++ t.linkIn) ∧ ∃ out, t.linkOut = s.linkOut ++ out

/-! ## The bus -/

/-- R23: over every event of a step, before, between and after, the block never drives the data lines while output-enable
is asserted, and between steps the lines are idle again. -/
def Obligations.BusNeverDrivenFromBothSides : Prop :=
  ∀ s t : State, linesIdle s = true → step s = .next t →
    ∃ events, t.busTrace = s.busTrace ++ events ∧ busExclusive s.dir s.oe events = true ∧ linesIdle t = true

/-- Over every event of a step write-enable is asserted only while the block drives the data lines, and during the pulse
neither address, data, direction nor another control line changes (40_bus_driver.md sections 2 and 3). -/
def Obligations.WritePulseIsStable : Prop :=
  ∀ s t : State, linesIdle s = true → step s = .next t →
    ∃ events, t.busTrace = s.busTrace ++ events ∧ pulseStable s.dir s.we events = true

/-- `readByte`: one read cycle at the truncated address, the events of 40_bus_driver.md in their literal order where the
parameter says so, the direction and write-enable untouched, and from a test device that holds the byte that byte, the
device unchanged. -/
def Obligations.ReadByteIsOneReadCycle : Prop :=
  ∀ (s : State) (a : Word), linesIdle s = true →
    ∃ v t, readByte a s = (v, t) ∧ busFrame s t
      ∧ t.addr = BitVec.ofNat 32 (a.toNat % 2 ^ s.params.addrWidth)
      ∧ t.cycleTrace = s.cycleTrace ++ [.rd t.addr v]
      ∧ (s.params.readOrder = .oeCeAddr → t.busTrace = s.busTrace
          ++ [.oe .asserted, .ce .asserted, .addr t.addr, .delay .tOeValid, .sample v, .oe .deasserted])
      ∧ (∀ d b, s.dev = .test d → d.mem.read t.addr.toNat = some b → v = b ∧ t.dev = s.dev)

/-- `writeByte`: the seven events of 40_bus_driver.md in order, one write cycle, and the selected chip latches the byte at
the truncated address; a test device's memory changes there and nowhere else. -/
def Obligations.WriteByteIsOneWriteCycle : Prop :=
  ∀ (s : State) (a : Word) (v : Byte), linesIdle s = true →
    let t := writeByte a v s
    busFrame s t ∧ t.addr = BitVec.ofNat 32 (a.toNat % 2 ^ s.params.addrWidth)
      ∧ t.cycleTrace = s.cycleTrace ++ [.wr t.addr v]
      ∧ t.busTrace = s.busTrace ++ [.dir .output, .data v, .addr t.addr, .we .asserted, .delay .tWeLow, .we .deasserted,
          .dir .input]
      ∧ (s.dev.isTest = true → s.dev.wf = true →
          ∀ b, storedByte t.dev b = if t.addr = b then some v else storedByte s.dev b)

/-- `pollCycle`: the four events in order at the address already driven, no address event; only output-enable moves. -/
def Obligations.PollCycleKeepsTheAddress : Prop :=
  ∀ s : State, linesIdle s = true →
    ∃ v t, pollCycle s = (v, t) ∧ busFrame s t ∧ t.addr = s.addr
      ∧ t.cycleTrace = s.cycleTrace ++ [.poll s.addr v]
      ∧ t.busTrace = s.busTrace ++ [.oe .asserted, .delay .tOeValid, .sample v, .oe .deasserted]
      ∧ (∀ x rest, s.dev = .scripted (x :: rest) → v = x ∧ t.dev = .scripted rest)

/-- The wait ends at the first poll that returns the awaited byte and not before: with a chip that answers `misses`, none
of them the byte, and then the byte, the session makes one poll per step, all at the same address, and then emits the ready
line (40_bus_driver.md section 2, `waitWriteComplete`; one poll per step is log 11). -/
def Obligations.WaitEndsAtTheFirstMatch : Prop :=
  ∀ (s : State) (w : PollWait) (misses more : List Byte),
    linesIdle s = true → s.session = .executing → s.faultMark = false → s.wait = some w → w.left = 0 →
    s.params.pollLimit = none → s.dev = .scripted (misses ++ w.expect :: more) → w.expect ∉ misses →
    ∃ t, Host.Core.run core (misses.length + 1) s = .next t
      ∧ t.cycleTrace = s.cycleTrace ++ misses.map (.poll s.addr ·) ++ [.poll s.addr w.expect]
      ∧ t.wait = none ∧ t.session = .awaitingCommand
      ∧ t.linkOut = s.linkOut ++ s.params.readyString ++ s.params.eolOut
      ∧ t.dev = .scripted more ∧ t.linkIn = s.linkIn ∧ t.strategy = s.strategy

/-- Poll hang: as long as the chip answers other bytes the block stays in the wait, step after step; `linkIn` is not read,
nothing is emitted, no register changes, the bus is `Polling` and carries poll cycles only, and nothing is counted but the polls
(60_exceptions.md section 7, 10_state.md section 4; the unbounded wait is D24, one poll per step log 11). -/
def Obligations.UnansweredPollHangs : Prop :=
  ∀ (s : State) (w : PollWait) (misses : List Byte),
    linesIdle s = true → s.session = .executing → s.faultMark = false → s.wait = some w →
    s.params.pollLimit = none → s.dev = .scripted misses → w.expect ∉ misses →
    ∀ k, k ≤ misses.length →
      ∃ t, Host.Core.run core k s = .next t ∧ t.session = .executing ∧ t.busState = .polling
        ∧ t.wait = some { w with polls := w.polls + k } ∧ t.dev = .scripted (misses.drop k)
        ∧ t.linkIn = s.linkIn ∧ t.linkOut = s.linkOut ∧ t.addr = s.addr ∧ t.dout = s.dout ∧ t.draws = s.draws
        ∧ busRun ((misses.take k).map (.poll s.addr ·)) { s with wait := t.wait } t

/-! ## Commands that move no data -/

/-- R170 and R171: `i` and `v` emit their line and write `linkOut` only; the bus state is unchanged. Characters after the
opcode change nothing. -/
def Obligations.IdentAndVersionEmitTheirLine : Prop :=
  ∀ s : State,
    exec .ident s = .next { s with linkOut := s.linkOut ++ (s.params.idString ++ s.params.eolOut) }
      ∧ exec .version s = .next { s with linkOut := s.linkOut ++ (s.params.versionString ++ s.params.eolOut) }
      ∧ ∀ more : List Byte,
          instrOf (parseLine (0x69 :: more)) = .ident ∧ instrOf (parseLine (0x76 :: more)) = .version

/-- `a`: the one event `ADDR` with the low `ADDR_WIDTH` bits of the operand; nothing else changes
(44_cmd_info_diag.md; that it moves no control line is D27). -/
def Obligations.SetAddressDrivesTheLowBits : Prop :=
  ∀ (s : State) (start : Word),
    let a : Word := BitVec.ofNat 32 (start.toNat % 2 ^ s.params.addrWidth)
    exec (.setAddress start) s = .next { s with
        addr := a
        busTrace := s.busTrace ++ [.addr a]
        cycleTrace := s.cycleTrace ++ [.addr a] }

/-- `E` and `F` write `strategy` and nothing else, and an unrecognised line, whatever its first byte, has no effect of its
own (47_cmd_device_control.md; that the mode commands make no bus cycle is D33, the fallback D17). -/
def Obligations.ModeCommandsAndIgnoredLines : Prop :=
  ∀ (s : State) (opcode : Option Byte),
    exec .modeEeprom s = .next { s with strategy := .eeprom }
      ∧ exec .modeFlash s = .next { s with strategy := .flash }
      ∧ exec (.unrecognised opcode) s = .next s

/-- `e`, the line whose opcode byte is 0x65, sends the six-step sequence and then the settling delay, under either strategy,
with no poll, no read and no output (41_programming_engine.md section 2, 47_cmd_device_control.md). What a test device stores
of the six writes is the fixture's (D35, log 9). -/
def Obligations.EraseSendsTheSixSteps : Prop :=
  ∀ s : State, linesIdle s = true → 16 ≤ s.params.addrWidth →
    ∃ t, exec .erase s = .next t
      ∧ busRun [.wr 0x5555 0xAA, .wr 0x2AAA 0x55, .wr 0x5555 0x80, .wr 0x5555 0xAA, .wr 0x2AAA 0x55, .wr 0x5555 0x10,
          .delay .tErase] s t
      ∧ t.addr = 0x5555
      ∧ ∀ more : List Byte, instrOf (parseLine (0x65 :: more)) = .erase

/-- `l` and `u` send the sequence of their parameter and then the settle delay, under either strategy; the block keeps no
record of it (41_programming_engine.md section 2, 47_cmd_device_control.md; the sequences are D22). -/
def Obligations.ProtectionCommandsSendTheirSequence : Prop :=
  ∀ s : State, linesIdle s = true →
    (∃ t, exec .lock s = .next t
        ∧ busRun (s.params.swpEnableSeq.map (fun x => .wr (busAddr s.params.addrWidth x.1) x.2) ++ [.delay .tSwp]) s t)
      ∧ ∃ t, exec .unlock s = .next t
        ∧ busRun (s.params.swpDisableSeq.map (fun x => .wr (busAddr s.params.addrWidth x.1) x.2) ++ [.delay .tSwp]) s t

/-- The four bus sequences of the opcode table as instructions: their writes in order and their delay
(41_programming_engine.md section 2, log 26). -/
def Obligations.BusSequencesPerformTheirSteps : Prop :=
  ∀ s : State, linesIdle s = true → 16 ≤ s.params.addrWidth →
    (∀ target value, ∃ t, exec (.seqFlashByteProgram target value) s = .next t
        ∧ busRun [.wr 0x5555 0xAA, .wr 0x2AAA 0x55, .wr 0x5555 0xA0, .wr (busAddr s.params.addrWidth target) value,
            .delay .tFlashByte] s t)
      ∧ (∃ t, exec .seqChipErase s = .next t
        ∧ busRun [.wr 0x5555 0xAA, .wr 0x2AAA 0x55, .wr 0x5555 0x80, .wr 0x5555 0xAA, .wr 0x2AAA 0x55, .wr 0x5555 0x10,
            .delay .tErase] s t)
      ∧ (∃ t, exec .seqSwpEnable s = .next t
        ∧ busRun (s.params.swpEnableSeq.map (fun x => .wr (busAddr s.params.addrWidth x.1) x.2) ++ [.delay .tSwp]) s t)
      ∧ ∃ t, exec .seqSwpDisable s = .next t
        ∧ busRun (s.params.swpDisableSeq.map (fun x => .wr (busAddr s.params.addrWidth x.1) x.2) ++ [.delay .tSwp]) s t

/-! ## Commands that read -/

/-- `d`: `ceil(length / 16)` rows; row `k` reads its bytes at ascending addresses from `start + 16 k`, each once, 16 of
them or, under `short_row`, what is left in the last row; and its line shows them. Nothing but the bus, the chip's answers
and `linkOut` changes, and a test device's memory does not (45_cmd_read.md, D18, D32). -/
def Obligations.DumpEmitsOneLinePerRow : Prop :=
  ∀ (s : State) (start stop : Word), linesIdle s = true →
    ∃ (rows : List (List Byte)) (t : State), exec (.dump start stop) s = .next t
      ∧ rows.length = (rangeLength start stop + 15) / 16
      ∧ (∀ k row, rows[k]? = some row →
          row.length = if s.params.dumpTail = .shortRow ∧ k + 1 = rows.length then rangeLength start stop - 16 * k else 16)
      ∧ t.linkOut = s.linkOut ++ rows.zipIdx.flatMap (fun rk => rowLine s.params (spanAddr start (16 * rk.2)) rk.1)
      ∧ busRun (rows.zipIdx.flatMap fun rk => readCycles s.params.addrWidth (spanAddr start (16 * rk.2)) rk.1)
          { s with linkOut := t.linkOut } t
      ∧ ∀ a, storedByte t.dev a = storedByte s.dev a

/-- `r`: exactly `length` bytes, each the byte sampled at `start + i`, no framing; on a test device that holds them, its
bytes (45_cmd_read.md, D32; the device is R66's, D35). -/
def Obligations.ReadStreamsTheSampledBytes : Prop :=
  ∀ (s : State) (start stop : Word), linesIdle s = true →
    ∃ (bytes : List Byte) (t : State), exec (.read start stop) s = .next t
      ∧ bytes.length = rangeLength start stop
      ∧ t.linkOut = s.linkOut ++ bytes
      ∧ busRun (readCycles s.params.addrWidth start bytes) { s with linkOut := t.linkOut } t
      ∧ (∀ a, storedByte t.dev a = storedByte s.dev a)
      ∧ (∀ d, s.dev = .test d → ∀ i v b, bytes[i]? = some v →
          d.mem.read (busAddr s.params.addrWidth (spanAddr start i)).toNat = some b → v = b)

/-- What a dump row shows: `hex2` of a byte is its two hex digits and `hex8` of a base its eight, the most significant first and
the letters lower case; under the default set a byte from 0x20 to 0x7E is rendered as itself and every other one as 0x2E; and
the text has `12 + 4 n` characters, none of them a line feed, whatever the bytes are (45_cmd_read.md, 00_scope.md section 6,
C1, D19). -/
def Obligations.RowTextShape : Prop :=
  State.reset.params.printable = [(0x20, 0x7E)]
    ∧ (∀ b : Byte, ∃ hi lo, hex2 b = [hi, lo]
        ∧ hexVal hi = some (b.toNat / 16) ∧ hexVal lo = some (b.toNat % 16))
    ∧ (∀ w : Word, (hex8 w).length = 8
        ∧ ∀ i c, (hex8 w)[i]? = some c → hexVal c = some (w.toNat / 16 ^ (7 - i) % 16))
    ∧ (∀ (b : Byte) (w : Word) c, c ∈ hex2 b ∨ c ∈ hex8 w → ¬ (0x41 ≤ c.toNat ∧ c.toNat ≤ 0x46))
    ∧ (∀ b : Byte, (0x20 ≤ b.toNat → b.toNat ≤ 0x7E → render [(0x20, 0x7E)] b = b)
        ∧ (b.toNat < 0x20 ∨ 0x7E < b.toNat → render [(0x20, 0x7E)] b = 0x2E))
    ∧ ∀ (base : Word) (row : List Byte),
      (rowText [(0x20, 0x7E)] base row).length = 12 + 4 * row.length
        ∧ charLF ∉ rowText [(0x20, 0x7E)] base row

/-! ## The programming engine -/

/-- A Flash commit performs, for every byte in order, the three unlock writes, the data write at its target address and the
settle delay, and nothing else (41_programming_engine.md section 1). That a test device's memory changes at the addresses
written only is the fixture's (D35, log 9). -/
def Obligations.FlashCommitUnlocksEveryByte : Prop :=
  ∀ (s : State) (start : Word) (bytes : List Byte) (left : Nat),
    linesIdle s = true → 16 ≤ s.params.addrWidth → s.strategy = .flash →
    busRun (bytes.zipIdx.flatMap fun vi =>
        [.wr 0x5555 0xAA, .wr 0x2AAA 0x55, .wr 0x5555 0xA0, .wr (busAddr s.params.addrWidth (spanAddr start vi.2)) vi.1,
          .delay .tFlashByte]) s (commit start bytes left s)
      ∧ (s.dev.isTest = true → s.dev.wf = true → ∀ a, a ≠ 0x5555 → a ≠ 0x2AAA →
          (∀ i, i < bytes.length → busAddr s.params.addrWidth (spanAddr start i) ≠ a) →
          storedByte (commit start bytes left s).dev a = storedByte s.dev a)

/-- An EEPROM commit writes the bytes at ascending addresses, nothing between them, and then makes the first poll of one
wait, at the address of the last byte; the wait is over when the chip answers that byte, and otherwise goes on
(41_programming_engine.md section 1, D29; one poll per step is log 11). -/
def Obligations.EepromCommitLoadsThenPolls : Prop :=
  ∀ (s : State) (start : Word) (bytes : List Byte) (last : Byte) (left : Nat),
    linesIdle s = true → s.strategy = .eeprom → bytes.getLast? = some last →
    ∃ v, let t := commit start bytes left s
      busRun (loadCycles s.params.addrWidth start bytes
          ++ [.poll (busAddr s.params.addrWidth (spanAddr start (bytes.length - 1))) v]) { s with wait := t.wait } t
        ∧ (t.wait = none ↔ v = last)
        ∧ (v ≠ last → ∃ w, t.wait = some w ∧ w.expect = last ∧ w.left = left
            ∧ w.next = spanAddr start bytes.length)

/-- The counts of a commit of `n` bytes: under FLASH `4 n` writes, `n` delays and no poll; under EEPROM `n` writes, no
delay, and the first poll of one wait (the counting rule of 41_programming_engine.md section 3). -/
def Obligations.CommitCounts : Prop :=
  ∀ (s : State) (start : Word) (bytes : List Byte) (left : Nat),
    linesIdle s = true → 16 ≤ s.params.addrWidth → bytes ≠ [] →
    ∃ cycles, (commit start bytes left s).cycleTrace = s.cycleTrace ++ cycles
      ∧ (s.strategy = .flash → cycles.countP Cycle.isWrite = 4 * bytes.length
          ∧ cycles.countP Cycle.isDelay = bytes.length ∧ cycles.countP Cycle.isPoll = 0)
      ∧ (s.strategy = .eeprom → cycles.countP Cycle.isWrite = bytes.length
          ∧ cycles.countP Cycle.isDelay = 0 ∧ cycles.countP Cycle.isPoll = 1)

/-! ## Commands that write -/

/-- `f` under FLASH completes: one Flash byte program per address, ascending, with the low byte of the third field; the
page buffer, the link and the registers are as before (46_cmd_write.md; one commit per address is D20). -/
def Obligations.FlashFillProgramsEveryAddress : Prop :=
  ∀ (s : State) (start stop value : Word),
    linesIdle s = true → 16 ≤ s.params.addrWidth → s.strategy = .flash → s.wait = none →
    ∃ t, exec (.fill start stop value) s = .next t
      ∧ busRun (flashCycles s.params.addrWidth start
          (List.replicate (rangeLength start stop) (BitVec.ofNat 8 (value.toNat % 256)))) s t

/-- `f` under EEPROM on a test device whose polls answer at once completes: per address one write and one poll, ascending;
the device holds the fill byte at the addresses of the range and its old bytes elsewhere (46_cmd_write.md, D20; the device
is R66's, D35). -/
def Obligations.EepromFillWritesAndPollsEveryAddress : Prop :=
  ∀ (s : State) (start stop value : Word) (d : TestDevice),
    linesIdle s = true → s.strategy = .eeprom → s.wait = none → s.dev = .test d → d.polls = 0 → d.mem.wf = true →
    let v : Byte := BitVec.ofNat 8 (value.toNat % 256)
    ∃ t, exec (.fill start stop value) s = .next t
      ∧ busRun (fillCycles s.params.addrWidth 0 start v (rangeLength start stop)) s t
      ∧ (∀ i, i < rangeLength start stop →
          storedByte t.dev (busAddr s.params.addrWidth (spanAddr start i)) = some v)
      ∧ (∀ a, (∀ i, i < rangeLength start stop → busAddr s.params.addrWidth (spanAddr start i) ≠ a) →
          storedByte t.dev a = storedByte s.dev a)

/-- `f` under EEPROM on a chip whose first poll answers another byte: the first byte is written, and the command waits with
the rest of the range still to do; a finite `POLL_LIMIT` of one poll is then used up (46_cmd_write.md, 40_bus_driver.md
section 2, D24, log 11, 12). -/
def Obligations.EepromFillWaitsForTheChip : Prop :=
  ∀ (s : State) (start stop value : Word) (x : Byte) (more : List Byte),
    linesIdle s = true → s.strategy = .eeprom → s.dev = .scripted (x :: more) →
    x ≠ BitVec.ofNat 8 (value.toNat % 256) →
    ((∀ n, s.params.pollLimit = some n → 1 < n) →
      ∃ t, exec (.fill start stop value) s = .next t
        ∧ t.wait = some { expect := BitVec.ofNat 8 (value.toNat % 256), polls := 1, next := start + 1,
                          left := rangeLength start stop - 1 }
        ∧ busRun [.wr (busAddr s.params.addrWidth start) (BitVec.ofNat 8 (value.toNat % 256)),
            .poll (busAddr s.params.addrWidth start) x] { s with wait := t.wait } t
        ∧ t.dev = .scripted more)
      ∧ (∀ n, s.params.pollLimit = some n → n ≤ 1 → exec (.fill start stop value) s = .fault .hang)

/-- A fill that waits goes on when the chip answers. On `TDk` the wait ends after the polls the device still answers
wrongly; each remaining address takes one write, `k` polls that miss and one that matches, at that address; and then the ready
line is emitted, once. One step makes one poll, the first poll of the next address standing in the step that ends a wait
(46_cmd_write.md, log 11; the devices are R66's, D35). A finite `POLL_LIMIT` is assumed to leave room for the misses of each
wait. -/
def Obligations.FillGoesOnAfterTheWait : Prop :=
  ∀ (s : State) (w : PollWait) (d : TestDevice),
    linesIdle s = true → s.session = .executing → s.faultMark = false → s.strategy = .eeprom → s.wait = some w →
    s.dev = .test d → d.mem.wf = true → d.mem.read s.addr.toNat = some w.expect →
    (0 < d.pollsLeft → d.lastWritten ^^^ 0x80 ≠ w.expect) →
    (∀ n, s.params.pollLimit = some n →
      (0 < d.pollsLeft → w.polls + d.pollsLeft < n) ∧ (0 < d.polls → d.polls < n)) →
    ∃ t, Host.Core.run core (d.pollsLeft + 1 + w.left * d.polls) s = .next t
      ∧ t.session = .awaitingCommand ∧ t.wait = none ∧ t.linkIn = s.linkIn
      ∧ t.linkOut = s.linkOut ++ s.params.readyString ++ s.params.eolOut
      ∧ t.cycleTrace = s.cycleTrace ++ List.replicate d.pollsLeft (.poll s.addr (d.lastWritten ^^^ 0x80))
          ++ [.poll s.addr w.expect] ++ fillCycles s.params.addrWidth d.polls w.next w.expect w.left

/-- `p` under FLASH with its whole payload on the link completes: exactly `length` bytes are taken, they land in the page
buffer from index 0, and each is programmed at `start + i`; the surplus stays on the link (46_cmd_write.md,
42_page_buffer.md; collecting first is D34; that `startAddr` is written with the operand is log 28). -/
def Obligations.FlashPageWriteCompletes : Prop :=
  ∀ (s : State) (start stop : Word) (payload rest : List Byte),
    linesIdle s = true → 16 ≤ s.params.addrWidth → s.strategy = .flash → s.wait = none →
    s.pageBuffer.unlisted = none → rangeLength start stop ≤ 4096 → payload.length = rangeLength start stop →
    s.linkIn = payload ++ rest →
    ∃ t, exec (.page start stop) s = .next t
      ∧ (∀ i, i < payload.length → t.pageBuffer.read i = payload[i]?)
      ∧ (∀ j, payload.length ≤ j → t.pageBuffer.read j = s.pageBuffer.read j)
      ∧ busRun (flashCycles s.params.addrWidth start payload) { s with
          session := .executing
          startAddr := start
          binCount := payload.length
          binIndex := payload.length
          linkIn := rest
          pageBuffer := t.pageBuffer } t

/-- `p` under EEPROM with its whole payload on the link: the payload is written ascending and polled at the last address;
the command is over when the chip's next answer is the last byte and waits otherwise (46_cmd_write.md,
41_programming_engine.md section 1, D34, log 11; that `startAddr` is written with the operand is log 28). -/
def Obligations.EepromPageWriteCompletesOrWaits : Prop :=
  ∀ (s : State) (start stop : Word) (payload rest : List Byte) (last x : Byte) (more : List Byte),
    linesIdle s = true → s.strategy = .eeprom → s.wait = none →
    s.pageBuffer.unlisted = none → rangeLength start stop ≤ 4096 → payload.length = rangeLength start stop →
    s.linkIn = payload ++ rest → payload.getLast? = some last → s.dev = .scripted (x :: more) →
    (∀ n, s.params.pollLimit = some n → 1 < n ∨ x = last) →
    ∃ t, exec (.page start stop) s = .next t
      ∧ (x = last → t.wait = none)
      ∧ (x ≠ last → ∃ w, t.wait = some w ∧ w.expect = last ∧ w.left = 0)
      ∧ t.dev = .scripted more
      ∧ (∀ i, i < payload.length → t.pageBuffer.read i = payload[i]?)
      ∧ (∀ j, payload.length ≤ j → t.pageBuffer.read j = s.pageBuffer.read j)
      ∧ busRun (loadCycles s.params.addrWidth start payload
          ++ [.poll (busAddr s.params.addrWidth (spanAddr start (payload.length - 1))) x]) { s with
          session := .executing
          startAddr := start
          binCount := payload.length
          binIndex := payload.length
          linkIn := rest
          pageBuffer := t.pageBuffer
          wait := t.wait } t

/-- `p` with less than its payload on the link, of any length that is admitted: all of it is taken, the entries below the
capacity are stored, and the session waits in `AwaitingBinary`; no bus cycle, no output (46_cmd_write.md, 42_page_buffer.md;
a length above 4096 is admitted under `truncate`, D21; that `startAddr` is written with the operand is log 28). -/
def Obligations.PageWriteWaitsForItsPayload : Prop :=
  ∀ (s : State) (start stop : Word),
    s.pageBuffer.unlisted = none → rangeLength start stop ≤ 4096 ∨ s.params.pOverflow = .truncate →
    s.linkIn.length < rangeLength start stop →
    ∃ t, exec (.page start stop) s = .next t
      ∧ (∀ i, i < s.linkIn.length → i < 4096 → t.pageBuffer.read i = s.linkIn[i]?)
      ∧ (∀ j, s.linkIn.length ≤ j ∨ 4096 ≤ j → t.pageBuffer.read j = s.pageBuffer.read j)
      ∧ t = { s with
          session := .awaitingBinary
          startAddr := start
          binCount := rangeLength start stop
          binIndex := s.linkIn.length
          linkIn := []
          pageBuffer := t.pageBuffer }

/-- `p` with more than 4096 bytes under `fault` and under `reject`: the mark and nothing else, or nothing at all; no payload
byte is taken (46_cmd_write.md, D21). Under `fault` the spec says only that the mark is set: that nothing else changes and no
byte is taken is the model's (log 13). -/
def Obligations.OverlongPageWriteFaultsOrIsRejected : Prop :=
  ∀ (s : State) (start stop : Word), 4096 < rangeLength start stop →
    (s.params.pOverflow = .fault → exec (.page start stop) s = .next { s with faultMark := true })
      ∧ (s.params.pOverflow = .reject → exec (.page start stop) s = .next s)

/-- `p` with more than 4096 bytes under `truncate` and its payload on the link: exactly `length` bytes are taken and the
first 4096 of them stored and committed, under FLASH to the end, under EEPROM up to the first poll for the last byte committed
(46_cmd_write.md, 41_programming_engine.md section 1, D21, log 11, 33; that `startAddr` is written with the operand is
log 28). With less than its payload it waits as any other `p`
(PageWriteWaitsForItsPayload). -/
def Obligations.OverlongPageWriteIsTruncated : Prop :=
  ∀ (s : State) (start stop : Word) (payload rest : List Byte),
    linesIdle s = true → s.wait = none → s.pageBuffer.unlisted = none → s.params.pOverflow = .truncate →
    4096 < rangeLength start stop → payload.length = rangeLength start stop → s.linkIn = payload ++ rest →
    (16 ≤ s.params.addrWidth → s.strategy = .flash →
      ∃ t, exec (.page start stop) s = .next t
        ∧ (∀ i, i < 4096 → t.pageBuffer.read i = payload[i]?)
        ∧ (∀ j, 4096 ≤ j → t.pageBuffer.read j = s.pageBuffer.read j)
        ∧ busRun (flashCycles s.params.addrWidth start (payload.take 4096)) { s with
            session := .executing
            startAddr := start
            binCount := payload.length
            binIndex := payload.length
            linkIn := rest
            pageBuffer := t.pageBuffer } t)
      ∧ ∀ (last x : Byte) (more : List Byte), s.strategy = .eeprom → payload[4095]? = some last →
        s.dev = .scripted (x :: more) → (∀ n, s.params.pollLimit = some n → 1 < n ∨ x = last) →
        ∃ t, exec (.page start stop) s = .next t
          ∧ (x = last → t.wait = none)
          ∧ (x ≠ last → ∃ w, t.wait = some w ∧ w.expect = last ∧ w.left = 0)
          ∧ t.dev = .scripted more
          ∧ (∀ i, i < 4096 → t.pageBuffer.read i = payload[i]?)
          ∧ (∀ j, 4096 ≤ j → t.pageBuffer.read j = s.pageBuffer.read j)
          ∧ busRun (loadCycles s.params.addrWidth start (payload.take 4096)
              ++ [.poll (busAddr s.params.addrWidth (spanAddr start 4095)) x]) { s with
              session := .executing
              startAddr := start
              binCount := payload.length
              binIndex := payload.length
              linkIn := rest
              pageBuffer := t.pageBuffer
              wait := t.wait } t

/-! ## Rules over all instructions -/

/-- R19: `strategy` starts as EEPROM, `E` and `F` write it and no other instruction does; no step changes it either, hand-over
and poll turns included, but the one whose completed line is an `E` or an `F`; and only the two instructions that commit, `p`
and `f`, read it: any other gives the same result under the other strategy. -/
def Obligations.StrategyWrittenOnlyByModeCommands : Prop :=
  State.reset.strategy = .eeprom
    ∧ (∀ s t, exec .modeEeprom s = .next t → t.strategy = .eeprom)
    ∧ (∀ s t, exec .modeFlash s = .next t → t.strategy = .flash)
    ∧ (∀ i s t, i ≠ .modeEeprom → i ≠ .modeFlash → exec i s = .next t → t.strategy = s.strategy)
    ∧ (∀ s t, step s = .next t →
        t.strategy = s.strategy
          ∨ s.session = .awaitingCommand ∧ ∃ line rest, readLine s.params.lineMax s.line s.linkIn = .complete line rest
              ∧ (instrOf (parseLine line) = .modeEeprom ∧ t.strategy = .eeprom
                  ∨ instrOf (parseLine line) = .modeFlash ∧ t.strategy = .flash))
    ∧ (∀ i s t x, i ≠ .modeEeprom → i ≠ .modeFlash → (∀ a b, i ≠ .page a b) → (∀ a b c, i ≠ .fill a b c) →
        exec i s = .next t → exec i { s with strategy := x } = .next { t with strategy := x })

/-- What an instruction leaves unchanged: the parameters, the line, the parser's registers other than `startAddr` and the
idle lines always; the payload registers, the buffer, the link input, `startAddr`, the session and `faultMark` but for `p`;
`strategy` but for `E` and `F`; `linkOut` but for `i`, `v`, `d`, `r`; the control position but for `f` and `p`; the bus but
for those that use it (the "State written" lines of 44 to 47, log 28 for `startAddr`, and log 13 for an over-long `p` under `fault`). -/
def Obligations.InstructionFrame : Prop :=
  ∀ (i : Instr) (s t : State), linesIdle s = true → exec i s = .next t →
    (t.params = s.params ∧ linesIdle t = true ∧ t.line = s.line ∧ t.opcode = s.opcode ∧ t.endAddr = s.endAddr
        ∧ t.fillField = s.fillField)
      ∧ ((∀ a b, i ≠ .page a b) →
          t.startAddr = s.startAddr ∧ t.binCount = s.binCount ∧ t.binIndex = s.binIndex ∧ t.session = s.session
            ∧ t.pageBuffer = s.pageBuffer ∧ t.linkIn = s.linkIn ∧ t.faultMark = s.faultMark)
      ∧ (i ≠ .modeEeprom → i ≠ .modeFlash → t.strategy = s.strategy)
      ∧ (i ≠ .ident → i ≠ .version → (∀ a b, i ≠ .dump a b) → (∀ a b, i ≠ .read a b) → t.linkOut = s.linkOut)
      ∧ ((∀ a b, i ≠ .page a b) → (∀ a b c, i ≠ .fill a b c) → t.wait = s.wait)
      ∧ (i = .ident ∨ i = .version ∨ i = .modeEeprom ∨ i = .modeFlash ∨ (∃ o, i = .unrecognised o) →
          t.addr = s.addr ∧ t.dout = s.dout ∧ t.dev = s.dev ∧ t.draws = s.draws ∧ t.busTrace = s.busTrace
            ∧ t.cycleTrace = s.cycleTrace)

/-- Dispatch takes bytes from the link in the arm of `p` only, and there at most `length` of them
(43_protocol_session.md section 3; that an over-long `p` under `fault` takes none is log 13). -/
def Obligations.OnlyPageWriteConsumesTheLink : Prop :=
  ∀ (i : Instr) (s t : State), exec i s = .next t →
    ((∀ a b, i ≠ .page a b) → t.linkIn = s.linkIn)
      ∧ (∀ a b, i = .page a b →
          t.linkIn = s.linkIn ∧ 4096 < rangeLength a b ∨ t.linkIn = s.linkIn.drop (rangeLength a b))

/-- No instruction's result depends on what an earlier one left in the page buffer (10_state.md section 5,
42_page_buffer.md): with another content before, `exec` answers the same but for the buffer itself. The same of a step, where a
payload is being collected for two buffers that agree in the entries received so far, and they agree so again after it. -/
def Obligations.StalePageBufferIsNeverRead : Prop :=
  (∀ (i : Instr) (s t : State) (m : Memory), s.pageBuffer.unlisted = none → m.unlisted = none →
    exec i s = .next t →
    ∃ m', exec i { s with pageBuffer := m } = .next { t with pageBuffer := m' })
    ∧ ∀ (s t : State) (m : Memory), s.pageBuffer.unlisted = none → m.unlisted = none →
      (s.session = .awaitingBinary → ∀ i, i < s.binIndex → i < 4096 → m.read i = s.pageBuffer.read i) →
      step s = .next t →
      ∃ m', step { s with pageBuffer := m } = .next { t with pageBuffer := m' }
        ∧ t.pageBuffer.unlisted = none ∧ m'.unlisted = none
        ∧ (t.session = .awaitingBinary → ∀ i, i < t.binIndex → i < 4096 → m'.read i = t.pageBuffer.read i)

/-- The commands that sample nothing, and `f` and `p` under FLASH, do the same whatever chip is on the bus: with another
chip the next state differs in the chip only (41_programming_engine.md section 2, 60_exceptions.md section 7: they use
delays, not polls). -/
def Obligations.WritingCommandsDoNotObserveTheChip : Prop :=
  ∀ (i : Instr) (s t : State) (chip : Dev), (∀ a b, i ≠ .dump a b) → (∀ a b, i ≠ .read a b) →
    (s.strategy = .flash ∨ ((∀ a b, i ≠ .page a b) ∧ ∀ a b c, i ≠ .fill a b c)) →
    exec i s = .next t →
    ∃ chip', exec i { s with dev := chip } = .next { t with dev := chip' }

/-- A test device's memory follows the write cycles of the bus and nothing else: after any step it holds at each address the
byte last written there in that step, and elsewhere what it held (20_memory.md section 6; the device is R66's, D35). -/
def Obligations.ChipMemoryFollowsTheWriteCycles : Prop :=
  ∀ s t : State, linesIdle s = true → s.dev.isTest = true → s.dev.wf = true → step s = .next t →
    t.dev.isTest = true ∧ t.dev.wf = true
      ∧ ∃ cycles, t.cycleTrace = s.cycleTrace ++ cycles
        ∧ ∀ a, storedByte t.dev a = (lastWriteTo a cycles).or (storedByte s.dev a)

/-! ## Memories -/

/-- A memory in canonical form: a write keeps the form, reads as written at its address, and leaves every other byte alone;
and two such memories with the same unlisted byte that read alike everywhere are equal data (20_memory.md section 1; the
form is the model's own). -/
def Obligations.MemoryReadsWhatWasWritten : Prop :=
  ∀ (m : Memory) (a : Nat) (v : Byte), m.wf = true →
    (m.write a v).wf = true ∧ (m.write a v).read a = some v
      ∧ (∀ b, b ≠ a → (m.write a v).read b = m.read b)
      ∧ ∀ m' : Memory, m'.wf = true → m'.unlisted = m.unlisted → (∀ b, m'.read b = m.read b) → m' = m

/-- Page readback on a test device, the property of R62 for the devices of R66: a commit of `n` bytes followed by a read of
the same span gives the buffer back, under EEPROM for every span that fits the address lines, under FLASH for every such
span that avoids the two unlock addresses (the devices store unlock writes as data, D35). -/
def Obligations.PageReadbackOnTestDevices : Prop :=
  ∀ (s : State) (start : Word) (bytes : List Byte) (left : Nat) (d : TestDevice),
    linesIdle s = true → 16 ≤ s.params.addrWidth → s.params.addrWidth ≤ 32 → s.dev = .test d → d.mem.wf = true →
    bytes.length ≤ 2 ^ s.params.addrWidth →
    (s.strategy = .flash → ∀ i, i < bytes.length →
      busAddr s.params.addrWidth (spanAddr start i) ≠ 0x5555 ∧ busAddr s.params.addrWidth (spanAddr start i) ≠ 0x2AAA) →
    (readSpan bytes.length start (commit start bytes left s)).1 = bytes

/-- The round trip of R61 and the data polling of R65 on `TDk`: after a write the first `k` polls answer the byte with bit 7
inverted and every later one the byte, and a read gives the byte (the devices are R66's, D35). -/
def Obligations.RoundTripOnTestDevices : Prop :=
  ∀ (s : State) (a : Word) (v : Byte) (d : TestDevice) (n : Nat),
    linesIdle s = true → s.dev = .test d → d.mem.wf = true →
    let polled := (fun u => (pollCycle u).2)^[n] (writeByte a v s)
    (pollCycle polled).1 = (if n < d.polls then v ^^^ 0x80 else v) ∧ (readByte a polled).1 = v

/-! ## From the link to the bus -/

/-- A page write under FLASH from the bytes of its line to the ready marker, in one step (the model's granularity, log 10): the line and exactly its payload
leave the link, the unlock sequence and the data byte reach the bus for every payload byte, the ready line is emitted, and
what follows on the link is the next command (43_protocol_session.md, 46_cmd_write.md, 41_programming_engine.md). -/
def Obligations.FlashPageWriteFromTheLink : Prop :=
  ∀ (s : State) (start stop : Word) (line payload rest : List Byte),
    s.session = .awaitingCommand → s.faultMark = false → s.wait = none → s.line = [] →
    linesIdle s = true → paramsLegal s.params = true → s.strategy = .flash → s.pageBuffer.unlisted = none →
    start.toNat ≤ stop.toNat → rangeLength start stop ≤ 4096 → payload.length = rangeLength start stop →
    encode s.params (.page start stop) = .line line → s.linkIn = line ++ payload ++ rest →
    ∃ t, step s = .next t ∧ t.session = .awaitingCommand ∧ t.line = [] ∧ t.linkIn = rest
      ∧ t.linkOut = s.linkOut ++ s.params.readyString ++ s.params.eolOut
      ∧ t.cycleTrace = s.cycleTrace ++ flashCycles s.params.addrWidth start payload
      ∧ t.strategy = .flash ∧ linesIdle t = true

/-- The payload's last byte arrives while the session is in `AwaitingBinary`: the step takes the bytes still wanted, stores
them after those already held, and hands the first `binCount` entries, at most 4096, to the commit at `startAddr`. Under FLASH
the command is then over and the ready line emitted; under EEPROM it is over when the chip's next answer is the last byte
committed, and otherwise waits in `Executing` with nothing emitted, or has used up a `POLL_LIMIT` of one poll
(42_page_buffer.md, 43_protocol_session.md sections 1 and 4, 41_programming_engine.md section 1; collecting first is D34,
`truncate` D21, one poll per step log 11). -/
def Obligations.PayloadEndHandsOver : Prop :=
  ∀ (s : State) (held payload rest : List Byte),
    Inv s → s.session = .awaitingBinary → s.faultMark = false →
    held.length = s.binIndex → (∀ i, i < held.length → i < 4096 → s.pageBuffer.read i = held[i]?) →
    held.length + payload.length = s.binCount → s.linkIn = payload ++ rest →
    let bytes := (held ++ payload).take 4096
    (s.strategy = .flash →
      ∃ t, step s = .next t
        ∧ (∀ i, i < bytes.length → t.pageBuffer.read i = bytes[i]?)
        ∧ (∀ j, bytes.length ≤ j → t.pageBuffer.read j = s.pageBuffer.read j)
        ∧ busRun (flashCycles s.params.addrWidth s.startAddr bytes) { s with
            session := .awaitingCommand
            line := []
            binIndex := s.binCount
            linkIn := rest
            linkOut := s.linkOut ++ s.params.readyString ++ s.params.eolOut
            pageBuffer := t.pageBuffer } t)
      ∧ ∀ (last x : Byte) (more : List Byte), s.strategy = .eeprom → bytes.getLast? = some last →
        s.dev = .scripted (x :: more) →
        ((∀ n, s.params.pollLimit = some n → 1 < n ∨ x = last) →
          ∃ t, step s = .next t
            ∧ (x = last → t.session = .awaitingCommand ∧ t.wait = none ∧ t.line = []
                ∧ t.linkOut = s.linkOut ++ s.params.readyString ++ s.params.eolOut)
            ∧ (x ≠ last → t.session = .executing ∧ t.line = s.line ∧ t.linkOut = s.linkOut
                ∧ ∃ w, t.wait = some w ∧ w.expect = last ∧ w.polls = 1 ∧ w.left = 0)
            ∧ t.dev = .scripted more
            ∧ (∀ i, i < bytes.length → t.pageBuffer.read i = bytes[i]?)
            ∧ (∀ j, bytes.length ≤ j → t.pageBuffer.read j = s.pageBuffer.read j)
            ∧ busRun (loadCycles s.params.addrWidth s.startAddr bytes
                ++ [.poll (busAddr s.params.addrWidth (spanAddr s.startAddr (bytes.length - 1))) x]) { s with
                session := t.session
                line := t.line
                binIndex := s.binCount
                linkIn := rest
                linkOut := t.linkOut
                pageBuffer := t.pageBuffer
                wait := t.wait } t)
          ∧ ∀ n, s.params.pollLimit = some n → n ≤ 1 → x ≠ last → step s = .fault .hang
end

