-- ==== Sys2Proof/Laws/State.lean ====
section
/-! SUPPORT. The frame lemmas of the named updates of State: for each update, one lemma per field it leaves alone, and
the value of each field it writes. All of them hold by computation and are simp lemmas, so that no later proof unfolds a
record update. -/

namespace Sys2Proof.Machine

/-! ### The parameters -/

/-- What legal parameters give a proof: the ranges, the two sequences, and the least delays (R270). -/
theorem paramsLegal_facts {p : Params} (h : paramsLegal p = true) :
    (16 ≤ p.addrWidth ∧ p.addrWidth ≤ 32 ∧ 29 ≤ p.lineMax)
      ∧ (p.swpEnableSeq.length = 3 ∧ p.swpDisableSeq.length = 6 ∧ p.swpDisableSeq ≠ chipEraseSeq)
      ∧ 100 ≤ p.tOeValid ∧ 100 ≤ p.tWeLow := by
  simp only [paramsLegal, seqOk, delaysLegal, Bool.and_eq_true, beq_iff_eq, bne_iff_ne, decide_eq_true_eq, List.all_cons] at h
  obtain ⟨⟨⟨⟨⟨⟨⟨⟨⟨⟨h1, h2⟩, h3⟩, -⟩, -⟩, -⟩, -⟩, h4, -⟩, h5, -⟩, h6⟩, h7, h8, -⟩ := h
  exact ⟨⟨h1, h2, h3⟩, ⟨h4, h5, h6⟩, of_decide_eq_true h7, of_decide_eq_true h8⟩

/-- The default delays are legal whatever the free values are (log 38). -/
theorem delaysLegal_default : delaysLegal defaultParams = true := by
  simp [delaysLegal, delayLength, defaultParams, delayDefault, delayFigure, figureOk]

/-! ### `emit` -/

@[simp] theorem emit_params (e : BusEvent) (s : State) : (emit e s).params = s.params := by cases e <;> rfl
@[simp] theorem emit_session (e : BusEvent) (s : State) : (emit e s).session = s.session := by cases e <;> rfl
@[simp] theorem emit_line (e : BusEvent) (s : State) : (emit e s).line = s.line := by cases e <;> rfl
@[simp] theorem emit_opcode (e : BusEvent) (s : State) : (emit e s).opcode = s.opcode := by cases e <;> rfl
@[simp] theorem emit_startAddr (e : BusEvent) (s : State) : (emit e s).startAddr = s.startAddr := by cases e <;> rfl
@[simp] theorem emit_endAddr (e : BusEvent) (s : State) : (emit e s).endAddr = s.endAddr := by cases e <;> rfl
@[simp] theorem emit_fillField (e : BusEvent) (s : State) : (emit e s).fillField = s.fillField := by cases e <;> rfl
@[simp] theorem emit_binCount (e : BusEvent) (s : State) : (emit e s).binCount = s.binCount := by cases e <;> rfl
@[simp] theorem emit_binIndex (e : BusEvent) (s : State) : (emit e s).binIndex = s.binIndex := by cases e <;> rfl
@[simp] theorem emit_strategy (e : BusEvent) (s : State) : (emit e s).strategy = s.strategy := by cases e <;> rfl
@[simp] theorem emit_pageBuffer (e : BusEvent) (s : State) : (emit e s).pageBuffer = s.pageBuffer := by cases e <;> rfl
@[simp] theorem emit_linkIn (e : BusEvent) (s : State) : (emit e s).linkIn = s.linkIn := by cases e <;> rfl
@[simp] theorem emit_linkOut (e : BusEvent) (s : State) : (emit e s).linkOut = s.linkOut := by cases e <;> rfl
@[simp] theorem emit_faultMark (e : BusEvent) (s : State) : (emit e s).faultMark = s.faultMark := by cases e <;> rfl
@[simp] theorem emit_wait (e : BusEvent) (s : State) : (emit e s).wait = s.wait := by cases e <;> rfl
@[simp] theorem emit_dev (e : BusEvent) (s : State) : (emit e s).dev = s.dev := by cases e <;> rfl
@[simp] theorem emit_draws (e : BusEvent) (s : State) : (emit e s).draws = s.draws := by cases e <;> rfl
@[simp] theorem emit_cycleTrace (e : BusEvent) (s : State) : (emit e s).cycleTrace = s.cycleTrace := by cases e <;> rfl
@[simp] theorem emit_busTrace (e : BusEvent) (s : State) : (emit e s).busTrace = s.busTrace ++ [e] := by cases e <;> rfl
@[simp] theorem emit_dir (e : BusEvent) (s : State) : (emit e s).dir = dirAfter s.dir e := by cases e <;> rfl
@[simp] theorem emit_oe (e : BusEvent) (s : State) : (emit e s).oe = oeAfter s.oe e := by cases e <;> rfl

/-! ### `record` -/

@[simp] theorem record_params (c : Cycle) (s : State) : (record c s).params = s.params := rfl
@[simp] theorem record_session (c : Cycle) (s : State) : (record c s).session = s.session := rfl
@[simp] theorem record_line (c : Cycle) (s : State) : (record c s).line = s.line := rfl
@[simp] theorem record_opcode (c : Cycle) (s : State) : (record c s).opcode = s.opcode := rfl
@[simp] theorem record_startAddr (c : Cycle) (s : State) : (record c s).startAddr = s.startAddr := rfl
@[simp] theorem record_endAddr (c : Cycle) (s : State) : (record c s).endAddr = s.endAddr := rfl
@[simp] theorem record_fillField (c : Cycle) (s : State) : (record c s).fillField = s.fillField := rfl
@[simp] theorem record_binCount (c : Cycle) (s : State) : (record c s).binCount = s.binCount := rfl
@[simp] theorem record_binIndex (c : Cycle) (s : State) : (record c s).binIndex = s.binIndex := rfl
@[simp] theorem record_strategy (c : Cycle) (s : State) : (record c s).strategy = s.strategy := rfl
@[simp] theorem record_addr (c : Cycle) (s : State) : (record c s).addr = s.addr := rfl
@[simp] theorem record_dir (c : Cycle) (s : State) : (record c s).dir = s.dir := rfl
@[simp] theorem record_dout (c : Cycle) (s : State) : (record c s).dout = s.dout := rfl
@[simp] theorem record_ce (c : Cycle) (s : State) : (record c s).ce = s.ce := rfl
@[simp] theorem record_oe (c : Cycle) (s : State) : (record c s).oe = s.oe := rfl
@[simp] theorem record_we (c : Cycle) (s : State) : (record c s).we = s.we := rfl
@[simp] theorem record_pageBuffer (c : Cycle) (s : State) : (record c s).pageBuffer = s.pageBuffer := rfl
@[simp] theorem record_linkIn (c : Cycle) (s : State) : (record c s).linkIn = s.linkIn := rfl
@[simp] theorem record_linkOut (c : Cycle) (s : State) : (record c s).linkOut = s.linkOut := rfl
@[simp] theorem record_faultMark (c : Cycle) (s : State) : (record c s).faultMark = s.faultMark := rfl
@[simp] theorem record_wait (c : Cycle) (s : State) : (record c s).wait = s.wait := rfl
@[simp] theorem record_dev (c : Cycle) (s : State) : (record c s).dev = s.dev := rfl
@[simp] theorem record_draws (c : Cycle) (s : State) : (record c s).draws = s.draws := rfl
@[simp] theorem record_busTrace (c : Cycle) (s : State) : (record c s).busTrace = s.busTrace := rfl
@[simp] theorem record_cycleTrace (c : Cycle) (s : State) : (record c s).cycleTrace = s.cycleTrace ++ [c] := rfl

/-! ### `linkPut` -/

@[simp] theorem linkPut_params (bytes : List Byte) (s : State) : (linkPut bytes s).params = s.params := rfl
@[simp] theorem linkPut_session (bytes : List Byte) (s : State) : (linkPut bytes s).session = s.session := rfl
@[simp] theorem linkPut_line (bytes : List Byte) (s : State) : (linkPut bytes s).line = s.line := rfl
@[simp] theorem linkPut_opcode (bytes : List Byte) (s : State) : (linkPut bytes s).opcode = s.opcode := rfl
@[simp] theorem linkPut_startAddr (bytes : List Byte) (s : State) : (linkPut bytes s).startAddr = s.startAddr := rfl
@[simp] theorem linkPut_endAddr (bytes : List Byte) (s : State) : (linkPut bytes s).endAddr = s.endAddr := rfl
@[simp] theorem linkPut_fillField (bytes : List Byte) (s : State) : (linkPut bytes s).fillField = s.fillField := rfl
@[simp] theorem linkPut_binCount (bytes : List Byte) (s : State) : (linkPut bytes s).binCount = s.binCount := rfl
@[simp] theorem linkPut_binIndex (bytes : List Byte) (s : State) : (linkPut bytes s).binIndex = s.binIndex := rfl
@[simp] theorem linkPut_strategy (bytes : List Byte) (s : State) : (linkPut bytes s).strategy = s.strategy := rfl
@[simp] theorem linkPut_addr (bytes : List Byte) (s : State) : (linkPut bytes s).addr = s.addr := rfl
@[simp] theorem linkPut_dir (bytes : List Byte) (s : State) : (linkPut bytes s).dir = s.dir := rfl
@[simp] theorem linkPut_dout (bytes : List Byte) (s : State) : (linkPut bytes s).dout = s.dout := rfl
@[simp] theorem linkPut_ce (bytes : List Byte) (s : State) : (linkPut bytes s).ce = s.ce := rfl
@[simp] theorem linkPut_oe (bytes : List Byte) (s : State) : (linkPut bytes s).oe = s.oe := rfl
@[simp] theorem linkPut_we (bytes : List Byte) (s : State) : (linkPut bytes s).we = s.we := rfl
@[simp] theorem linkPut_pageBuffer (bytes : List Byte) (s : State) : (linkPut bytes s).pageBuffer = s.pageBuffer := rfl
@[simp] theorem linkPut_linkIn (bytes : List Byte) (s : State) : (linkPut bytes s).linkIn = s.linkIn := rfl
@[simp] theorem linkPut_faultMark (bytes : List Byte) (s : State) : (linkPut bytes s).faultMark = s.faultMark := rfl
@[simp] theorem linkPut_wait (bytes : List Byte) (s : State) : (linkPut bytes s).wait = s.wait := rfl
@[simp] theorem linkPut_dev (bytes : List Byte) (s : State) : (linkPut bytes s).dev = s.dev := rfl
@[simp] theorem linkPut_draws (bytes : List Byte) (s : State) : (linkPut bytes s).draws = s.draws := rfl
@[simp] theorem linkPut_busTrace (bytes : List Byte) (s : State) : (linkPut bytes s).busTrace = s.busTrace := rfl
@[simp] theorem linkPut_cycleTrace (bytes : List Byte) (s : State) : (linkPut bytes s).cycleTrace = s.cycleTrace := rfl
@[simp] theorem linkPut_linkOut (bytes : List Byte) (s : State) : (linkPut bytes s).linkOut = s.linkOut ++ bytes := rfl

/-! ### `putLine` -/

@[simp] theorem putLine_params (text : List Byte) (s : State) : (putLine text s).params = s.params := rfl
@[simp] theorem putLine_session (text : List Byte) (s : State) : (putLine text s).session = s.session := rfl
@[simp] theorem putLine_line (text : List Byte) (s : State) : (putLine text s).line = s.line := rfl
@[simp] theorem putLine_opcode (text : List Byte) (s : State) : (putLine text s).opcode = s.opcode := rfl
@[simp] theorem putLine_startAddr (text : List Byte) (s : State) : (putLine text s).startAddr = s.startAddr := rfl
@[simp] theorem putLine_endAddr (text : List Byte) (s : State) : (putLine text s).endAddr = s.endAddr := rfl
@[simp] theorem putLine_fillField (text : List Byte) (s : State) : (putLine text s).fillField = s.fillField := rfl
@[simp] theorem putLine_binCount (text : List Byte) (s : State) : (putLine text s).binCount = s.binCount := rfl
@[simp] theorem putLine_binIndex (text : List Byte) (s : State) : (putLine text s).binIndex = s.binIndex := rfl
@[simp] theorem putLine_strategy (text : List Byte) (s : State) : (putLine text s).strategy = s.strategy := rfl
@[simp] theorem putLine_addr (text : List Byte) (s : State) : (putLine text s).addr = s.addr := rfl
@[simp] theorem putLine_dir (text : List Byte) (s : State) : (putLine text s).dir = s.dir := rfl
@[simp] theorem putLine_dout (text : List Byte) (s : State) : (putLine text s).dout = s.dout := rfl
@[simp] theorem putLine_ce (text : List Byte) (s : State) : (putLine text s).ce = s.ce := rfl
@[simp] theorem putLine_oe (text : List Byte) (s : State) : (putLine text s).oe = s.oe := rfl
@[simp] theorem putLine_we (text : List Byte) (s : State) : (putLine text s).we = s.we := rfl
@[simp] theorem putLine_pageBuffer (text : List Byte) (s : State) : (putLine text s).pageBuffer = s.pageBuffer := rfl
@[simp] theorem putLine_linkIn (text : List Byte) (s : State) : (putLine text s).linkIn = s.linkIn := rfl
@[simp] theorem putLine_faultMark (text : List Byte) (s : State) : (putLine text s).faultMark = s.faultMark := rfl
@[simp] theorem putLine_wait (text : List Byte) (s : State) : (putLine text s).wait = s.wait := rfl
@[simp] theorem putLine_dev (text : List Byte) (s : State) : (putLine text s).dev = s.dev := rfl
@[simp] theorem putLine_draws (text : List Byte) (s : State) : (putLine text s).draws = s.draws := rfl
@[simp] theorem putLine_busTrace (text : List Byte) (s : State) : (putLine text s).busTrace = s.busTrace := rfl
@[simp] theorem putLine_cycleTrace (text : List Byte) (s : State) : (putLine text s).cycleTrace = s.cycleTrace := rfl
@[simp] theorem putLine_linkOut (text : List Byte) (s : State) : (putLine text s).linkOut = s.linkOut ++ (text ++ s.params.eolOut) := rfl

/-! ### `setAddress` -/

@[simp] theorem setAddress_params (a : Word) (s : State) : (setAddress a s).params = s.params := rfl
@[simp] theorem setAddress_session (a : Word) (s : State) : (setAddress a s).session = s.session := rfl
@[simp] theorem setAddress_line (a : Word) (s : State) : (setAddress a s).line = s.line := rfl
@[simp] theorem setAddress_opcode (a : Word) (s : State) : (setAddress a s).opcode = s.opcode := rfl
@[simp] theorem setAddress_startAddr (a : Word) (s : State) : (setAddress a s).startAddr = s.startAddr := rfl
@[simp] theorem setAddress_endAddr (a : Word) (s : State) : (setAddress a s).endAddr = s.endAddr := rfl
@[simp] theorem setAddress_fillField (a : Word) (s : State) : (setAddress a s).fillField = s.fillField := rfl
@[simp] theorem setAddress_binCount (a : Word) (s : State) : (setAddress a s).binCount = s.binCount := rfl
@[simp] theorem setAddress_binIndex (a : Word) (s : State) : (setAddress a s).binIndex = s.binIndex := rfl
@[simp] theorem setAddress_strategy (a : Word) (s : State) : (setAddress a s).strategy = s.strategy := rfl
@[simp] theorem setAddress_dir (a : Word) (s : State) : (setAddress a s).dir = s.dir := rfl
@[simp] theorem setAddress_dout (a : Word) (s : State) : (setAddress a s).dout = s.dout := rfl
@[simp] theorem setAddress_ce (a : Word) (s : State) : (setAddress a s).ce = s.ce := rfl
@[simp] theorem setAddress_oe (a : Word) (s : State) : (setAddress a s).oe = s.oe := rfl
@[simp] theorem setAddress_we (a : Word) (s : State) : (setAddress a s).we = s.we := rfl
@[simp] theorem setAddress_pageBuffer (a : Word) (s : State) : (setAddress a s).pageBuffer = s.pageBuffer := rfl
@[simp] theorem setAddress_linkIn (a : Word) (s : State) : (setAddress a s).linkIn = s.linkIn := rfl
@[simp] theorem setAddress_linkOut (a : Word) (s : State) : (setAddress a s).linkOut = s.linkOut := rfl
@[simp] theorem setAddress_faultMark (a : Word) (s : State) : (setAddress a s).faultMark = s.faultMark := rfl
@[simp] theorem setAddress_wait (a : Word) (s : State) : (setAddress a s).wait = s.wait := rfl
@[simp] theorem setAddress_dev (a : Word) (s : State) : (setAddress a s).dev = s.dev := rfl
@[simp] theorem setAddress_draws (a : Word) (s : State) : (setAddress a s).draws = s.draws := rfl
@[simp] theorem setAddress_cycleTrace (a : Word) (s : State) : (setAddress a s).cycleTrace = s.cycleTrace := rfl
@[simp] theorem setAddress_addr (a : Word) (s : State) : (setAddress a s).addr = busAddr s.params.addrWidth a := rfl
@[simp] theorem setAddress_busTrace (a : Word) (s : State) : (setAddress a s).busTrace = s.busTrace ++ [.addr (busAddr s.params.addrWidth a)] := rfl

/-! ### `engineDelay` -/

@[simp] theorem engineDelay_params (t : DelayName) (s : State) : (engineDelay t s).params = s.params := rfl
@[simp] theorem engineDelay_session (t : DelayName) (s : State) : (engineDelay t s).session = s.session := rfl
@[simp] theorem engineDelay_line (t : DelayName) (s : State) : (engineDelay t s).line = s.line := rfl
@[simp] theorem engineDelay_opcode (t : DelayName) (s : State) : (engineDelay t s).opcode = s.opcode := rfl
@[simp] theorem engineDelay_startAddr (t : DelayName) (s : State) : (engineDelay t s).startAddr = s.startAddr := rfl
@[simp] theorem engineDelay_endAddr (t : DelayName) (s : State) : (engineDelay t s).endAddr = s.endAddr := rfl
@[simp] theorem engineDelay_fillField (t : DelayName) (s : State) : (engineDelay t s).fillField = s.fillField := rfl
@[simp] theorem engineDelay_binCount (t : DelayName) (s : State) : (engineDelay t s).binCount = s.binCount := rfl
@[simp] theorem engineDelay_binIndex (t : DelayName) (s : State) : (engineDelay t s).binIndex = s.binIndex := rfl
@[simp] theorem engineDelay_strategy (t : DelayName) (s : State) : (engineDelay t s).strategy = s.strategy := rfl
@[simp] theorem engineDelay_addr (t : DelayName) (s : State) : (engineDelay t s).addr = s.addr := rfl
@[simp] theorem engineDelay_dir (t : DelayName) (s : State) : (engineDelay t s).dir = s.dir := rfl
@[simp] theorem engineDelay_dout (t : DelayName) (s : State) : (engineDelay t s).dout = s.dout := rfl
@[simp] theorem engineDelay_ce (t : DelayName) (s : State) : (engineDelay t s).ce = s.ce := rfl
@[simp] theorem engineDelay_oe (t : DelayName) (s : State) : (engineDelay t s).oe = s.oe := rfl
@[simp] theorem engineDelay_we (t : DelayName) (s : State) : (engineDelay t s).we = s.we := rfl
@[simp] theorem engineDelay_pageBuffer (t : DelayName) (s : State) : (engineDelay t s).pageBuffer = s.pageBuffer := rfl
@[simp] theorem engineDelay_linkIn (t : DelayName) (s : State) : (engineDelay t s).linkIn = s.linkIn := rfl
@[simp] theorem engineDelay_linkOut (t : DelayName) (s : State) : (engineDelay t s).linkOut = s.linkOut := rfl
@[simp] theorem engineDelay_faultMark (t : DelayName) (s : State) : (engineDelay t s).faultMark = s.faultMark := rfl
@[simp] theorem engineDelay_wait (t : DelayName) (s : State) : (engineDelay t s).wait = s.wait := rfl
@[simp] theorem engineDelay_dev (t : DelayName) (s : State) : (engineDelay t s).dev = s.dev := rfl
@[simp] theorem engineDelay_draws (t : DelayName) (s : State) : (engineDelay t s).draws = s.draws := rfl
@[simp] theorem engineDelay_busTrace (t : DelayName) (s : State) : (engineDelay t s).busTrace = s.busTrace ++ [.delay t] := rfl
@[simp] theorem engineDelay_cycleTrace (t : DelayName) (s : State) : (engineDelay t s).cycleTrace = s.cycleTrace ++ [.delay t] := rfl

/-! ### `loadCommand` -/

@[simp] theorem loadCommand_params (p : Parsed) (s : State) : (loadCommand p s).params = s.params := rfl
@[simp] theorem loadCommand_line (p : Parsed) (s : State) : (loadCommand p s).line = s.line := rfl
@[simp] theorem loadCommand_binCount (p : Parsed) (s : State) : (loadCommand p s).binCount = s.binCount := rfl
@[simp] theorem loadCommand_binIndex (p : Parsed) (s : State) : (loadCommand p s).binIndex = s.binIndex := rfl
@[simp] theorem loadCommand_strategy (p : Parsed) (s : State) : (loadCommand p s).strategy = s.strategy := rfl
@[simp] theorem loadCommand_addr (p : Parsed) (s : State) : (loadCommand p s).addr = s.addr := rfl
@[simp] theorem loadCommand_dir (p : Parsed) (s : State) : (loadCommand p s).dir = s.dir := rfl
@[simp] theorem loadCommand_dout (p : Parsed) (s : State) : (loadCommand p s).dout = s.dout := rfl
@[simp] theorem loadCommand_ce (p : Parsed) (s : State) : (loadCommand p s).ce = s.ce := rfl
@[simp] theorem loadCommand_oe (p : Parsed) (s : State) : (loadCommand p s).oe = s.oe := rfl
@[simp] theorem loadCommand_we (p : Parsed) (s : State) : (loadCommand p s).we = s.we := rfl
@[simp] theorem loadCommand_pageBuffer (p : Parsed) (s : State) : (loadCommand p s).pageBuffer = s.pageBuffer := rfl
@[simp] theorem loadCommand_linkIn (p : Parsed) (s : State) : (loadCommand p s).linkIn = s.linkIn := rfl
@[simp] theorem loadCommand_linkOut (p : Parsed) (s : State) : (loadCommand p s).linkOut = s.linkOut := rfl
@[simp] theorem loadCommand_faultMark (p : Parsed) (s : State) : (loadCommand p s).faultMark = s.faultMark := rfl
@[simp] theorem loadCommand_wait (p : Parsed) (s : State) : (loadCommand p s).wait = s.wait := rfl
@[simp] theorem loadCommand_dev (p : Parsed) (s : State) : (loadCommand p s).dev = s.dev := rfl
@[simp] theorem loadCommand_draws (p : Parsed) (s : State) : (loadCommand p s).draws = s.draws := rfl
@[simp] theorem loadCommand_busTrace (p : Parsed) (s : State) : (loadCommand p s).busTrace = s.busTrace := rfl
@[simp] theorem loadCommand_cycleTrace (p : Parsed) (s : State) : (loadCommand p s).cycleTrace = s.cycleTrace := rfl
@[simp] theorem loadCommand_opcode (p : Parsed) (s : State) : (loadCommand p s).opcode = p.opcode := rfl
@[simp] theorem loadCommand_startAddr (p : Parsed) (s : State) : (loadCommand p s).startAddr = p.startAddr := rfl
@[simp] theorem loadCommand_endAddr (p : Parsed) (s : State) : (loadCommand p s).endAddr = p.endAddr := rfl
@[simp] theorem loadCommand_fillField (p : Parsed) (s : State) : (loadCommand p s).fillField = p.fillField := rfl
@[simp] theorem loadCommand_session (p : Parsed) (s : State) : (loadCommand p s).session = .executing := rfl

/-! ### `hostSend` -/

@[simp] theorem hostSend_params (bytes : List Byte) (s : State) : (hostSend bytes s).params = s.params := rfl
@[simp] theorem hostSend_session (bytes : List Byte) (s : State) : (hostSend bytes s).session = s.session := rfl
@[simp] theorem hostSend_line (bytes : List Byte) (s : State) : (hostSend bytes s).line = s.line := rfl
@[simp] theorem hostSend_opcode (bytes : List Byte) (s : State) : (hostSend bytes s).opcode = s.opcode := rfl
@[simp] theorem hostSend_startAddr (bytes : List Byte) (s : State) : (hostSend bytes s).startAddr = s.startAddr := rfl
@[simp] theorem hostSend_endAddr (bytes : List Byte) (s : State) : (hostSend bytes s).endAddr = s.endAddr := rfl
@[simp] theorem hostSend_fillField (bytes : List Byte) (s : State) : (hostSend bytes s).fillField = s.fillField := rfl
@[simp] theorem hostSend_binCount (bytes : List Byte) (s : State) : (hostSend bytes s).binCount = s.binCount := rfl
@[simp] theorem hostSend_binIndex (bytes : List Byte) (s : State) : (hostSend bytes s).binIndex = s.binIndex := rfl
@[simp] theorem hostSend_strategy (bytes : List Byte) (s : State) : (hostSend bytes s).strategy = s.strategy := rfl
@[simp] theorem hostSend_addr (bytes : List Byte) (s : State) : (hostSend bytes s).addr = s.addr := rfl
@[simp] theorem hostSend_dir (bytes : List Byte) (s : State) : (hostSend bytes s).dir = s.dir := rfl
@[simp] theorem hostSend_dout (bytes : List Byte) (s : State) : (hostSend bytes s).dout = s.dout := rfl
@[simp] theorem hostSend_ce (bytes : List Byte) (s : State) : (hostSend bytes s).ce = s.ce := rfl
@[simp] theorem hostSend_oe (bytes : List Byte) (s : State) : (hostSend bytes s).oe = s.oe := rfl
@[simp] theorem hostSend_we (bytes : List Byte) (s : State) : (hostSend bytes s).we = s.we := rfl
@[simp] theorem hostSend_pageBuffer (bytes : List Byte) (s : State) : (hostSend bytes s).pageBuffer = s.pageBuffer := rfl
@[simp] theorem hostSend_linkOut (bytes : List Byte) (s : State) : (hostSend bytes s).linkOut = s.linkOut := rfl
@[simp] theorem hostSend_faultMark (bytes : List Byte) (s : State) : (hostSend bytes s).faultMark = s.faultMark := rfl
@[simp] theorem hostSend_wait (bytes : List Byte) (s : State) : (hostSend bytes s).wait = s.wait := rfl
@[simp] theorem hostSend_dev (bytes : List Byte) (s : State) : (hostSend bytes s).dev = s.dev := rfl
@[simp] theorem hostSend_draws (bytes : List Byte) (s : State) : (hostSend bytes s).draws = s.draws := rfl
@[simp] theorem hostSend_busTrace (bytes : List Byte) (s : State) : (hostSend bytes s).busTrace = s.busTrace := rfl
@[simp] theorem hostSend_cycleTrace (bytes : List Byte) (s : State) : (hostSend bytes s).cycleTrace = s.cycleTrace := rfl
@[simp] theorem hostSend_linkIn (bytes : List Byte) (s : State) : (hostSend bytes s).linkIn = s.linkIn ++ bytes := rfl

/-! ### `collectBinary` -/

@[simp] theorem collectBinary_params (s : State) : (collectBinary s).params = s.params := rfl
@[simp] theorem collectBinary_session (s : State) : (collectBinary s).session = s.session := rfl
@[simp] theorem collectBinary_line (s : State) : (collectBinary s).line = s.line := rfl
@[simp] theorem collectBinary_opcode (s : State) : (collectBinary s).opcode = s.opcode := rfl
@[simp] theorem collectBinary_startAddr (s : State) : (collectBinary s).startAddr = s.startAddr := rfl
@[simp] theorem collectBinary_endAddr (s : State) : (collectBinary s).endAddr = s.endAddr := rfl
@[simp] theorem collectBinary_fillField (s : State) : (collectBinary s).fillField = s.fillField := rfl
@[simp] theorem collectBinary_binCount (s : State) : (collectBinary s).binCount = s.binCount := rfl
@[simp] theorem collectBinary_strategy (s : State) : (collectBinary s).strategy = s.strategy := rfl
@[simp] theorem collectBinary_addr (s : State) : (collectBinary s).addr = s.addr := rfl
@[simp] theorem collectBinary_dir (s : State) : (collectBinary s).dir = s.dir := rfl
@[simp] theorem collectBinary_dout (s : State) : (collectBinary s).dout = s.dout := rfl
@[simp] theorem collectBinary_ce (s : State) : (collectBinary s).ce = s.ce := rfl
@[simp] theorem collectBinary_oe (s : State) : (collectBinary s).oe = s.oe := rfl
@[simp] theorem collectBinary_we (s : State) : (collectBinary s).we = s.we := rfl
@[simp] theorem collectBinary_linkOut (s : State) : (collectBinary s).linkOut = s.linkOut := rfl
@[simp] theorem collectBinary_faultMark (s : State) : (collectBinary s).faultMark = s.faultMark := rfl
@[simp] theorem collectBinary_wait (s : State) : (collectBinary s).wait = s.wait := rfl
@[simp] theorem collectBinary_dev (s : State) : (collectBinary s).dev = s.dev := rfl
@[simp] theorem collectBinary_draws (s : State) : (collectBinary s).draws = s.draws := rfl
@[simp] theorem collectBinary_busTrace (s : State) : (collectBinary s).busTrace = s.busTrace := rfl
@[simp] theorem collectBinary_cycleTrace (s : State) : (collectBinary s).cycleTrace = s.cycleTrace := rfl
@[simp] theorem collectBinary_linkIn (s : State) : (collectBinary s).linkIn = s.linkIn.drop (s.binCount - s.binIndex) := rfl
@[simp] theorem collectBinary_binIndex (s : State) : (collectBinary s).binIndex = s.binIndex + (s.linkIn.take (s.binCount - s.binIndex)).length := rfl
@[simp] theorem collectBinary_pageBuffer (s : State) : (collectBinary s).pageBuffer = storePayload s.binIndex (s.linkIn.take (s.binCount - s.binIndex)) s.pageBuffer := rfl

end Sys2Proof.Machine
end

