-- ==== Sys2Proof/Laws/Ops.lean ====
section
/-! SUPPORT. What each shared operation can do, said once: memories, samples, the bus operations. -/

namespace Sys2Proof.Machine

/-! ## Memories -/

theorem cellLookup_insert (a b : Nat) (v : Byte) (cells : List Host.Cell) :
    cellLookup b (cellInsert a v cells) = if a = b then some v else cellLookup b cells := by
  induction cells with
  | nil => simp [cellInsert, cellLookup]
  | cons c rest ih =>
    unfold cellInsert
    split
    · simp [cellLookup]
    · split
      · rename_i h
        subst h
        simp only [cellLookup]
        split <;> simp_all
      · simp only [cellLookup, ih]
        split <;> split <;> simp_all

theorem cellsRising_tail {low : Option Nat} {c : Host.Cell} {rest : List Host.Cell}
    (h : cellsRising low (c :: rest) = true) : cellsRising (some c.1) rest = true := by
  cases low <;> simp_all [cellsRising]

theorem cellsRising_weaken {low : Nat} {cells : List Host.Cell} (h : cellsRising (some low) cells = true)
    {low' : Option Nat} (hl : ∀ x, low' = some x → x ≤ low) : cellsRising low' cells = true := by
  cases cells with
  | nil => simp [cellsRising]
  | cons c rest =>
    cases low' with
    | none => simp_all [cellsRising]
    | some x =>
      have := hl x rfl
      simp only [cellsRising, Bool.and_eq_true, decide_eq_true_eq] at h ⊢
      exact ⟨by omega, h.2⟩

theorem cellLookup_of_rising {low : Nat} {cells : List Host.Cell} (h : cellsRising (some low) cells = true)
    {a : Nat} (ha : a ≤ low) : cellLookup a cells = none := by
  induction cells generalizing low with
  | nil => rfl
  | cons c rest ih =>
    simp only [cellsRising, Bool.and_eq_true, decide_eq_true_eq] at h
    simp only [cellLookup]
    rw [if_neg (by omega), ih h.2 (by omega)]

theorem cellLookup_erase {low : Option Nat} {cells : List Host.Cell} (h : cellsRising low cells = true) (a b : Nat) :
    cellLookup b (cellErase a cells) = if a = b then none else cellLookup b cells := by
  induction cells generalizing low with
  | nil => simp [cellErase, cellLookup]
  | cons c rest ih =>
    have ht := cellsRising_tail h
    unfold cellErase
    by_cases hc : c.1 = a
    · rw [if_pos hc]
      by_cases hab : a = b
      · rw [if_pos hab]
        exact cellLookup_of_rising ht (by omega)
      · rw [if_neg hab]
        simp [cellLookup, hc, hab]
    · rw [if_neg hc]
      simp only [cellLookup, ih ht]
      split <;> split <;> simp_all

theorem cellInsert_rising {low : Option Nat} {a : Nat} {v : Byte} {cells : List Host.Cell}
    (h : cellsRising low cells = true) (hl : ∀ x, low = some x → x < a) :
    cellsRising low (cellInsert a v cells) = true := by
  induction cells generalizing low with
  | nil => cases low <;> simp_all [cellInsert, cellsRising]
  | cons c rest ih =>
    have ht := cellsRising_tail h
    unfold cellInsert
    split
    · cases low <;> simp_all [cellsRising]
    · split
      · rename_i h1 h2
        subst h2
        cases low <;> simp_all [cellsRising]
      · have := ih (low := some c.1) ht (by intro x hx; cases hx; omega)
        cases low <;> simp_all [cellsRising]

theorem cellErase_rising {low : Option Nat} {a : Nat} {cells : List Host.Cell}
    (h : cellsRising low cells = true) : cellsRising low (cellErase a cells) = true := by
  induction cells generalizing low with
  | nil => simpa [cellErase] using h
  | cons c rest ih =>
    have ht := cellsRising_tail h
    unfold cellErase
    split
    · refine cellsRising_weaken ht ?_
      rintro x rfl
      simp only [cellsRising, Bool.and_eq_true, decide_eq_true_eq] at h
      omega
    · have := ih ht
      cases low <;> simp_all [cellsRising]

theorem all_cellInsert {p : Host.Cell → Bool} {a : Nat} {v : Byte} {cells : List Host.Cell}
    (h : cells.all p = true) (hp : p (a, v) = true) : (cellInsert a v cells).all p = true := by
  induction cells with
  | nil => simpa [cellInsert] using hp
  | cons c rest ih =>
    simp only [List.all_cons, Bool.and_eq_true] at h
    unfold cellInsert
    split
    · simp_all
    · split <;> simp_all

theorem all_cellErase {p : Host.Cell → Bool} {a : Nat} {cells : List Host.Cell}
    (h : cells.all p = true) : (cellErase a cells).all p = true := by
  induction cells with
  | nil => simp [cellErase]
  | cons c rest ih =>
    simp only [List.all_cons, Bool.and_eq_true] at h
    unfold cellErase
    split <;> simp_all

@[simp] theorem Memory.write_unlisted (m : Memory) (a : Nat) (v : Byte) : (m.write a v).unlisted = m.unlisted := by
  unfold Memory.write
  split <;> rfl

/-- Every write keeps the canonical form. -/
theorem Memory.write_wf {m : Memory} (h : m.wf = true) (a : Nat) (v : Byte) : (m.write a v).wf = true := by
  simp only [Memory.wf, Bool.and_eq_true] at h
  by_cases hu : m.unlisted = some v
  · simp only [Memory.write, hu, if_true, Memory.wf, Bool.and_eq_true]
    exact ⟨cellErase_rising h.1, all_cellErase (hu ▸ h.2)⟩
  · simp only [Memory.write, hu, if_false, Memory.wf, Bool.and_eq_true]
    exact ⟨cellInsert_rising h.1 (by simp), all_cellInsert h.2 (by simpa using hu)⟩

/-- A write below a bound keeps every entry below it. -/
theorem Memory.write_below {m : Memory} {bound a : Nat} (h : m.below bound = true) (ha : a < bound) (v : Byte) :
    (m.write a v).below bound = true := by
  by_cases hu : m.unlisted = some v
  · simp only [Memory.write, hu, if_true, Memory.below]
    exact all_cellErase h
  · simp only [Memory.write, hu, if_false, Memory.below]
    exact all_cellInsert h (by simpa using ha)

/-- A read after a write: the byte written at its address, the old byte everywhere else. -/
theorem Memory.read_write {m : Memory} (h : m.wf = true) (a b : Nat) (v : Byte) :
    (m.write a v).read b = if a = b then some v else m.read b := by
  simp only [Memory.wf, Bool.and_eq_true] at h
  by_cases hu : m.unlisted = some v
  · simp only [Memory.write, Memory.read, hu, if_true, cellLookup_erase h.1]
    by_cases hab : a = b <;> simp [hab]
  · simp only [Memory.write, Memory.read, hu, if_false, cellLookup_insert]
    by_cases hab : a = b <;> simp [hab]

/-- The same without a premise where an unlisted address holds no value. -/
theorem Memory.read_write_of_none {m : Memory} (h : m.unlisted = none) (a b : Nat) (v : Byte) :
    (m.write a v).read b = if a = b then some v else m.read b := by
  simp only [Memory.write, Memory.read, h, reduceCtorEq, if_false, cellLookup_insert]
  by_cases hab : a = b <;> simp [hab]

/-! ## The chip -/

theorem Dev.answer_wf {d : Dev} (h : d.wf = true) (kind : SampleKind) (a : Word) : (d.answer kind a).2.wf = true := by
  cases d with
  | oracle => rfl
  | scripted l => cases l <;> rfl
  | test t =>
    cases kind with
    | read => simpa [Dev.answer] using h
    | poll =>
      simp only [Dev.answer, TestDevice.pollAt]
      split <;> simpa [Dev.wf] using h

theorem Dev.latch_wf {d : Dev} (h : d.wf = true) (a : Word) (v : Byte) : (d.latch a v).wf = true := by
  cases d with
  | oracle => rfl
  | scripted l => rfl
  | test t => exact Memory.write_wf h _ _

theorem storedByte_answer (d : Dev) (kind : SampleKind) (a b : Word) :
    storedByte (d.answer kind a).2 b = storedByte d b := by
  cases d with
  | oracle => rfl
  | scripted l => cases l <;> rfl
  | test t =>
    cases kind with
    | read => rfl
    | poll =>
      simp only [Dev.answer, TestDevice.pollAt]
      split <;> rfl

theorem storedByte_latch {d : Dev} (h : d.wf = true) (ht : d.isTest = true) (a b : Word) (v : Byte) :
    storedByte (d.latch a v) b = if a = b then some v else storedByte d b := by
  cases d with
  | oracle => simp [Dev.isTest] at ht
  | scripted l => simp [Dev.isTest] at ht
  | test t =>
    simp only [storedByte, Dev.latch]
    rw [Memory.read_write h]
    simp [BitVec.toNat_inj]

theorem Dev.latch_isTest (d : Dev) (a : Word) (v : Byte) : (d.latch a v).isTest = d.isTest := by
  cases d <;> rfl

theorem Dev.answer_isTest (d : Dev) (kind : SampleKind) (a : Word) : (d.answer kind a).2.isTest = d.isTest := by
  cases d with
  | oracle => rfl
  | scripted l => cases l <;> rfl
  | test t => cases kind <;> rfl

/-! ## Samples -/

/-- A sample changes the chip and the count of free samples only; the chip becomes what its answer leaves. -/
theorem sample_spec (kind : SampleKind) (s : State) :
    ∃ v n, sample kind s
      = (v, { s with dev := if chipDrives s then (s.dev.answer kind s.addr).2 else s.dev, draws := n }) := by
  unfold sample
  by_cases h : chipDrives s = true
  · simp only [h, if_true]
    cases hq : s.dev.answer kind s.addr with
    | mk ov d =>
      cases ov with
      | none => exact ⟨_, _, rfl⟩
      | some v => exact ⟨v, s.draws, rfl⟩
  · simp only [h, Bool.false_eq_true, if_false]
    exact ⟨_, _, rfl⟩

/-- Where the chip drives the lines and the model gives its answer, that answer is the sample (R47). -/
theorem sample_answered {kind : SampleKind} {s : State} {v : Byte} {d : Dev} (hd : chipDrives s = true)
    (ha : s.dev.answer kind s.addr = (some v, d)) : sample kind s = (v, { s with dev := d }) := by
  simp [sample, hd, ha]

/-! ## Bus operations -/

theorem readOpening_effect (order : ReadOrder) (a : Word) (s : State) :
    emitAll (readOpening order a) s
      = { s with addr := a, oe := .asserted, ce := .asserted, busTrace := s.busTrace ++ readOpening order a } := by
  cases order <;> simp [readOpening, emitAll, emit]

/-- `readByte` (R102): it samples with the address driven and both enables asserted, and leaves output-enable
deasserted; nothing else changes but the chip, the count of free samples and the traces. -/
theorem readByte_spec (a : Word) (s : State) :
    ∃ v n, readByte a s = (v, { s with
      addr := busAddr s.params.addrWidth a
      oe := .deasserted
      ce := .asserted
      dev := (s.dev.answer .read (busAddr s.params.addrWidth a)).2
      draws := n
      busTrace := s.busTrace ++ cycleEvents s.params.readOrder (.rd (busAddr s.params.addrWidth a) v)
      cycleTrace := s.cycleTrace ++ [.rd (busAddr s.params.addrWidth a) v] }) := by
  unfold readByte takeSample
  simp only [readOpening_effect]
  obtain ⟨v, n, hs⟩ := sample_spec .read (emit (.delay .tOeValid)
    { s with addr := busAddr s.params.addrWidth a, oe := .asserted, ce := .asserted,
             busTrace := s.busTrace ++ readOpening s.params.readOrder (busAddr s.params.addrWidth a) })
  simp only [hs]
  refine ⟨v, n, ?_⟩
  simp [emit, record, chipDrives, cycleEvents]

/-- `readByte` from a test device that holds the byte: it returns it and leaves the device as it is (R66). -/
theorem readByte_test {a : Word} {s : State} {t : TestDevice} {v : Byte} (hd : s.dev = .test t)
    (hv : t.readAt (busAddr s.params.addrWidth a) = some v) :
    readByte a s = (v, { s with
      addr := busAddr s.params.addrWidth a
      oe := .deasserted
      ce := .asserted
      busTrace := s.busTrace ++ cycleEvents s.params.readOrder (.rd (busAddr s.params.addrWidth a) v)
      cycleTrace := s.cycleTrace ++ [.rd (busAddr s.params.addrWidth a) v] }) := by
  unfold readByte takeSample
  simp only [readOpening_effect]
  rw [sample_answered (v := v) (d := .test t) (by simp [chipDrives, emit]) (by simp [emit, hd, Dev.answer, hv])]
  simp [emit, record, cycleEvents, hd]

/-- `writeByte` (R103): the chip, if selected, latches the byte at the address; the block drives nothing afterwards. -/
theorem writeByte_eq (a : Word) (v : Byte) (s : State) :
    writeByte a v s = { s with
      addr := busAddr s.params.addrWidth a
      dir := .input
      dout := v
      we := .deasserted
      dev := if s.ce = .asserted then s.dev.latch (busAddr s.params.addrWidth a) v else s.dev
      busTrace := s.busTrace ++ cycleEvents s.params.readOrder (.wr (busAddr s.params.addrWidth a) v)
      cycleTrace := s.cycleTrace ++ [.wr (busAddr s.params.addrWidth a) v] } := by
  unfold writeByte
  simp only [emitAll, setAddress, emit, latchWrite, record]
  split <;> simp_all [cycleEvents]

/-- `pollCycle` (R104): it samples at the address already driven. -/
theorem pollCycle_spec (s : State) :
    ∃ v n, pollCycle s = (v, { s with
      oe := .deasserted
      dev := if s.ce = .asserted then (s.dev.answer .poll s.addr).2 else s.dev
      draws := n
      busTrace := s.busTrace ++ cycleEvents s.params.readOrder (.poll s.addr v)
      cycleTrace := s.cycleTrace ++ [.poll s.addr v] }) := by
  unfold pollCycle takeSample
  obtain ⟨v, n, hs⟩ := sample_spec .poll (emit (.delay .tOeValid) (emit (.oe .asserted) s))
  simp only [hs]
  refine ⟨v, n, ?_⟩
  simp [emit, record, chipDrives, cycleEvents]

/-- `pollCycle` where the chip, selected, gives the answer. -/
theorem pollCycle_answered {s : State} {v : Byte} {d : Dev} (hc : s.ce = .asserted)
    (ha : s.dev.answer .poll s.addr = (some v, d)) :
    pollCycle s = (v, { s with
      oe := .deasserted
      dev := d
      busTrace := s.busTrace ++ cycleEvents s.params.readOrder (.poll s.addr v)
      cycleTrace := s.cycleTrace ++ [.poll s.addr v] }) := by
  unfold pollCycle takeSample
  rw [sample_answered (v := v) (d := d) (by simp [chipDrives, emit, hc]) (by simp [emit, ha])]
  simp [emit, record, cycleEvents]

end Sys2Proof.Machine
end

