-- ==== Sys2Proof/Laws/Engine.lean ====
section
/-! SUPPORT. What the bus operations, the programming engine, the page buffer and the reading loops can do, each said
once, in one relation: the cycles performed, the frame, and what becomes of the target chip. -/

namespace Sys2Proof.Machine

/-! ## Cycle lists -/

@[simp] theorem expand_nil (order : ReadOrder) : expand order [] = [] := rfl

@[simp] theorem expand_append (order : ReadOrder) (c d : List Cycle) :
    expand order (c ++ d) = expand order c ++ expand order d := by simp [expand]

@[simp] theorem expand_cons (order : ReadOrder) (c : Cycle) (d : List Cycle) :
    expand order (c :: d) = cycleEvents order c ++ expand order d := by simp [expand]

theorem lastWriteTo_append (a : Word) (c d : List Cycle) :
    lastWriteTo a (c ++ d) = (lastWriteTo a d).or (lastWriteTo a c) := by
  induction c with
  | nil => simp [lastWriteTo]
  | cons x rest ih =>
    simp only [List.cons_append, lastWriteTo, ih]
    cases lastWriteTo a d <;> cases lastWriteTo a rest <;> simp

/-! ## Addresses -/

theorem busAddr_lt {w : Nat} (a : Word) : (busAddr w a).toNat < 2 ^ w := by
  have h1 : a.toNat % 2 ^ w < 2 ^ w := Nat.mod_lt _ (by positivity)
  have h2 : a.toNat % 2 ^ w ≤ a.toNat := Nat.mod_le _ _
  have h3 := a.isLt
  simp only [busAddr, BitVec.toNat_ofNat]
  rw [Nat.mod_eq_of_lt (by omega)]
  exact h1

theorem busAddr_small {w : Nat} (hw : 16 ≤ w) {a : Word} (ha : a.toNat < 65536) : busAddr w a = a := by
  have : (65536 : Nat) ≤ 2 ^ w := by
    calc (65536 : Nat) = 2 ^ 16 := by norm_num
      _ ≤ 2 ^ w := Nat.pow_le_pow_right (by norm_num) hw
  apply BitVec.eq_of_toNat_eq
  simp only [busAddr, BitVec.toNat_ofNat]
  rw [Nat.mod_eq_of_lt (by omega : a.toNat < 2 ^ w)]
  have := a.isLt
  omega

/-! ## Bus activity -/

/-- What a piece of bus activity does: its cycles, the frame (everything else, the control lines too), the chip's form,
and a test device's memory, which is changed by the write cycles and by nothing else. -/
structure BusEffect (cycles : List Cycle) (s t : State) : Prop where
  run : busCycles cycles s t
  addr : s.addr.toNat < 2 ^ s.params.addrWidth → t.addr.toNat < 2 ^ s.params.addrWidth
  chip : s.dev.wf = true → t.dev.wf = true
  test : t.dev.isTest = s.dev.isTest
  mem : s.dev.wf = true → s.dev.isTest = true →
    ∀ a, storedByte t.dev a = (lastWriteTo a cycles).or (storedByte s.dev a)

theorem busFrame_refl (s : State) : busFrame s s := rfl

theorem busFrame_trans {s t u : State} (h1 : busFrame s t) (h2 : busFrame t u) : busFrame s u := by
  unfold busFrame at *
  rw [h2, h1]

/-- The frame, field by field. -/
theorem busFrame_fields {s t : State} (h : busFrame s t) :
    t.params = s.params ∧ t.session = s.session ∧ t.line = s.line ∧ t.opcode = s.opcode ∧ t.startAddr = s.startAddr
      ∧ t.endAddr = s.endAddr ∧ t.fillField = s.fillField ∧ t.binCount = s.binCount ∧ t.binIndex = s.binIndex
      ∧ t.strategy = s.strategy ∧ t.dir = s.dir ∧ t.ce = s.ce ∧ t.oe = s.oe ∧ t.we = s.we
      ∧ t.pageBuffer = s.pageBuffer ∧ t.linkIn = s.linkIn ∧ t.linkOut = s.linkOut ∧ t.faultMark = s.faultMark
      ∧ t.wait = s.wait := by
  unfold busFrame at h
  rw [h]
  simp

theorem busFrame_linesIdle {s t : State} (h : busFrame s t) : linesIdle t = linesIdle s := by
  unfold busFrame at h
  rw [h]
  rfl

theorem busFrame_params {s t : State} (h : busFrame s t) : t.params = s.params := (busFrame_fields h).1

theorem BusEffect.refl (s : State) : BusEffect [] s s where
  run := ⟨rfl, by simp, by simp⟩
  addr := id
  chip := id
  test := rfl
  mem := by simp [lastWriteTo]

theorem BusEffect.trans {c d : List Cycle} {s t u : State} (h1 : BusEffect c s t) (h2 : BusEffect d t u) :
    BusEffect (c ++ d) s u where
  run := by
    have hp := busFrame_params h1.run.1
    refine ⟨busFrame_trans h1.run.1 h2.run.1, ?_, ?_⟩
    · rw [h2.run.2.1, h1.run.2.1, List.append_assoc]
    · rw [h2.run.2.2, h1.run.2.2, hp, expand_append, List.append_assoc]
  addr := by
    have hp := busFrame_params h1.run.1
    intro h
    have := h2.addr
    rw [hp] at this
    exact this (h1.addr h)
  chip := fun h => h2.chip (h1.chip h)
  test := h2.test.trans h1.test
  mem := by
    intro h ht a
    rw [h2.mem (h1.chip h) (h1.test.trans ht), h1.mem h ht, lastWriteTo_append, Option.or_assoc]

theorem BusEffect.linesIdle {c : List Cycle} {s t : State} (h : BusEffect c s t) :
    Machine.linesIdle t = Machine.linesIdle s := busFrame_linesIdle h.run.1

theorem BusEffect.params {c : List Cycle} {s t : State} (h : BusEffect c s t) : t.params = s.params :=
  busFrame_params h.run.1

/-- An effect in the words of the claims. -/
theorem BusEffect.busRun {c : List Cycle} {s t : State} (h : BusEffect c s t) : Machine.busRun c s t :=
  ⟨h.run, fun ht hw => h.mem hw ht⟩

theorem linesIdle_iff {s : State} :
    linesIdle s = true ↔ s.dir = .input ∧ s.oe = .deasserted ∧ s.we = .deasserted ∧ s.ce = .asserted := by
  simp [linesIdle, and_assoc]

/-- `writeByte` between bus operations is one write cycle, and the chip latches it (R103). -/
theorem writeByte_effect {s : State} (h : linesIdle s = true) (a : Word) (v : Byte) :
    BusEffect [.wr (busAddr s.params.addrWidth a) v] s (writeByte a v s) := by
  obtain ⟨hd, ho, hw, hc⟩ := linesIdle_iff.mp h
  have he := writeByte_eq a v s
  simp only [hc, if_true] at he
  constructor
  · refine ⟨?_, ?_, ?_⟩
    · unfold busFrame
      simp [he, hd, hw, hc]
    · rw [he]
    · simp [he, expand]
  · intro _
    rw [he]
    exact busAddr_lt a
  · intro hf
    rw [he]
    exact Dev.latch_wf hf _ _
  · rw [he]
    exact Dev.latch_isTest _ _ _
  · intro hf ht b
    rw [he]
    rw [storedByte_latch hf ht]
    simp only [lastWriteTo]
    split <;> simp

/-- The chip after `writeByte` between bus operations. -/
theorem writeByte_dev {s : State} (h : linesIdle s = true) (a : Word) (v : Byte) :
    (writeByte a v s).dev = s.dev.latch (busAddr s.params.addrWidth a) v := by
  rw [writeByte_eq, if_pos (linesIdle_iff.mp h).2.2.2]

@[simp] theorem writeByte_addr (a : Word) (v : Byte) (s : State) :
    (writeByte a v s).addr = busAddr s.params.addrWidth a := by rw [writeByte_eq]

/-- `readByte` between bus operations is one read cycle (R102). -/
theorem readByte_effect {s : State} (h : linesIdle s = true) (a : Word) :
    BusEffect [.rd (busAddr s.params.addrWidth a) (readByte a s).1] s (readByte a s).2 := by
  obtain ⟨hd, ho, hw, hc⟩ := linesIdle_iff.mp h
  obtain ⟨v, n, he⟩ := readByte_spec a s
  rw [he]
  constructor
  · refine ⟨?_, rfl, by simp [expand]⟩
    unfold busFrame
    simp [ho, hc]
  · intro _
    exact busAddr_lt a
  · intro hf
    exact Dev.answer_wf hf _ _
  · exact Dev.answer_isTest _ _ _
  · intro hf ht b
    simp only [lastWriteTo]
    rw [storedByte_answer]
    simp

/-- `pollCycle` between bus operations is one poll cycle at the address driven (R104). -/
theorem pollCycle_effect {s : State} (h : linesIdle s = true) :
    BusEffect [.poll s.addr (pollCycle s).1] s (pollCycle s).2 := by
  obtain ⟨hd, ho, hw, hc⟩ := linesIdle_iff.mp h
  obtain ⟨v, n, he⟩ := pollCycle_spec s
  rw [he]
  simp only [hc, if_true]
  constructor
  · refine ⟨?_, rfl, by simp [expand]⟩
    unfold busFrame
    simp [ho, hc]
  · exact id
  · intro hf
    exact Dev.answer_wf hf _ _
  · exact Dev.answer_isTest _ _ _
  · intro hf ht b
    simp only [lastWriteTo]
    rw [storedByte_answer]
    simp

/-- An engine delay is one entry of both traces. -/
theorem engineDelay_effect (t : DelayName) (s : State) : BusEffect [.delay t] s (engineDelay t s) where
  run := ⟨rfl, rfl, rfl⟩
  addr := id
  chip := id
  test := rfl
  mem := by simp [lastWriteTo]

/-! ## Sequences of writes -/

/-- `WriteSeq` (R123): its writes in order and nothing else. -/
theorem writeSeq_effect {s : State} (h : linesIdle s = true) (steps : List (Word × Byte)) :
    BusEffect (writeCycles s.params.addrWidth steps) s (writeSeq steps s) := by
  induction steps generalizing s with
  | nil => exact BusEffect.refl s
  | cons x rest ih =>
    have h1 := writeByte_effect h x.1 x.2
    have h2 := ih (s := writeByte x.1 x.2 s) (h1.linesIdle.trans h)
    rw [h1.params] at h2
    exact h1.trans h2

theorem spanAddr_succ (a : Word) (i : Nat) : spanAddr (a + 1#32) i = spanAddr a (i + 1) := by
  simp only [spanAddr]
  rw [BitVec.add_assoc]
  congr 1
  apply BitVec.eq_of_toNat_eq
  simp [BitVec.toNat_add, BitVec.toNat_ofNat, Nat.add_comm]

@[simp] theorem spanAddr_zero (a : Word) : spanAddr a 0 = a := by simp [spanAddr]

theorem spanAddr_one (a : Word) : spanAddr a 1 = a + 1#32 := by simp [spanAddr]

theorem spanAddr_add (a : Word) (i j : Nat) : spanAddr (spanAddr a i) j = spanAddr a (i + j) := by
  simp only [spanAddr, BitVec.add_assoc]
  congr 1
  apply BitVec.eq_of_toNat_eq
  simp [BitVec.toNat_add, BitVec.toNat_ofNat]

/-- A map over the bytes of a span with their offsets, one byte taken off the front. -/
theorem zipIdx_span_cons {α β : Type} (f : Word → α → β) (a : Word) (v : α) (rest : List α) :
    ((v :: rest).zipIdx.map fun vi => f (spanAddr a vi.2) vi.1)
      = f a v :: (rest.zipIdx.map fun vi => f (spanAddr (a + 1#32) vi.2) vi.1) := by
  simp only [List.zipIdx_cons, List.map_cons, spanAddr_zero, Nat.zero_add, List.cons.injEq, true_and]
  rw [List.zipIdx_succ, List.map_map]
  simp [Function.comp_def, spanAddr_succ]

theorem loadCycles_cons (w : Nat) (a : Word) (v : Byte) (rest : List Byte) :
    loadCycles w a (v :: rest) = .wr (busAddr w a) v :: loadCycles w (a + 1#32) rest :=
  zipIdx_span_cons (fun x y => Cycle.wr (busAddr w x) y) a v rest

theorem readCycles_cons (w : Nat) (a : Word) (v : Byte) (rest : List Byte) :
    readCycles w a (v :: rest) = .rd (busAddr w a) v :: readCycles w (a + 1#32) rest :=
  zipIdx_span_cons (fun x y => Cycle.rd (busAddr w x) y) a v rest

theorem flashCycles_cons (w : Nat) (a : Word) (v : Byte) (rest : List Byte) :
    flashCycles w a (v :: rest)
      = [.wr 0x5555#32 0xAA#8, .wr 0x2AAA#32 0x55#8, .wr 0x5555#32 0xA0#8, .wr (busAddr w a) v, .delay .tFlashByte]
        ++ flashCycles w (a + 1#32) rest := by
  have h := zipIdx_span_cons (fun x y => [Cycle.wr 0x5555#32 0xAA#8, .wr 0x2AAA#32 0x55#8, .wr 0x5555#32 0xA0#8,
    .wr (busAddr w x) y, .delay .tFlashByte]) a v rest
  simp only [flashCycles, ← List.flatMap_map] at *
  have h2 := congrArg List.flatten h
  simpa [List.flatMap_def, Function.comp_def] using h2

/-- A page load (R121): one write cycle per byte, ascending. -/
theorem writeSpan_effect {s : State} (h : linesIdle s = true) (a : Word) (bytes : List Byte) :
    BusEffect (loadCycles s.params.addrWidth a bytes) s (writeSpan a bytes s) := by
  induction bytes generalizing s a with
  | nil => exact BusEffect.refl s
  | cons v rest ih =>
    have h1 := writeByte_effect h a v
    have h2 := ih (s := writeByte a v s) (h1.linesIdle.trans h) (a + 1#32)
    rw [h1.params] at h2
    rw [loadCycles_cons]
    exact h1.trans h2

theorem writeSpan_append (a : Word) (xs ys : List Byte) (s : State) :
    writeSpan a (xs ++ ys) s = writeSpan (spanAddr a xs.length) ys (writeSpan a xs s) := by
  induction xs generalizing a s with
  | nil => simp [writeSpan]
  | cons v rest ih => simp [writeSpan, ih, spanAddr_succ]

/-- After a page load the address lines hold the address of its last byte (R105, R121). -/
theorem writeSpan_addr {s : State} (h : linesIdle s = true) (a : Word) {bytes : List Byte} (hb : bytes ≠ []) :
    (writeSpan a bytes s).addr = busAddr s.params.addrWidth (spanAddr a (bytes.length - 1)) := by
  obtain ⟨xs, v, rfl⟩ := List.eq_nil_or_concat bytes |>.resolve_left hb
  rw [List.concat_eq_append]
  rw [writeSpan_append]
  have h1 := writeSpan_effect h a xs
  simp [writeSpan, h1.params]

/-! ## Flash -/

theorem writeCycles_flashUnlock {w : Nat} (hw : 16 ≤ w) :
    writeCycles w flashUnlock = [.wr 0x5555#32 0xAA#8, .wr 0x2AAA#32 0x55#8, .wr 0x5555#32 0xA0#8] := by
  have h1 : busAddr w 0x5555#32 = 0x5555#32 := busAddr_small hw (by decide)
  have h2 : busAddr w 0x2AAA#32 = 0x2AAA#32 := busAddr_small hw (by decide)
  simp [writeCycles, flashUnlock, unlockA1, unlockA2, h1, h2]

/-- One Flash byte (R122). -/
theorem flashByteProgram_effect {s : State} (h : linesIdle s = true) (hw : 16 ≤ s.params.addrWidth) (a : Word)
    (v : Byte) :
    BusEffect [.wr 0x5555#32 0xAA#8, .wr 0x2AAA#32 0x55#8, .wr 0x5555#32 0xA0#8, .wr (busAddr s.params.addrWidth a) v,
      .delay .tFlashByte] s (flashByteProgram a v s) := by
  have h1 := writeSeq_effect h flashUnlock
  have h2 := writeByte_effect (h1.linesIdle.trans h) a v
  have h3 := h1.trans (h2.trans (engineDelay_effect .tFlashByte _))
  rw [writeCycles_flashUnlock hw, h1.params] at h3
  exact h3

/-- A Flash commit (R122). -/
theorem commitFlash_effect {s : State} (h : linesIdle s = true) (hw : 16 ≤ s.params.addrWidth) (a : Word)
    (bytes : List Byte) :
    BusEffect (flashCycles s.params.addrWidth a bytes) s (commitFlash a bytes s) := by
  induction bytes generalizing s a with
  | nil => exact BusEffect.refl s
  | cons v rest ih =>
    have h1 := flashByteProgram_effect h hw a v
    have h2 := ih (s := flashByteProgram a v s) (h1.linesIdle.trans h) (by rw [h1.params]; exact hw) (a + 1#32)
    rw [h1.params] at h2
    rw [flashCycles_cons]
    exact h1.trans h2

/-! ## Polling -/

/-- One turn of the wait (R105): one poll cycle, and the wait ends exactly when the sampled byte is the awaited one. -/
theorem pollOnce_effect {s : State} (h : linesIdle s = true) (w : PollWait) :
    ∃ v, BusEffect [.poll s.addr v] { s with wait := (pollOnce w s).wait } (pollOnce w s)
      ∧ (pollOnce w s).wait = if v = w.expect then none else some { w with polls := w.polls + 1 } := by
  have hp := pollCycle_effect (s := { s with wait := some w }) h
  refine ⟨(pollCycle { s with wait := some w }).1, ?_, ?_⟩
  · have hf := hp.run.1
    constructor
    · refine ⟨?_, ?_, ?_⟩
      · unfold busFrame at hf ⊢
        unfold pollOnce
        simp only
        rw [hf]
      · exact hp.run.2.1
      · exact hp.run.2.2
    · exact hp.addr
    · exact hp.chip
    · exact hp.test
    · exact hp.mem
  · simp [pollOnce, pollMatches]

/-- One turn of the wait on a chip that has an answer: scripted, or a test device (R105, R47). -/
theorem pollOnce_answered {s : State} (h : linesIdle s = true) {v : Byte} {d : Dev}
    (ha : s.dev.answer .poll s.addr = (some v, d)) (w : PollWait) :
    pollOnce w s = { s with
      dev := d
      busTrace := s.busTrace ++ cycleEvents s.params.readOrder (.poll s.addr v)
      cycleTrace := s.cycleTrace ++ [.poll s.addr v]
      wait := if v = w.expect then none else some { w with polls := w.polls + 1 } } := by
  unfold pollOnce
  rw [pollCycle_answered (s := { s with wait := some w }) (v := v) (d := d) (linesIdle_iff.mp h).2.2.2 (by simpa using ha)]
  simp [pollMatches, (linesIdle_iff.mp h).2.1]

/-- The cycles of a fill, its first address taken off the front (R190). -/
theorem fillCycles_succ (addrWidth busy : Nat) (a : Word) (v : Byte) (count : Nat) :
    fillCycles addrWidth busy a v (count + 1)
      = .wr (busAddr addrWidth a) v :: List.replicate busy (.poll (busAddr addrWidth a) (v ^^^ 0x80#8))
          ++ [.poll (busAddr addrWidth a) v] ++ fillCycles addrWidth busy (a + 1#32) v count := by
  simp [fillCycles, List.range_succ_eq_map, List.flatMap_map, spanAddr_succ]

/-! ## The page buffer -/

/-- The payload lands in order from an index on, and no other entry changes (R141). -/
theorem storePayload_read {m : Memory} (h : m.unlisted = none) (i : Nat) (bytes : List Byte) (j : Nat) :
    (storePayload i bytes m).read j
      = if i ≤ j ∧ j < i + bytes.length ∧ j < pageCap then bytes[j - i]? else m.read j := by
  induction bytes generalizing m i with
  | nil =>
    simp only [storePayload, List.length_nil]
    rw [if_neg (by omega)]
  | cons b rest ih =>
    simp only [storePayload]
    have hm : (if i < pageCap then m.write i b else m).unlisted = none := by split <;> simp [h]
    rw [ih hm]
    by_cases hj : i + 1 ≤ j ∧ j < i + 1 + rest.length ∧ j < pageCap
    · have he : j - i = (j - (i + 1)) + 1 := by omega
      rw [if_pos hj, if_pos ⟨by omega, by simp only [List.length_cons]; omega, hj.2.2⟩, he, List.getElem?_cons_succ]
    · rw [if_neg hj]
      by_cases hi : i < pageCap
      · rw [if_pos hi, Memory.read_write_of_none h]
        by_cases hij : i = j
        · subst hij
          rw [if_pos rfl, if_pos ⟨le_refl i, by simp, hi⟩]
          simp
        · rw [if_neg hij, if_neg (by simp only [List.length_cons]; omega)]
      · rw [if_neg hi, if_neg (by simp only [List.length_cons]; omega)]

theorem storePayload_unlisted (i : Nat) (bytes : List Byte) (m : Memory) :
    (storePayload i bytes m).unlisted = m.unlisted := by
  induction bytes generalizing m i with
  | nil => rfl
  | cons b rest ih =>
    simp only [storePayload, ih]
    split <;> simp

/-- The page buffer keeps its form (R25, R140). -/
theorem storePayload_ok {m : Memory} (h : bufferOk m = true) (i : Nat) (bytes : List Byte) :
    bufferOk (storePayload i bytes m) = true := by
  induction bytes generalizing m i with
  | nil => exact h
  | cons b rest ih =>
    simp only [storePayload]
    apply ih
    simp only [bufferOk, Bool.and_eq_true, beq_iff_eq] at h ⊢
    split
    · rename_i hi
      exact ⟨⟨Memory.write_wf h.1.1 _ _, by simp [h.1.2]⟩, Memory.write_below h.2 hi _⟩
    · exact h

/-- `bufferPrefix` answers exactly when every entry below the count holds a value, and then with those values (R142). -/
theorem bufferPrefix_eq_some {m : Memory} {count : Nat} {bytes : List Byte} :
    bufferPrefix m count = some bytes ↔ bytes.length = count ∧ ∀ i (h : i < bytes.length), m.read i = some bytes[i] := by
  induction count generalizing bytes with
  | zero =>
    simp only [bufferPrefix, Option.some.injEq]
    constructor
    · rintro rfl
      simp
    · rintro ⟨h, -⟩
      exact (List.length_eq_zero_iff.mp h).symm
  | succ n ih =>
    simp only [bufferPrefix]
    constructor
    · intro h
      split at h
      · rename_i xs b hx hb
        obtain ⟨hl, hv⟩ := ih.mp hx
        simp only [Option.some.injEq] at h
        subst h
        refine ⟨by simp [hl], fun i hi => ?_⟩
        simp only [List.length_append, List.length_cons, List.length_nil, Nat.zero_add] at hi
        by_cases hlt : i < xs.length
        · rw [List.getElem_append_left hlt]
          exact hv i hlt
        · have : i = xs.length := by omega
          subst this
          simp [hl, hb]
      · cases h
    · rintro ⟨hl, hv⟩
      obtain ⟨xs, b, rfl⟩ := List.eq_nil_or_concat bytes |>.resolve_left (by rintro rfl; simp at hl)
      simp only [List.concat_eq_append, List.length_append, List.length_cons, List.length_nil, Nat.zero_add,
        Nat.add_right_cancel_iff] at hl
      have h1 : bufferPrefix m n = some xs := by
        refine ih.mpr ⟨hl, fun i hi => ?_⟩
        have := hv i (by simp; omega)
        simpa [List.getElem_append_left hi] using this
      have h2 : m.read n = some b := by
        have := hv n (by simp; omega)
        simpa [hl] using this
      simp [h1, h2]

/-! ## Reading loops -/

/-- `readSpan` (R180): one read cycle per address, ascending, each once. -/
theorem readSpan_effect {s : State} (h : linesIdle s = true) (count : Nat) (a : Word) :
    (readSpan count a s).1.length = count ∧
      BusEffect (readCycles s.params.addrWidth a (readSpan count a s).1) s (readSpan count a s).2 := by
  induction count generalizing s a with
  | zero => exact ⟨rfl, BusEffect.refl s⟩
  | succ n ih =>
    have h1 := readByte_effect h a
    obtain ⟨hl, h2⟩ := ih (s := (readByte a s).2) (h1.linesIdle.trans h) (a + 1#32)
    rw [h1.params] at h2
    refine ⟨by simp [readSpan, hl], ?_⟩
    simp only [readSpan, readCycles_cons]
    exact h1.trans h2

/-! ## Effects under the fields a command writes beside the bus -/

/-- Bus activity does not depend on the link output. -/
theorem BusEffect.map_linkOut {c : List Cycle} {s t : State} (h : BusEffect c s t) (out : List Byte) :
    BusEffect c { s with linkOut := out } { t with linkOut := out } := by
  have hf := h.run.1
  constructor
  · refine ⟨?_, h.run.2.1, h.run.2.2⟩
    unfold busFrame at hf ⊢
    rw [hf]
  · exact h.addr
  · exact h.chip
  · exact h.test
  · exact h.mem

/-- Bus activity does not depend on the control position. -/
theorem BusEffect.map_wait {c : List Cycle} {s t : State} (h : BusEffect c s t) (w : Option PollWait) :
    BusEffect c { s with wait := w } { t with wait := w } := by
  have hf := h.run.1
  constructor
  · refine ⟨?_, h.run.2.1, h.run.2.2⟩
    unfold busFrame at hf ⊢
    rw [hf]
  · exact h.addr
  · exact h.chip
  · exact h.test
  · exact h.mem

/-- `bufferPrefix` answers exactly when every entry below the count holds a value. -/
theorem bufferPrefix_isSome {m : Memory} {count : Nat} :
    (bufferPrefix m count).isSome = true ↔ ∀ i, i < count → (m.read i).isSome = true := by
  induction count with
  | zero => simp [bufferPrefix]
  | succ n ih =>
    have : (bufferPrefix m (n + 1)).isSome = true ↔ (bufferPrefix m n).isSome = true ∧ (m.read n).isSome = true := by
      simp only [bufferPrefix]
      cases bufferPrefix m n <;> cases m.read n <;> simp
    rw [this, ih]
    constructor
    · rintro ⟨h1, h2⟩ i hi
      rcases Nat.lt_succ_iff_lt_or_eq.mp hi with h | rfl
      · exact h1 i h
      · exact h2
    · intro h
      exact ⟨fun i hi => h i (by omega), h n (by omega)⟩

/-- Collecting keeps the entries received so far readable, and makes the new ones readable (R141). -/
theorem storePayload_held {m : Memory} (hu : m.unlisted = none) {i : Nat} (bytes : List Byte)
    (h : (bufferPrefix m (min i pageCap)).isSome = true) :
    (bufferPrefix (storePayload i bytes m) (min (i + bytes.length) pageCap)).isSome = true := by
  rw [bufferPrefix_isSome] at h ⊢
  intro j hj
  rw [storePayload_read hu]
  split
  · rename_i hc
    rw [List.getElem?_eq_getElem (by omega)]; rfl
  · exact h j (by omega)


/-- The page buffer after reset is in canonical form. -/
theorem reset_pageBuffer_ok : bufferOk State.reset.pageBuffer = true := by decide

end Sys2Proof.Machine
end

