-- ==== Sys2Proof/Laws/Commands.lean ====
section
/-! SUPPORT. What a commit, a fill, the reading commands and every instruction can do to the bus, said once: some cycles,
and a frame that names the fields the instruction writes beside the bus. -/

namespace Sys2Proof.Machine

/-! ## Moving a field under bus activity -/

/-- Bus activity from `s` to `t` in which the fields a command may write beside the bus are first set to the values they
have in `t`. -/
def ownFields (s t : State) : State :=
  { s with
    session := t.session
    startAddr := t.startAddr
    binCount := t.binCount
    binIndex := t.binIndex
    strategy := t.strategy
    pageBuffer := t.pageBuffer
    linkIn := t.linkIn
    linkOut := t.linkOut
    faultMark := t.faultMark
    wait := t.wait }

/-- What any command does: cycles on the bus from the state with its own fields written. -/
def OwnEffect (cycles : List Cycle) (s t : State) : Prop := BusEffect cycles (ownFields s t) t

@[simp] theorem ownFields_params (s t : State) : (ownFields s t).params = s.params := rfl
@[simp] theorem ownFields_dev (s t : State) : (ownFields s t).dev = s.dev := rfl
@[simp] theorem ownFields_addr (s t : State) : (ownFields s t).addr = s.addr := rfl
@[simp] theorem ownFields_cycleTrace (s t : State) : (ownFields s t).cycleTrace = s.cycleTrace := rfl
@[simp] theorem ownFields_busTrace (s t : State) : (ownFields s t).busTrace = s.busTrace := rfl
@[simp] theorem linesIdle_ownFields (s t : State) : linesIdle (ownFields s t) = linesIdle s := rfl

/-- Bus activity alone writes no field of its own. -/
theorem BusEffect.own {c : List Cycle} {s t : State} (h : BusEffect c s t) : OwnEffect c s t := by
  have he : ownFields s t = s := by
    have hf := h.run.1
    unfold busFrame at hf
    rw [hf]
    rfl
  unfold OwnEffect
  rw [he]
  exact h

theorem OwnEffect.params {c : List Cycle} {s t : State} (h : OwnEffect c s t) : t.params = s.params :=
  BusEffect.params (s := ownFields s t) h

theorem OwnEffect.linesIdle {c : List Cycle} {s t : State} (h : OwnEffect c s t) :
    Machine.linesIdle t = Machine.linesIdle s :=
  BusEffect.linesIdle (s := ownFields s t) h

/-- Effects compose when the first one starts from a state that differs only in own fields. -/
theorem OwnEffect.trans {c d : List Cycle} {s t u : State} (h1 : OwnEffect c s t) (h2 : OwnEffect d t u) :
    OwnEffect (c ++ d) s u := by
  unfold OwnEffect at *
  have h1' : BusEffect c (ownFields s u) (ownFields t u) := by
    have hf := h1.run.1
    constructor
    · refine ⟨?_, h1.run.2.1, h1.run.2.2⟩
      unfold busFrame at hf ⊢
      conv_lhs => rw [hf]
      rfl
    · exact h1.addr
    · exact h1.chip
    · exact h1.test
    · exact h1.mem
  exact h1'.trans h2

/-- Writing own fields before or after is no bus activity. -/
theorem OwnEffect.of_fields {s t : State} (h : t = ownFields s t) : OwnEffect [] s t := by
  unfold OwnEffect
  rw [← h]
  exact BusEffect.refl t

/-- The control lines and the traces of an effect. -/
theorem OwnEffect.cycleTrace {c : List Cycle} {s t : State} (h : OwnEffect c s t) :
    t.cycleTrace = s.cycleTrace ++ c := h.run.2.1

theorem OwnEffect.busTrace {c : List Cycle} {s t : State} (h : OwnEffect c s t) :
    t.busTrace = s.busTrace ++ expand s.params.readOrder c := h.run.2.2

/-- The fields no command writes. -/
theorem OwnEffect.fields {c : List Cycle} {s t : State} (h : OwnEffect c s t) :
    t.line = s.line ∧ t.opcode = s.opcode ∧ t.endAddr = s.endAddr ∧ t.fillField = s.fillField := by
  have hf := busFrame_fields h.run.1
  exact ⟨hf.2.2.1, hf.2.2.2.1, hf.2.2.2.2.2.1, hf.2.2.2.2.2.2.1⟩

/-! ## Commits and fills -/

/-- One Flash byte, whatever the width of the address bus (R122). -/
theorem flashByteProgram_cycles {s : State} (h : linesIdle s = true) (a : Word) (v : Byte) :
    ∃ c, BusEffect c s (flashByteProgram a v s) := by
  have h1 := writeSeq_effect h flashUnlock
  exact ⟨_, h1.trans ((writeByte_effect (h1.linesIdle.trans h) a v).trans (engineDelay_effect .tFlashByte _))⟩

/-- A Flash commit, whatever the width of the address bus (R122). -/
theorem commitFlash_cycles {s : State} (h : linesIdle s = true) (a : Word) (bytes : List Byte) :
    ∃ c, BusEffect c s (commitFlash a bytes s) := by
  induction bytes generalizing s a with
  | nil => exact ⟨[], BusEffect.refl s⟩
  | cons v rest ih =>
    obtain ⟨c, h1⟩ := flashByteProgram_cycles h a v
    obtain ⟨d, h2⟩ := ih (s := flashByteProgram a v s) (h1.linesIdle.trans h) (a + 1#32)
    exact ⟨c ++ d, h1.trans h2⟩

theorem BusEffect.wait {c : List Cycle} {s t : State} (h : BusEffect c s t) : t.wait = s.wait := by
  have hf := h.run.1
  unfold busFrame at hf
  rw [hf]

theorem BusEffect.linkOut {c : List Cycle} {s t : State} (h : BusEffect c s t) : t.linkOut = s.linkOut := by
  have hf := h.run.1
  unfold busFrame at hf
  rw [hf]

theorem BusEffect.session {c : List Cycle} {s t : State} (h : BusEffect c s t) : t.session = s.session := by
  have hf := h.run.1
  unfold busFrame at hf
  rw [hf]

theorem BusEffect.strategy {c : List Cycle} {s t : State} (h : BusEffect c s t) : t.strategy = s.strategy := by
  have hf := h.run.1
  unfold busFrame at hf
  rw [hf]

/-- A commit under FLASH (R120, R122). -/
theorem commit_flash {s : State} (h : s.strategy = .flash) (a : Word) (bytes : List Byte) (left : Nat) :
    commit a bytes left s = commitFlash a bytes s := by simp [commit, flashSelected, h]

/-- A commit under EEPROM (R120, R121). -/
theorem commit_eeprom {s : State} (h : s.strategy = .eeprom) (a : Word) (bytes : List Byte) (left : Nat) :
    commit a bytes left s = commitEeprom a bytes left s := by simp [commit, flashSelected, h]

/-- A commit under EEPROM of bytes ending in `last`: the load, then one poll at the last address (R121, R105). -/
theorem commitEeprom_effect {s : State} (h : linesIdle s = true) (a : Word) {bytes : List Byte} {last : Byte}
    (hb : bytes.getLast? = some last) (left : Nat) :
    ∃ v, BusEffect (loadCycles s.params.addrWidth a bytes
          ++ [.poll (busAddr s.params.addrWidth (spanAddr a (bytes.length - 1))) v])
        { s with wait := (commitEeprom a bytes left s).wait } (commitEeprom a bytes left s)
      ∧ (commitEeprom a bytes left s).wait
          = if v = last then none
            else some { expect := last, polls := 1, next := spanAddr a bytes.length, left := left } := by
  have h1 := writeSpan_effect h a bytes
  obtain ⟨v, h2, h3⟩ := pollOnce_effect (h1.linesIdle.trans h)
    { expect := last, polls := 0, next := spanAddr a bytes.length, left := left }
  have he : commitEeprom a bytes left s
      = pollOnce { expect := last, polls := 0, next := spanAddr a bytes.length, left := left } (writeSpan a bytes s) := by
    simp [commitEeprom, hb]
  rw [he, ← writeSpan_addr h a (by rintro rfl; simp at hb)]
  exact ⟨v, (h1.map_wait _).trans h2, h3⟩

/-- A commit writes no field beside the bus but the control position (R120 to R122). -/
theorem commit_effect {s : State} (h : linesIdle s = true) (a : Word) (bytes : List Byte) (left : Nat) :
    ∃ c, BusEffect c { s with wait := (commit a bytes left s).wait } (commit a bytes left s) := by
  by_cases hs : s.strategy = .flash
  · rw [commit_flash hs]
    obtain ⟨c, he⟩ := commitFlash_cycles h a bytes
    exact ⟨c, by rw [he.wait]; exact he⟩
  · rw [commit_eeprom (by cases hx : s.strategy <;> simp_all)]
    cases hb : bytes.getLast? with
    | none =>
      have he : commitEeprom a bytes left s = s := by simp [commitEeprom, hb]
      rw [he]
      exact ⟨[], BusEffect.refl s⟩
    | some last =>
      obtain ⟨v, he, -⟩ := commitEeprom_effect h a hb left
      exact ⟨_, he⟩

/-- A fill writes no field beside the bus but the control position (R190). -/
theorem fillFrom_effect {s : State} (h : linesIdle s = true) (v : Byte) (count : Nat) (a : Word) :
    ∃ c, BusEffect c { s with wait := (fillFrom v count a s).wait } (fillFrom v count a s) := by
  induction count generalizing s a with
  | zero => exact ⟨[], BusEffect.refl s⟩
  | succ n ih =>
    obtain ⟨c, h1⟩ := commit_effect h a [v] n
    simp only [fillFrom]
    split
    · exact ⟨c, h1⟩
    · obtain ⟨d, h2⟩ := ih (s := commit a [v] n s) (h1.linesIdle.trans h) (a + 1#32)
      exact ⟨c ++ d, (h1.map_wait _).trans h2⟩

/-- `answer` gives its state or, under a finite `POLL_LIMIT` used up, the outcome `hang`. -/
theorem answer_cases (limit : Option Nat) (s : State) :
    answer limit s = .next s
      ∨ (answer limit s = .fault .hang ∧ ∃ n w, limit = some n ∧ s.wait = some w ∧ n ≤ w.polls) := by
  unfold answer
  cases limit with
  | none => exact .inl rfl
  | some n =>
    simp only
    cases hw : s.wait with
    | none => exact .inl (by simp [pollsExhausted, hw])
    | some w =>
      by_cases hn : n ≤ w.polls
      · exact .inr ⟨by simp [pollsExhausted, hw, hn], n, w, rfl, rfl, hn⟩
      · exact .inl (by simp [pollsExhausted, hw, hn])

theorem answer_next {limit : Option Nat} {s t : State} (h : answer limit s = .next t) : t = s := by
  rcases answer_cases limit s with h1 | ⟨h1, -⟩
  · rw [h1] at h
    exact (Host.Outcome.next.inj h).symm
  · rw [h1] at h
    cases h

/-- A turn of a wait and what follows it (R105, R190): when it answers, the control position is the only field written. -/
theorem resumeWait_effect {s t : State} (h : linesIdle s = true) (w : PollWait) (ht : resumeWait w s = .next t) :
    ∃ c, BusEffect c { s with wait := t.wait } t := by
  obtain ⟨v, h1, -⟩ := pollOnce_effect h w
  have he := answer_next ht
  rw [he]
  clear he ht
  split
  · exact ⟨_, h1⟩
  · obtain ⟨d, h2⟩ := fillFrom_effect (h1.linesIdle.trans h) w.expect w.left w.next
    exact ⟨_, (h1.map_wait _).trans h2⟩

/-! ## Page writes -/

/-- The hand-over (R142): it waits, or commits the buffer's first bytes, or finds an entry absent. -/
theorem handOver_cases (s : State) :
    (s.binIndex < s.binCount ∧ handOver s = .next s)
      ∨ (s.binCount ≤ s.binIndex ∧ ∃ bytes, bufferPrefix s.pageBuffer (min s.binCount pageCap) = some bytes
          ∧ handOver s = answer s.params.pollLimit (commit s.startAddr bytes 0 { s with session := .executing }))
      ∨ (s.binCount ≤ s.binIndex ∧ bufferPrefix s.pageBuffer (min s.binCount pageCap) = none
          ∧ handOver s = .fault .absentBufferEntry) := by
  unfold handOver payloadComplete
  by_cases h : s.binCount ≤ s.binIndex
  · simp only [h, decide_true, if_true]
    cases hb : bufferPrefix s.pageBuffer (min s.binCount pageCap) with
    | none => exact .inr (.inr ⟨trivial, rfl, rfl⟩)
    | some bytes => exact .inr (.inl ⟨trivial, bytes, rfl, rfl⟩)
  · simp only [h, decide_false, Bool.false_eq_true, if_false]
    exact .inl ⟨by omega, trivial⟩

/-- A hand-over that answers writes no field beside the bus but the session and the control position. -/
theorem handOver_effect {s t : State} (h : linesIdle s = true) (ht : handOver s = .next t) :
    ∃ c, BusEffect c { s with session := t.session, wait := t.wait } t := by
  rcases handOver_cases s with ⟨-, h1⟩ | ⟨-, bytes, -, h1⟩ | ⟨-, -, h1⟩
  · rw [h1] at ht
    obtain rfl := Host.Outcome.next.inj ht
    exact ⟨[], BusEffect.refl s⟩
  · obtain ⟨c, he⟩ := commit_effect (s := { s with session := .executing }) h s.startAddr bytes 0
    rw [h1] at ht
    rw [answer_next ht, he.session]
    exact ⟨c, he⟩
  · rw [h1] at ht
    cases ht

/-! ## Reading commands -/

/-- `r`'s loop (R181): `count` bytes read at ascending addresses and emitted as sampled. -/
theorem streamBytes_effect {s : State} (h : linesIdle s = true) (count : Nat) (a : Word) :
    ∃ bytes : List Byte, bytes.length = count
      ∧ BusEffect (readCycles s.params.addrWidth a bytes) { s with linkOut := s.linkOut ++ bytes } (streamBytes count a s) := by
  induction count generalizing s a with
  | zero => exact ⟨[], rfl, by simpa [readCycles, streamBytes] using BusEffect.refl s⟩
  | succ n ih =>
    have h1 := readByte_effect h a
    obtain ⟨rest, hl, h2⟩ := ih (s := linkPut [(readByte a s).1] (readByte a s).2) (h1.linesIdle.trans h) (a + 1#32)
    refine ⟨(readByte a s).1 :: rest, by simp [hl], ?_⟩
    have hp : (linkPut [(readByte a s).1] (readByte a s).2).params = s.params := h1.params
    have ho : (linkPut [(readByte a s).1] (readByte a s).2).linkOut ++ rest = s.linkOut ++ (readByte a s).1 :: rest := by
      simp [linkPut, h1.linkOut]
    rw [congrArg Params.addrWidth hp, ho] at h2
    rw [readCycles_cons]
    exact (h1.map_linkOut (s.linkOut ++ (readByte a s).1 :: rest)).trans h2

/-- One row of `d` (R180, R182). -/
theorem dumpRow_effect {s : State} (h : linesIdle s = true) (base : Word) (count : Nat) :
    ∃ row : List Byte, row.length = count
      ∧ BusEffect (readCycles s.params.addrWidth base row) { s with linkOut := s.linkOut ++ rowLine s.params base row }
          (dumpRow base count s) := by
  obtain ⟨hl, h1⟩ := readSpan_effect h count base
  refine ⟨(readSpan count base s).1, hl, ?_⟩
  have h2 := h1.map_linkOut (s.linkOut ++ rowLine s.params base (readSpan count base s).1)
  have h3 : dumpRow base count s = { (readSpan count base s).2 with
      linkOut := s.linkOut ++ rowLine s.params base (readSpan count base s).1 } := by
    simp [dumpRow, putLine, linkPut, h1.linkOut, h1.params, rowLine, rowText, charSP]
  rw [h3]
  exact h2

/-- The rows of `d`, without their contents (R180). -/
theorem dumpRows_own {s : State} (h : linesIdle s = true) (start : Word) (length left : Nat) :
    ∃ c, OwnEffect c s (dumpRows start length left s) := by
  induction left generalizing s with
  | zero => exact ⟨[], OwnEffect.of_fields rfl⟩
  | succ n ih =>
    obtain ⟨row, -, h1⟩ := dumpRow_effect h (spanAddr start (rowBytes * (rowTotal length - (n + 1))))
      (rowCount s.params.dumpTail length (rowTotal length - (n + 1)))
    obtain ⟨d, h2⟩ := ih (h1.linesIdle.trans h)
    have h0 : ∀ out, OwnEffect [] s { s with linkOut := out } := fun out => OwnEffect.of_fields rfl
    exact ⟨_, (h0 _).trans (h1.own.trans h2)⟩

/-! ## Every instruction -/

/-- Page write from where its length is admitted (R193): beside the bus, own fields only. -/
theorem enterBinary_own {s t : State} (h : linesIdle s = true) (start : Word) (length : Nat)
    (ht : enterBinary start length s = .next t) : ∃ c, OwnEffect c s t := by
  unfold enterBinary at ht
  obtain ⟨c, he⟩ := handOver_effect (by exact h) ht
  refine ⟨c, ?_⟩
  have h1 : OwnEffect [] s
      (collectBinary { s with startAddr := start, binCount := length, binIndex := 0, session := .awaitingBinary }) :=
    OwnEffect.of_fields rfl
  exact h1.trans ((OwnEffect.of_fields rfl).trans he.own)

theorem execFill_own {s t : State} (h : linesIdle s = true) (start stop value : Word)
    (ht : execFill start stop value s = .next t) : ∃ c, OwnEffect c s t := by
  obtain ⟨c, he⟩ := fillFrom_effect h (fillByte value) (rangeLength start stop) start
  rw [answer_next ht]
  exact ⟨_, (OwnEffect.of_fields rfl).trans he.own⟩

theorem execPage_own {s t : State} (h : linesIdle s = true) (start stop : Word)
    (ht : execPage start stop s = .next t) : ∃ c, OwnEffect c s t := by
  unfold execPage pageOverflow at ht
  split at ht
  · split at ht
    · obtain rfl := Host.Outcome.next.inj ht
      exact ⟨[], OwnEffect.of_fields rfl⟩
    · obtain rfl := Host.Outcome.next.inj ht
      exact ⟨[], OwnEffect.of_fields rfl⟩
    · exact enterBinary_own h _ _ ht
  · exact enterBinary_own h _ _ ht

theorem execRead_own {s t : State} (h : linesIdle s = true) (start stop : Word)
    (ht : execRead start stop s = .next t) : ∃ c, OwnEffect c s t := by
  obtain ⟨bytes, -, he⟩ := streamBytes_effect h (rangeLength start stop) start
  obtain rfl := Host.Outcome.next.inj ht
  exact ⟨_, (OwnEffect.of_fields rfl).trans he.own⟩

theorem execDump_own {s t : State} (h : linesIdle s = true) (start stop : Word)
    (ht : execDump start stop s = .next t) : ∃ c, OwnEffect c s t := by
  obtain rfl := Host.Outcome.next.inj ht
  exact dumpRows_own h _ _ _

theorem execSetAddress_own {s t : State} (start : Word) (ht : execSetAddress start s = .next t) :
    ∃ c, OwnEffect c s t := by
  obtain rfl := Host.Outcome.next.inj ht
  refine ⟨[.addr (busAddr s.params.addrWidth start)], BusEffect.own ?_⟩
  exact ⟨⟨rfl, rfl, rfl⟩, fun _ => busAddr_lt _, id, rfl, by simp [lastWriteTo, record, setAddress]⟩

theorem writeSeqDelay_own {s : State} (h : linesIdle s = true) (steps : List (Word × Byte)) (d : DelayName) :
    ∃ c, OwnEffect c s (engineDelay d (writeSeq steps s)) :=
  ⟨_, ((writeSeq_effect h steps).trans (engineDelay_effect d _)).own⟩

/-- Whatever instruction runs between bus operations, when it answers it has performed some cycles, and beside the bus it
has written no field but those of `ownFields`. -/
theorem exec_effect {i : Instr} {s t : State} (h : linesIdle s = true) (ht : exec i s = .next t) :
    ∃ c, OwnEffect c s t := by
  cases i with
  | ident => obtain rfl := Host.Outcome.next.inj ht; exact ⟨[], OwnEffect.of_fields rfl⟩
  | version => obtain rfl := Host.Outcome.next.inj ht; exact ⟨[], OwnEffect.of_fields rfl⟩
  | setAddress start => exact execSetAddress_own start ht
  | dump start stop => exact execDump_own h start stop ht
  | fill start stop value => exact execFill_own h start stop value ht
  | read start stop => exact execRead_own h start stop ht
  | page start stop => exact execPage_own h start stop ht
  | lock => obtain rfl := Host.Outcome.next.inj ht; exact writeSeqDelay_own h _ _
  | unlock => obtain rfl := Host.Outcome.next.inj ht; exact writeSeqDelay_own h _ _
  | erase => obtain rfl := Host.Outcome.next.inj ht; exact writeSeqDelay_own h _ _
  | modeEeprom => obtain rfl := Host.Outcome.next.inj ht; exact ⟨[], OwnEffect.of_fields rfl⟩
  | modeFlash => obtain rfl := Host.Outcome.next.inj ht; exact ⟨[], OwnEffect.of_fields rfl⟩
  | unrecognised o => obtain rfl := Host.Outcome.next.inj ht; exact ⟨[], OwnEffect.of_fields rfl⟩
  | seqFlashByteProgram target value =>
    obtain rfl := Host.Outcome.next.inj ht
    obtain ⟨c, he⟩ := flashByteProgram_cycles h target value
    exact ⟨c, he.own⟩
  | seqChipErase => obtain rfl := Host.Outcome.next.inj ht; exact writeSeqDelay_own h _ _
  | seqSwpEnable => obtain rfl := Host.Outcome.next.inj ht; exact writeSeqDelay_own h _ _
  | seqSwpDisable => obtain rfl := Host.Outcome.next.inj ht; exact writeSeqDelay_own h _ _

/-- A state whose wait has polls left is the answer as it is (R234, D24). -/
theorem answer_of_wait {limit : Option Nat} {s : State} {w : PollWait} (h : s.wait = some w)
    (hl : ∀ n, limit = some n → w.polls < n) : answer limit s = .next s := by
  rcases answer_cases limit s with h2 | ⟨-, n, w', hn, h3, h4⟩
  · exact h2
  · rw [h] at h3
    obtain rfl := Option.some.inj h3
    exact absurd h4 (Nat.not_le.mpr (hl n hn))

/-- A state that does not wait is the answer as it is, whatever the limit. -/
theorem answer_of_idle (limit : Option Nat) {s : State} (h : s.wait = none) : answer limit s = .next s := by
  rcases answer_cases limit s with h2 | ⟨-, n, w, -, h3, -⟩
  · exact h2
  · rw [h] at h3
    cases h3

end Sys2Proof.Machine
end

