-- ==== Sys2Proof/Laws/Decode.lean ====
section
/-! SUPPORT. Lemmas about the encoding: hex digits, hex fields and the line reader. -/

namespace Sys2Proof

theorem hexVal_hexDigit (n : Nat) (h : n < 16) : hexVal (hexDigit n) = some n := by
  interval_cases n <;> decide

theorem hexDigits_length (c v : Nat) : (hexDigits c v).length = c := by
  induction c generalizing v with
  | zero => rfl
  | succ n ih => simp [hexDigits, ih]

theorem hexSum_append_one {l : List Byte} {x d : Nat} {c : Byte} (hl : hexSum l = some x) (hc : hexVal c = some d) :
    hexSum (l ++ [c]) = some (x * 16 + d) := by
  induction l generalizing x with
  | nil =>
    simp [hexSum] at hl; subst hl; simp [hexSum, hc]
  | cons b rest ih =>
    simp only [List.cons_append, hexSum] at hl ⊢
    cases hb : hexVal b with
    | none => simp [hb] at hl
    | some e =>
      cases hr : hexSum rest with
      | none => simp [hb, hr] at hl
      | some y =>
        rw [ih hr]
        simp [hb, hr] at hl
        simp [pow_succ]
        rw [← hl]; ring

/-- The sum of R76 over digits written most significant first. -/
theorem hexSum_hexDigits (c v : Nat) : hexSum (hexDigits c v) = some (v % 16 ^ c) := by
  induction c generalizing v with
  | zero => simp [hexDigits, hexSum, Nat.mod_one]
  | succ n ih =>
    simp only [hexDigits]
    rw [hexSum_append_one (ih _) (hexVal_hexDigit _ (Nat.mod_lt _ (by norm_num)))]
    congr 1
    rw [pow_succ, Nat.mul_comm (16^n) 16, Nat.mod_mul]; omega

theorem hexDigit_ne_LF (n : Nat) (h : n < 16) : hexDigit n ≠ charLF := by
  interval_cases n <;> decide

theorem LF_notMem_hexDigits (c v : Nat) : charLF ∉ hexDigits c v := by
  induction c generalizing v with
  | zero => simp [hexDigits]
  | succ n ih =>
    simp only [hexDigits, List.mem_append, List.mem_singleton, not_or]
    exact ⟨ih _, fun h => hexDigit_ne_LF _ (Nat.mod_lt _ (by norm_num)) h.symm⟩

/-- The letters the block writes are lower case (R6). -/
theorem upper_notMem_hexDigits {c v : Nat} {x : Byte} (h : x ∈ hexDigits c v) : ¬ (0x41 ≤ x.toNat ∧ x.toNat ≤ 0x46) := by
  induction c generalizing v with
  | zero => simp [hexDigits] at h
  | succ n ih =>
    simp only [hexDigits, List.mem_append, List.mem_singleton] at h
    rcases h with h | rfl
    · exact ih h
    · have hd : ∀ k : Fin 16, ¬ (0x41 ≤ (hexDigit k).toNat ∧ (hexDigit k).toNat ≤ 0x46) := by decide
      exact hd ⟨v % 16, Nat.mod_lt _ (by norm_num)⟩

/-- Each character of `hexDigits` is the digit of its place (R6). -/
theorem hexVal_hexDigits_get {c v i : Nat} {x : Byte} (h : (hexDigits c v)[i]? = some x) :
    hexVal x = some (v / 16 ^ (c - 1 - i) % 16) := by
  induction c generalizing v i with
  | zero => simp [hexDigits] at h
  | succ n ih =>
    simp only [hexDigits] at h
    rw [List.getElem?_append, hexDigits_length] at h
    split at h
    · rw [ih h, Nat.div_div_eq_div_mul, ← Nat.pow_succ', show n + 1 - 1 - i = (n - 1 - i) + 1 by omega]
    · by_cases h0 : i - n = 0
      · rw [h0] at h
        simp only [List.getElem?_cons_zero, Option.some.injEq] at h
        subst h
        rw [show n + 1 - 1 - i = 0 by omega]
        simpa using hexVal_hexDigit _ (Nat.mod_lt v (by norm_num))
      · rw [List.getElem?_eq_none (by simp; omega)] at h
        cases h

/-- A field written as `hex8` at its offset is read back (R76, R83). -/
theorem hexField_at {pre post : List Byte} (x : Word) {o : Nat} (ho : pre.length = o) :
    hexField (pre ++ hex8 x ++ post) o = x := by
  have hl : (hex8 x).length = 8 := hexDigits_length 8 _
  unfold hexField
  rw [if_neg (by simp [hl]; omega)]
  have : ((pre ++ hex8 x ++ post).drop o).take 8 = hex8 x := by
    rw [← ho, List.append_assoc, List.drop_left, ← hl, List.take_left]
  rw [this, hex8, hexSum_hexDigits]
  have h16 : (16:Nat)^8 = 2^32 := by norm_num
  rw [h16, Nat.mod_eq_of_lt x.isLt]
  simp

/-- A line ends at the terminator, which is consumed and not stored (R152). -/
theorem readLine_term (n : Nat) (line bytes rest : List Byte) (h : charLF ∉ bytes)
    (hl : line.length + bytes.length < n) :
    readLine n line (bytes ++ charLF :: rest) = .complete (line ++ bytes) rest := by
  induction bytes generalizing line with
  | nil => simp [readLine]
  | cons b bs ih =>
    simp only [List.mem_cons, not_or] at h
    simp only [List.length_cons] at hl
    simp only [List.cons_append, readLine]
    rw [if_neg (Ne.symm h.1), if_neg (by simp; omega), ih _ h.2 (by simp; omega)]
    simp

/-- A line received in pieces reads as if it had come at once (R152). -/
theorem readLine_append (n : Nat) (pre line input : List Byte) (h : charLF ∉ line) (hl : pre.length + line.length < n) :
    readLine n pre (line ++ input) = readLine n (pre ++ line) input := by
  induction line generalizing pre with
  | nil => simp
  | cons b bs ih =>
    simp only [List.mem_cons, not_or] at h
    simp only [List.length_cons] at hl
    simp only [List.cons_append, readLine]
    rw [if_neg (Ne.symm h.1), if_neg (by simp; omega), ih _ h.2 (by simp; omega)]
    simp

/-- A line of `LINE_MAX` characters ends without a terminator (R153). -/
theorem readLine_cut (n : Nat) (line bytes rest : List Byte) (h : charLF ∉ bytes) (hne : bytes ≠ [])
    (hl : line.length + bytes.length = n) :
    readLine n line (bytes ++ rest) = .complete (line ++ bytes) rest := by
  induction bytes generalizing line with
  | nil => exact absurd rfl hne
  | cons b bs ih =>
    simp only [List.mem_cons, not_or] at h
    simp only [List.length_cons] at hl
    simp only [List.cons_append, readLine]
    rw [if_neg (Ne.symm h.1)]
    by_cases hb : bs = []
    · subst hb
      rw [if_pos (by simpa using hl)]; simp
    · have : 0 < bs.length := List.length_pos_of_ne_nil hb
      rw [if_neg (by simp; omega), ih _ h.2 hb (by simp; omega)]
      simp

/-- With the link empty before the line ends, what there was is stored (R152, R160). -/
theorem readLine_inc (n : Nat) (line bytes : List Byte) (h : charLF ∉ bytes) (hl : line.length + bytes.length < n) :
    readLine n line bytes = .incomplete (line ++ bytes) := by
  induction bytes generalizing line with
  | nil => simp [readLine]
  | cons b bs ih =>
    simp only [List.mem_cons, not_or] at h
    simp only [List.length_cons] at hl
    simp only [readLine]
    rw [if_neg (Ne.symm h.1), if_neg (by simp; omega), ih _ h.2 (by simp; omega)]
    simp

/-- What the line reader can answer: it consumes from the front, stores no terminator, and keeps to `LINE_MAX`. -/
theorem readLine_facts (n : Nat) (line input : List Byte) :
    match readLine n line input with
    | .complete l rest => (∃ used, input = used ++ rest) ∧ (line.all (· != charLF) = true → l.all (· != charLF) = true) ∧
        (line.length < n → l.length ≤ n)
    | .incomplete l => (line.all (· != charLF) = true → l.all (· != charLF) = true) ∧
        (line.length < n → l.length < n) := by
  induction input generalizing line with
  | nil => simp [readLine]
  | cons b rest ih =>
    simp only [readLine]
    by_cases hb : b = charLF
    · simp only [hb, if_true]
      exact ⟨⟨[charLF], rfl⟩, id, fun h => by omega⟩
    · simp only [hb, if_false]
      by_cases hc : (line ++ [b]).length = n
      · simp only [hc, if_true]
        refine ⟨⟨[b], rfl⟩, fun h => by simp_all, fun _ => by omega⟩
      · simp only [hc, if_false]
        have := ih (line ++ [b])
        simp only [List.length_append, List.length_cons, List.length_nil] at hc this
        split at this
        · obtain ⟨⟨u, hu⟩, h3, h4⟩ := this
          refine ⟨⟨b :: u, ?_⟩, fun hh => h3 (by simp_all), fun hh => h4 (by omega)⟩
          rw [hu]; rfl
        · exact ⟨fun hh => this.1 (by simp_all), fun hh => this.2 (by omega)⟩

/-- The clamp never lowers the end below the start (R77). -/
theorem le_clampEnd (start stop : Word) : start.toNat ≤ (clampEnd start stop).toNat := by
  unfold clampEnd
  split <;> omega

theorem parseLine_range (line : List Byte) : (parseLine line).startAddr.toNat ≤ (parseLine line).endAddr.toNat :=
  le_clampEnd _ _

/-- A character of the text strings is ASCII and no terminator (D16). -/
theorem textByte_plain : ∀ c : Fin 127, ((textByte c).toNat < 128 && textByte c != charLF) = true := by decide

end Sys2Proof
end

