-- ==== Sys2Proof/Laws/Session.lean ====
section
/-! SUPPORT. What a step can do, said once: its cases, and its effect on the bus. -/

namespace Sys2Proof.Machine

/-! ## The cases of a step -/

/-- A step from a wait point (R151, R160, R29): one equation per session state. -/
theorem step_cases (s : State) :
    (s.faultMark = true ∧ step s = .fault .pageOverflow)
      ∨ (s.faultMark = false ∧ s.session = .awaitingCommand
          ∧ ∃ line, readLine s.params.lineMax s.line s.linkIn = .incomplete line
            ∧ step s = .next { s with line := line, linkIn := [] })
      ∨ (s.faultMark = false ∧ s.session = .awaitingCommand
          ∧ ∃ line rest, readLine s.params.lineMax s.line s.linkIn = .complete line rest
            ∧ step s = finish (exec (instrOf (parseLine line))
                (loadCommand (parseLine line) { s with line := line, linkIn := rest })))
      ∨ (s.faultMark = false ∧ s.session = .awaitingBinary ∧ step s = finish (handOver (collectBinary s)))
      ∨ (s.faultMark = false ∧ s.session = .executing ∧ s.wait = none ∧ step s = .next (sessionTail s))
      ∨ (s.faultMark = false ∧ s.session = .executing ∧ ∃ w, s.wait = some w ∧ step s = finish (resumeWait w s)) := by
  by_cases hm : s.faultMark = true
  · exact .inl ⟨hm, by simp [step, fetch, hm]⟩
  · have hm' : s.faultMark = false := by simpa using hm
    cases hs : s.session with
    | awaitingCommand =>
      cases hr : readLine s.params.lineMax s.line s.linkIn with
      | complete line rest =>
        exact .inr (.inr (.inl ⟨hm', rfl, line, rest, rfl, by simp [step, fetch, fetchCommand, hm', hs, hr]⟩))
      | incomplete line =>
        exact .inr (.inl ⟨hm', rfl, line, rfl, by simp [step, fetch, fetchCommand, hm', hs, hr]⟩)
    | awaitingBinary => exact .inr (.inr (.inr (.inl ⟨hm', rfl, by simp [step, fetch, hm', hs]⟩)))
    | executing =>
      cases hw : s.wait with
      | none => exact .inr (.inr (.inr (.inr (.inl ⟨hm', rfl, rfl, by simp [step, fetch, hm', hs, hw, finish]⟩))))
      | some w => exact .inr (.inr (.inr (.inr (.inr ⟨hm', rfl, w, rfl, by simp [step, fetch, hm', hs, hw]⟩))))

/-- What the session's tail can do (R158): nothing, or the ready line and an empty line in `AwaitingCommand`. -/
theorem sessionTail_cases (s : State) :
    ((s.faultMark = true ∨ s.session ≠ .executing ∨ s.wait ≠ none) ∧ sessionTail s = s)
      ∨ (s.faultMark = false ∧ s.session = .executing ∧ s.wait = none
          ∧ sessionTail s = { s with
              linkOut := s.linkOut ++ (s.params.readyString ++ s.params.eolOut)
              session := .awaitingCommand
              line := [] }) := by
  unfold sessionTail
  cases hm : s.faultMark with
  | true => exact .inl ⟨.inl rfl, by simp⟩
  | false =>
    cases hs : s.session with
    | awaitingCommand => exact .inl ⟨.inr (.inl (by simp)), by simp⟩
    | awaitingBinary => exact .inl ⟨.inr (.inl (by simp)), by simp⟩
    | executing =>
      cases hw : s.wait with
      | none => exact .inr ⟨rfl, rfl, rfl, by simp [putLine, linkPut, hm, hw]⟩
      | some w => exact .inl ⟨.inr (.inr (by simp)), by simp⟩

theorem finish_next {o : Host.Outcome State Fault Refusal} {t : State} (h : finish o = .next t) :
    ∃ u, o = .next u ∧ t = sessionTail u := by
  cases o with
  | next u => exact ⟨u, rfl, (Host.Outcome.next.inj h).symm⟩
  | fault r => cases h
  | refused r => cases h

/-! ## The bus over a step -/

/-- `t` with the bus as it is in `s`. -/
def onBusOf (s t : State) : State :=
  { t with
    params := s.params
    addr := s.addr
    dir := s.dir
    dout := s.dout
    ce := s.ce
    oe := s.oe
    we := s.we
    dev := s.dev
    draws := s.draws
    busTrace := s.busTrace
    cycleTrace := s.cycleTrace }

/-- Whatever the fields beside the bus do, the bus has performed these cycles from `s` to `t`. -/
def BusAct (cycles : List Cycle) (s t : State) : Prop := BusEffect cycles (onBusOf s t) t

theorem BusEffect.act {c : List Cycle} {s t u : State} (h : BusEffect c s t) (hu : onBusOf u s = s) : BusAct c u t := by
  have he : onBusOf u t = s := by
    have hf := h.run.1
    unfold busFrame at hf
    rw [← hu, hf]
    rfl
  unfold BusAct
  rw [he]
  exact h

theorem BusAct.trans {c d : List Cycle} {s t u : State} (h1 : BusAct c s t) (h2 : BusAct d t u) :
    BusAct (c ++ d) s u := by
  unfold BusAct at *
  have hf := h1.run.1
  have h1' : BusEffect c (onBusOf s u) (onBusOf t u) := by
    constructor
    · refine ⟨?_, h1.run.2.1, h1.run.2.2⟩
      have hx := busFrame_fields hf
      simp only [onBusOf] at hx
      unfold busFrame onBusOf
      simp only [State.mk.injEq, and_true, true_and]
      exact ⟨hx.1, hx.2.2.2.2.2.2.2.2.2.2.1, hx.2.2.2.2.2.2.2.2.2.2.2.1, hx.2.2.2.2.2.2.2.2.2.2.2.2.1,
        hx.2.2.2.2.2.2.2.2.2.2.2.2.2.1⟩
    · exact h1.addr
    · exact h1.chip
    · exact h1.test
    · exact h1.mem
  exact h1'.trans h2

/-- Nothing done to the bus. -/
theorem BusAct.of_bus {s t : State} (h : onBusOf s t = t) : BusAct [] s t := by
  unfold BusAct
  rw [h]
  exact BusEffect.refl t

theorem OwnEffect.act {c : List Cycle} {s t : State} (h : OwnEffect c s t) : BusAct c s t :=
  BusEffect.act (s := ownFields s t) h rfl

theorem sessionTail_act (s : State) : BusAct [] s (sessionTail s) := by
  rcases sessionTail_cases s with ⟨-, h⟩ | ⟨-, -, -, h⟩
  · rw [h]
    exact BusAct.of_bus rfl
  · rw [h]
    exact BusAct.of_bus rfl

theorem finish_act {o : Host.Outcome State Fault Refusal} {s t : State}
    (ho : ∀ u, o = .next u → ∃ c, BusAct c s u) (h : finish o = .next t) : ∃ c, BusAct c s t := by
  obtain ⟨u, hu, rfl⟩ := finish_next h
  obtain ⟨c, hc⟩ := ho u hu
  exact ⟨_, hc.trans (sessionTail_act u)⟩

/-- Every step from idle lines performs some cycles on the bus, and does nothing else to it. -/
theorem step_act {s t : State} (h : linesIdle s = true) (ht : step s = .next t) : ∃ c, BusAct c s t := by
  rcases step_cases s with ⟨-, h1⟩ | ⟨-, -, line, -, h1⟩ | ⟨-, -, line, rest, -, h1⟩ | ⟨-, -, h1⟩ | ⟨-, -, -, h1⟩
    | ⟨-, -, w, -, h1⟩
  · rw [h1] at ht
    cases ht
  · rw [h1] at ht
    obtain rfl := Host.Outcome.next.inj ht
    exact ⟨[], BusAct.of_bus rfl⟩
  · rw [h1] at ht
    refine finish_act (fun u hu => ?_) ht
    obtain ⟨c, hc⟩ := exec_effect (by exact h) hu
    exact ⟨_, (BusAct.of_bus (s := s) rfl).trans hc.act⟩
  · rw [h1] at ht
    refine finish_act (fun u hu => ?_) ht
    obtain ⟨c, hc⟩ := handOver_effect (by exact h) hu
    exact ⟨c, hc.act rfl⟩
  · rw [h1] at ht
    obtain rfl := Host.Outcome.next.inj ht
    exact ⟨_, sessionTail_act s⟩
  · rw [h1] at ht
    refine finish_act (fun u hu => ?_) ht
    obtain ⟨c, hc⟩ := resumeWait_effect h w hu
    exact ⟨c, hc.act rfl⟩

theorem BusAct.params {c : List Cycle} {s t : State} (h : BusAct c s t) : t.params = s.params :=
  BusEffect.params (s := onBusOf s t) h

theorem BusAct.linesIdle {c : List Cycle} {s t : State} (h : BusAct c s t) :
    Machine.linesIdle t = Machine.linesIdle s :=
  BusEffect.linesIdle (s := onBusOf s t) h

theorem BusAct.cycleTrace {c : List Cycle} {s t : State} (h : BusAct c s t) : t.cycleTrace = s.cycleTrace ++ c :=
  h.run.2.1

theorem BusAct.busTrace {c : List Cycle} {s t : State} (h : BusAct c s t) :
    t.busTrace = s.busTrace ++ expand s.params.readOrder c := h.run.2.2

/-! ## Resets -/

/-- The area of a span, as the addresses its cycles use (R41). -/
theorem ChipArea.covers_span (addrWidth : Nat) (start : Word) (count a : Nat) :
    (ChipArea.span start count).covers addrWidth a = true
      ↔ ∃ i, i < count ∧ (busAddr addrWidth (spanAddr start i)).toNat = a := by
  simp [ChipArea.covers]

/-- A disturbed memory keeps the canonical form. -/
theorem Memory.disturb_wf (addrWidth : Nat) (area : ChipArea) (cells : List Host.Cell) {m : Memory} (h : m.wf = true) :
    (Memory.disturb addrWidth area cells m).wf = true := by
  induction cells generalizing m with
  | nil => exact h
  | cons c rest ih =>
    simp only [Memory.disturb]
    split
    · exact ih (Memory.write_wf h _ _)
    · exact ih h

/-- Outside the area a disturbed memory reads as before (R242). -/
theorem Memory.disturb_read (addrWidth : Nat) {area : ChipArea} (cells : List Host.Cell) {m : Memory} (h : m.wf = true)
    {a : Nat} (ha : area.covers addrWidth a = false) :
    (Memory.disturb addrWidth area cells m).read a = m.read a := by
  induction cells generalizing m with
  | nil => rfl
  | cons c rest ih =>
    simp only [Memory.disturb]
    split
    · rename_i hc
      have hne : a ≠ c.1 := by
        rintro rfl
        rw [ha] at hc
        cases hc
      rw [ih (Memory.write_wf h _ _), Memory.read_write h, if_neg (Ne.symm hne)]
    · exact ih h

/-- What a reset inside a step does: the block as after any reset, the chip disturbed in the area of the abandoned command. -/
theorem resetDuring_eq (remains : ChipRemains) (s : State) :
    (abandoned s = none ∧ resetDuring remains s = resetEvent s)
      ∨ ∃ i, abandoned s = some i ∧ resetDuring remains s = { resetEvent s with
          dev := s.dev.disturb s.params.addrWidth (disturbedArea s.strategy i) remains } := by
  unfold resetDuring
  cases h : abandoned s with
  | none => exact .inl ⟨rfl, rfl⟩
  | some i => exact .inr ⟨i, rfl, rfl⟩

/-- A run of the host's machine, one step taken off the front. -/
theorem run_next {s t : State} (h : step s = .next t) (k : Nat) :
    Host.Core.run core (k + 1) s = Host.Core.run core k t := by
  have h1 : core.step s = .next t := h
  simp only [Host.Core.run]
  rw [h1]

end Sys2Proof.Machine
end

