-- ==== Sys2Proof/Laws/Frame.lean ====
section
/-! SUPPORT. The frame in every state, reachable or not: what the operations and the instructions leave unchanged when
nothing is known of the control lines. -/

namespace Sys2Proof.Machine

/-- Nothing differs but the bus: the pins, the chip, the count of free samples and the traces. -/
def busOnly (s t : State) : Prop :=
  t = { s with
        addr := t.addr
        dir := t.dir
        dout := t.dout
        ce := t.ce
        oe := t.oe
        we := t.we
        dev := t.dev
        draws := t.draws
        busTrace := t.busTrace
        cycleTrace := t.cycleTrace }

theorem busOnly_refl (s : State) : busOnly s s := rfl

theorem busOnly_trans {s t u : State} (h1 : busOnly s t) (h2 : busOnly t u) : busOnly s u := by
  unfold busOnly at *
  rw [h2, h1]

/-- The frame, field by field. -/
theorem busOnly_fields {s t : State} (h : busOnly s t) :
    t.params = s.params ∧ t.session = s.session ∧ t.line = s.line ∧ t.opcode = s.opcode ∧ t.startAddr = s.startAddr
      ∧ t.endAddr = s.endAddr ∧ t.fillField = s.fillField ∧ t.binCount = s.binCount ∧ t.binIndex = s.binIndex
      ∧ t.strategy = s.strategy ∧ t.pageBuffer = s.pageBuffer ∧ t.linkIn = s.linkIn ∧ t.linkOut = s.linkOut
      ∧ t.faultMark = s.faultMark ∧ t.wait = s.wait := by
  unfold busOnly at h
  rw [h]
  simp

theorem busOnly_params {s t : State} (h : busOnly s t) : t.params = s.params := (busOnly_fields h).1

theorem busOnly_session {s t : State} (h : busOnly s t) : t.session = s.session := (busOnly_fields h).2.1

theorem busOnly_line {s t : State} (h : busOnly s t) : t.line = s.line := (busOnly_fields h).2.2.1

theorem busOnly_opcode {s t : State} (h : busOnly s t) : t.opcode = s.opcode := (busOnly_fields h).2.2.2.1

theorem busOnly_startAddr {s t : State} (h : busOnly s t) : t.startAddr = s.startAddr := (busOnly_fields h).2.2.2.2.1

theorem busOnly_endAddr {s t : State} (h : busOnly s t) : t.endAddr = s.endAddr := (busOnly_fields h).2.2.2.2.2.1

theorem busOnly_fillField {s t : State} (h : busOnly s t) : t.fillField = s.fillField := (busOnly_fields h).2.2.2.2.2.2.1

theorem busOnly_binCount {s t : State} (h : busOnly s t) : t.binCount = s.binCount := (busOnly_fields h).2.2.2.2.2.2.2.1

theorem busOnly_binIndex {s t : State} (h : busOnly s t) : t.binIndex = s.binIndex := (busOnly_fields h).2.2.2.2.2.2.2.2.1

theorem busOnly_strategy {s t : State} (h : busOnly s t) : t.strategy = s.strategy := (busOnly_fields h).2.2.2.2.2.2.2.2.2.1

theorem busOnly_pageBuffer {s t : State} (h : busOnly s t) : t.pageBuffer = s.pageBuffer := (busOnly_fields h).2.2.2.2.2.2.2.2.2.2.1

theorem busOnly_linkIn {s t : State} (h : busOnly s t) : t.linkIn = s.linkIn := (busOnly_fields h).2.2.2.2.2.2.2.2.2.2.2.1

theorem busOnly_linkOut {s t : State} (h : busOnly s t) : t.linkOut = s.linkOut := (busOnly_fields h).2.2.2.2.2.2.2.2.2.2.2.2.1

theorem busOnly_faultMark {s t : State} (h : busOnly s t) : t.faultMark = s.faultMark := (busOnly_fields h).2.2.2.2.2.2.2.2.2.2.2.2.2.1

theorem busOnly_wait {s t : State} (h : busOnly s t) : t.wait = s.wait := (busOnly_fields h).2.2.2.2.2.2.2.2.2.2.2.2.2.2

theorem busOnly_map_wait {s t : State} (h : busOnly s t) (w : Option PollWait) :
    busOnly { s with wait := w } { t with wait := w } := by
  unfold busOnly at *
  conv_lhs => rw [h]

theorem busOnly_map_linkOut {s t : State} (h : busOnly s t) (l : List Byte) :
    busOnly { s with linkOut := l } { t with linkOut := l } := by
  unfold busOnly at *
  conv_lhs => rw [h]

theorem writeByte_busOnly (a : Word) (v : Byte) (s : State) : busOnly s (writeByte a v s) := by
  rw [writeByte_eq]
  rfl

theorem readByte_busOnly (a : Word) (s : State) : busOnly s (readByte a s).2 := by
  obtain ⟨v, n, he⟩ := readByte_spec a s
  rw [he]
  rfl

theorem pollCycle_busOnly (s : State) : busOnly s (pollCycle s).2 := by
  obtain ⟨v, n, he⟩ := pollCycle_spec s
  rw [he]
  rfl

theorem engineDelay_busOnly (d : DelayName) (s : State) : busOnly s (engineDelay d s) := rfl

theorem pollOnce_busOnly (w : PollWait) (s : State) : busOnly { s with wait := (pollOnce w s).wait } (pollOnce w s) := by
  have h := busOnly_map_wait (pollCycle_busOnly { s with wait := some w }) (pollOnce w s).wait
  exact h

theorem writeSeq_busOnly (steps : List (Word × Byte)) (s : State) : busOnly s (writeSeq steps s) := by
  induction steps generalizing s with
  | nil => rfl
  | cons x rest ih => exact busOnly_trans (writeByte_busOnly x.1 x.2 s) (ih _)

theorem writeSpan_busOnly (a : Word) (bytes : List Byte) (s : State) : busOnly s (writeSpan a bytes s) := by
  induction bytes generalizing a s with
  | nil => rfl
  | cons v rest ih => exact busOnly_trans (writeByte_busOnly a v s) (ih _ _)

theorem flashByteProgram_busOnly (a : Word) (v : Byte) (s : State) : busOnly s (flashByteProgram a v s) :=
  busOnly_trans (writeSeq_busOnly flashUnlock s)
    (busOnly_trans (writeByte_busOnly a v _) (engineDelay_busOnly .tFlashByte _))

theorem commitFlash_busOnly (a : Word) (bytes : List Byte) (s : State) : busOnly s (commitFlash a bytes s) := by
  induction bytes generalizing a s with
  | nil => rfl
  | cons v rest ih => exact busOnly_trans (flashByteProgram_busOnly a v s) (ih _ _)

theorem readSpan_busOnly (count : Nat) (a : Word) (s : State) : busOnly s (readSpan count a s).2 := by
  induction count generalizing a s with
  | zero => rfl
  | succ n ih => exact busOnly_trans (readByte_busOnly a s) (ih _ _)

theorem commit_busOnly (a : Word) (bytes : List Byte) (left : Nat) (s : State) :
    busOnly { s with wait := (commit a bytes left s).wait } (commit a bytes left s) := by
  unfold commit
  split
  · have h := commitFlash_busOnly a bytes s
    have hw := busOnly_wait h
    rw [hw]
    exact h
  · unfold commitEeprom
    split
    · rfl
    · exact busOnly_trans (busOnly_map_wait (writeSpan_busOnly a bytes s) _) (pollOnce_busOnly _ _)

theorem fillFrom_busOnly (v : Byte) (count : Nat) (a : Word) (s : State) :
    busOnly { s with wait := (fillFrom v count a s).wait } (fillFrom v count a s) := by
  induction count generalizing a s with
  | zero => rfl
  | succ n ih =>
    have h := commit_busOnly a [v] n s
    simp only [fillFrom]
    split
    · exact h
    · exact busOnly_trans (busOnly_map_wait h _) (ih (a + 1#32) (commit a [v] n s))

theorem resumeWait_busOnly {w : PollWait} {s t : State} (h : resumeWait w s = .next t) :
    busOnly { s with wait := t.wait } t := by
  have he := answer_next h
  rw [he]
  split
  · exact pollOnce_busOnly w s
  · exact busOnly_trans (busOnly_map_wait (pollOnce_busOnly w s) _) (fillFrom_busOnly _ _ _ _)

/-- The hand-over writes the session and the control position beside the bus. -/
theorem handOver_busOnly {s t : State} (h : handOver s = .next t) :
    busOnly { s with session := t.session, wait := t.wait } t
      ∧ (s.binIndex < s.binCount ∧ t = s ∨ s.binCount ≤ s.binIndex ∧ t.session = .executing) := by
  rcases handOver_cases s with ⟨hl, h1⟩ | ⟨hl, bytes, -, h1⟩ | ⟨-, -, h1⟩
  · rw [h1] at h
    obtain rfl := Host.Outcome.next.inj h
    exact ⟨rfl, .inl ⟨hl, rfl⟩⟩
  · rw [h1] at h
    have he := commit_busOnly s.startAddr bytes 0 { s with session := .executing }
    rw [← answer_next h] at he
    have hs : t.session = .executing := busOnly_session he
    rw [hs]
    exact ⟨he, .inr ⟨hl, rfl⟩⟩
  · rw [h1] at h
    cases h

/-- `r`'s loop: the bytes read go to `linkOut`, and nothing else but the bus changes. -/
theorem streamBytes_busOnly (count : Nat) (a : Word) (s : State) :
    ∃ bytes : List Byte, busOnly { s with linkOut := s.linkOut ++ bytes } (streamBytes count a s) := by
  induction count generalizing a s with
  | zero => exact ⟨[], by simp [streamBytes, busOnly]⟩
  | succ n ih =>
    obtain ⟨rest, h2⟩ := ih (a + 1#32) (linkPut [(readByte a s).1] (readByte a s).2)
    have h1 := readByte_busOnly a s
    have ho : (linkPut [(readByte a s).1] (readByte a s).2).linkOut ++ rest = s.linkOut ++ (readByte a s).1 :: rest := by
      simp [linkPut, busOnly_linkOut h1]
    rw [ho] at h2
    exact ⟨_, busOnly_trans (busOnly_map_linkOut h1 _) h2⟩

/-- One row of `d`: its line goes to `linkOut`, and nothing else but the bus changes. -/
theorem dumpRow_busOnly (base : Word) (count : Nat) (s : State) :
    ∃ out : List Byte, busOnly { s with linkOut := s.linkOut ++ out } (dumpRow base count s) := by
  have h1 := readSpan_busOnly count base s
  refine ⟨rowText s.params.printable base (readSpan count base s).1 ++ s.params.eolOut, ?_⟩
  have h3 : dumpRow base count s = { (readSpan count base s).2 with
      linkOut := s.linkOut ++ (rowText s.params.printable base (readSpan count base s).1 ++ s.params.eolOut) } := by
    simp [dumpRow, putLine, linkPut, busOnly_params h1, busOnly_linkOut h1]
  rw [h3]
  exact busOnly_map_linkOut h1 _

/-- `d`'s loop: the rows' lines go to `linkOut`, and nothing else but the bus changes. -/
theorem dumpRows_busOnly (start : Word) (length left : Nat) (s : State) :
    ∃ out : List Byte, busOnly { s with linkOut := s.linkOut ++ out } (dumpRows start length left s) := by
  induction left generalizing s with
  | zero => exact ⟨[], by simp [dumpRows, busOnly]⟩
  | succ n ih =>
    obtain ⟨out, h1⟩ := dumpRow_busOnly (spanAddr start (rowBytes * (rowTotal length - (n + 1))))
      (rowCount s.params.dumpTail length (rowTotal length - (n + 1))) s
    obtain ⟨rest, h2⟩ := ih (dumpRow (spanAddr start (rowBytes * (rowTotal length - (n + 1))))
      (rowCount s.params.dumpTail length (rowTotal length - (n + 1))) s)
    rw [busOnly_linkOut h1, List.append_assoc] at h2
    exact ⟨out ++ rest, busOnly_trans (busOnly_map_linkOut h1 _) h2⟩

/-- `collectBinary` writes three fields (R141). -/
theorem collectBinary_fields (s : State) :
    collectBinary s = { s with
      pageBuffer := storePayload s.binIndex (s.linkIn.take (s.binCount - s.binIndex)) s.pageBuffer
      binIndex := s.binIndex + (s.linkIn.take (s.binCount - s.binIndex)).length
      linkIn := s.linkIn.drop (s.binCount - s.binIndex) } := rfl

/-- What `p` writes beside the bus from where its length is admitted (R193). -/
theorem enterBinary_busOnly {start : Word} {length : Nat} {s t : State} (h : enterBinary start length s = .next t) :
    busOnly { s with
      startAddr := start
      binCount := length
      binIndex := min length s.linkIn.length
      pageBuffer := storePayload 0 (s.linkIn.take length) s.pageBuffer
      linkIn := s.linkIn.drop length
      session := t.session
      wait := t.wait } t
    ∧ (s.linkIn.length < length ∧ t.session = .awaitingBinary ∧ t.wait = s.wait
      ∨ length ≤ s.linkIn.length ∧ t.session = .executing) := by
  unfold enterBinary at h
  obtain ⟨h1, h2⟩ := handOver_busOnly h
  simp only [collectBinary_fields, Nat.sub_zero, Nat.zero_add, List.length_take] at h1
  refine ⟨h1, ?_⟩
  rcases h2 with ⟨h2, rfl⟩ | ⟨h2, h3⟩
  · simp only [collectBinary_fields, Nat.sub_zero, Nat.zero_add, List.length_take] at h2
    exact .inl ⟨by omega, rfl, rfl⟩
  · simp only [collectBinary_fields, Nat.sub_zero, Nat.zero_add, List.length_take] at h2
    exact .inr ⟨by omega, h3⟩

/-- What `p` can answer (R193, R195). -/
theorem execPage_cases {start stop : Word} {s t : State} (h : execPage start stop s = .next t) :
    (pageCap < rangeLength start stop ∧ (s.params.pOverflow = .fault ∧ t = { s with faultMark := true }
        ∨ s.params.pOverflow = .reject ∧ t = s))
      ∨ ((rangeLength start stop ≤ pageCap ∨ s.params.pOverflow = .truncate)
          ∧ enterBinary start (rangeLength start stop) s = .next t) := by
  unfold execPage overflows at h
  by_cases ho : pageCap < rangeLength start stop
  · simp only [ho, decide_true, if_true, pageOverflow] at h
    cases hp : s.params.pOverflow with
    | fault =>
      simp only [hp] at h
      exact .inl ⟨ho, .inl ⟨rfl, (Host.Outcome.next.inj h).symm⟩⟩
    | reject =>
      simp only [hp] at h
      exact .inl ⟨ho, .inr ⟨rfl, (Host.Outcome.next.inj h).symm⟩⟩
    | truncate =>
      simp only [hp] at h
      exact .inr ⟨.inr rfl, h⟩
  · simp only [ho, decide_false, Bool.false_eq_true, if_false] at h
    exact .inr ⟨.inl (by omega), h⟩

theorem writeSeqDelay_busOnly (steps : List (Word × Byte)) (d : DelayName) (s : State) :
    busOnly s (engineDelay d (writeSeq steps s)) := busOnly_trans (writeSeq_busOnly steps s) rfl

/-- What any instruction but `p` writes beside the bus: the link output, which only grows, the control position and the
strategy. -/
theorem exec_busOnly {i : Instr} {s t : State} (hi : ∀ a b, i ≠ .page a b) (h : exec i s = .next t) :
    ∃ out, busOnly { s with linkOut := s.linkOut ++ out, wait := t.wait, strategy := t.strategy } t := by
  have own : ∀ {u : State}, busOnly s u →
      ∃ out, busOnly { s with linkOut := s.linkOut ++ out, wait := u.wait, strategy := u.strategy } u := by
    intro u hu
    refine ⟨[], ?_⟩
    rw [busOnly_wait hu, busOnly_strategy hu, List.append_nil]
    exact hu
  have text : ∀ {u : State} {out : List Byte}, busOnly { s with linkOut := s.linkOut ++ out } u →
      ∃ out, busOnly { s with linkOut := s.linkOut ++ out, wait := u.wait, strategy := u.strategy } u := by
    intro u out hu
    refine ⟨out, ?_⟩
    rw [busOnly_wait hu, busOnly_strategy hu]
    exact hu
  cases i with
  | ident =>
    obtain rfl := Host.Outcome.next.inj h
    exact ⟨s.params.idString ++ s.params.eolOut, rfl⟩
  | version =>
    obtain rfl := Host.Outcome.next.inj h
    exact ⟨s.params.versionString ++ s.params.eolOut, rfl⟩
  | setAddress start =>
    obtain rfl := Host.Outcome.next.inj h
    exact own rfl
  | dump start stop =>
    obtain rfl := Host.Outcome.next.inj h
    obtain ⟨out, ho⟩ := dumpRows_busOnly start (rangeLength start stop) (rowTotal (rangeLength start stop)) s
    exact text ho
  | fill start stop value =>
    have he := fillFrom_busOnly (fillByte value) (rangeLength start stop) start s
    rw [← answer_next h] at he
    refine ⟨[], ?_⟩
    rw [busOnly_strategy he, List.append_nil]
    exact he
  | read start stop =>
    obtain rfl := Host.Outcome.next.inj h
    obtain ⟨out, ho⟩ := streamBytes_busOnly (rangeLength start stop) start s
    exact text ho
  | page a b => exact absurd rfl (hi a b)
  | lock => obtain rfl := Host.Outcome.next.inj h; exact own (writeSeqDelay_busOnly _ _ _)
  | unlock => obtain rfl := Host.Outcome.next.inj h; exact own (writeSeqDelay_busOnly _ _ _)
  | erase => obtain rfl := Host.Outcome.next.inj h; exact own (writeSeqDelay_busOnly _ _ _)
  | modeEeprom => obtain rfl := Host.Outcome.next.inj h; exact ⟨[], by simp [busOnly]⟩
  | modeFlash => obtain rfl := Host.Outcome.next.inj h; exact ⟨[], by simp [busOnly]⟩
  | unrecognised o => obtain rfl := Host.Outcome.next.inj h; exact own rfl
  | seqFlashByteProgram target value =>
    obtain rfl := Host.Outcome.next.inj h
    exact own (flashByteProgram_busOnly target value s)
  | seqChipErase => obtain rfl := Host.Outcome.next.inj h; exact own (writeSeqDelay_busOnly _ _ _)
  | seqSwpEnable => obtain rfl := Host.Outcome.next.inj h; exact own (writeSeqDelay_busOnly _ _ _)
  | seqSwpDisable => obtain rfl := Host.Outcome.next.inj h; exact own (writeSeqDelay_busOnly _ _ _)

end Sys2Proof.Machine
end

