-- ==== Sys2Proof/Laws/Limit.lean ====
section
/-! SUPPORT. `POLL_LIMIT` is read by `answer` alone: every operation below it does the same under another limit. And where a
commit or a fill ends in a wait, its last cycle is a poll that missed. -/

namespace Sys2Proof.Machine

/-! ## The operations do not read the limit -/

@[simp] theorem withPollLimit_params (l : Option Nat) (s : State) :
    (withPollLimit l s).params = { s.params with pollLimit := l } := rfl
@[simp] theorem withPollLimit_wait (l : Option Nat) (s : State) : (withPollLimit l s).wait = s.wait := rfl
@[simp] theorem withPollLimit_session (l : Option Nat) (s : State) : (withPollLimit l s).session = s.session := rfl
@[simp] theorem withPollLimit_faultMark (l : Option Nat) (s : State) : (withPollLimit l s).faultMark = s.faultMark := rfl
@[simp] theorem withPollLimit_cycleTrace (l : Option Nat) (s : State) : (withPollLimit l s).cycleTrace = s.cycleTrace := rfl

theorem emit_withPollLimit (e : BusEvent) (l : Option Nat) (s : State) :
    emit e (withPollLimit l s) = withPollLimit l (emit e s) := by cases e <;> rfl

theorem writeByte_withPollLimit (a : Word) (v : Byte) (l : Option Nat) (s : State) :
    writeByte a v (withPollLimit l s) = withPollLimit l (writeByte a v s) := by
  rw [writeByte_eq, writeByte_eq]
  rfl

theorem sample_withPollLimit (kind : SampleKind) (l : Option Nat) (s : State) :
    sample kind (withPollLimit l s) = ((sample kind s).1, withPollLimit l (sample kind s).2) := by
  unfold sample
  have hc : chipDrives (withPollLimit l s) = chipDrives s := rfl
  rw [hc]
  by_cases h : chipDrives s = true
  · simp only [h, if_true]
    show (match s.dev.answer kind s.addr with | (some v, d) => _ | (none, d) => _) = _
    cases s.dev.answer kind s.addr with
    | mk o d => cases o <;> rfl
  · simp only [h]
    rfl

theorem pollCycle_withPollLimit (l : Option Nat) (s : State) :
    pollCycle (withPollLimit l s) = ((pollCycle s).1, withPollLimit l (pollCycle s).2) := by
  unfold pollCycle takeSample
  simp only [emit_withPollLimit, sample_withPollLimit]
  rfl

theorem writeSeq_withPollLimit (steps : List (Word × Byte)) (l : Option Nat) (s : State) :
    writeSeq steps (withPollLimit l s) = withPollLimit l (writeSeq steps s) := by
  induction steps generalizing s with
  | nil => rfl
  | cons x rest ih => simp only [writeSeq, writeByte_withPollLimit, ih]

theorem writeSpan_withPollLimit (a : Word) (bytes : List Byte) (l : Option Nat) (s : State) :
    writeSpan a bytes (withPollLimit l s) = withPollLimit l (writeSpan a bytes s) := by
  induction bytes generalizing a s with
  | nil => rfl
  | cons v rest ih => simp only [writeSpan, writeByte_withPollLimit, ih]

theorem engineDelay_withPollLimit (t : DelayName) (l : Option Nat) (s : State) :
    engineDelay t (withPollLimit l s) = withPollLimit l (engineDelay t s) := rfl

theorem flashByteProgram_withPollLimit (a : Word) (v : Byte) (l : Option Nat) (s : State) :
    flashByteProgram a v (withPollLimit l s) = withPollLimit l (flashByteProgram a v s) := by
  simp only [flashByteProgram, writeSeq_withPollLimit, writeByte_withPollLimit, engineDelay_withPollLimit]

theorem commitFlash_withPollLimit (a : Word) (bytes : List Byte) (l : Option Nat) (s : State) :
    commitFlash a bytes (withPollLimit l s) = withPollLimit l (commitFlash a bytes s) := by
  induction bytes generalizing a s with
  | nil => rfl
  | cons v rest ih => simp only [commitFlash, flashByteProgram_withPollLimit, ih]

theorem pollOnce_withPollLimit (w : PollWait) (l : Option Nat) (s : State) :
    pollOnce w (withPollLimit l s) = withPollLimit l (pollOnce w s) := by
  have h : ({ withPollLimit l s with wait := some w } : State) = withPollLimit l { s with wait := some w } := rfl
  simp only [pollOnce, h, pollCycle_withPollLimit]
  rfl

/-- A commit does the same under any limit (R120). -/
theorem commit_withPollLimit (a : Word) (bytes : List Byte) (left : Nat) (l : Option Nat) (s : State) :
    commit a bytes left (withPollLimit l s) = withPollLimit l (commit a bytes left s) := by
  have h : flashSelected (withPollLimit l s) = flashSelected s := rfl
  unfold commit commitEeprom
  rw [h]
  split
  · exact commitFlash_withPollLimit _ _ _ _
  · split
    · rfl
    · rw [writeSpan_withPollLimit, pollOnce_withPollLimit]

/-- A fill does the same under any limit (R190). -/
theorem fillFrom_withPollLimit (v : Byte) (count : Nat) (a : Word) (l : Option Nat) (s : State) :
    fillFrom v count a (withPollLimit l s) = withPollLimit l (fillFrom v count a s) := by
  induction count generalizing a s with
  | zero => rfl
  | succ n ih =>
    simp only [fillFrom, commit_withPollLimit, withPollLimit_wait, ih]
    split <;> rfl

/-! ## Where an operation ends in a wait -/

theorem endsInMissedPoll_of_idle (s : State) {t : State} (h : t.wait = none) : endsInMissedPoll s t := by
  intro w hw
  rw [h] at hw
  cases hw

/-- Cycles may be put in front, by an operation that begins and ends outside a wait or writes the wait of the start. -/
theorem endsInMissedPoll_after {s u t : State} {cycles : List Cycle} (hc : u.cycleTrace = s.cycleTrace ++ cycles)
    (hw : u.wait = none ∨ u.wait = s.wait) (h : endsInMissedPoll u t) : endsInMissedPoll s t := by
  intro w ht
  obtain ⟨h1, d, a, v, h2, h3⟩ := h w ht
  refine ⟨?_, cycles ++ d, a, v, by rw [h2, hc]; simp, h3⟩
  rcases h1 with h1 | ⟨w0, h0, h1⟩
  · exact .inl h1
  · rcases hw with hw | hw
    · rw [hw] at h0
      cases h0
    · exact .inr ⟨w0, hw ▸ h0, h1⟩

/-- One turn of a wait ends in a missed poll or outside the wait (R105). -/
theorem pollOnce_missed {s : State} (h : linesIdle s = true) {w : PollWait} (hw : w.polls = 0 ∨ s.wait = some w) :
    endsInMissedPoll s (pollOnce w s) := by
  obtain ⟨v, h1, h2⟩ := pollOnce_effect h w
  intro x hx
  by_cases hv : v = w.expect
  · rw [h2, if_pos hv] at hx
    cases hx
  · rw [h2, if_neg hv] at hx
    obtain rfl := Option.some.inj hx
    refine ⟨?_, [], s.addr, v, by simpa using h1.run.2.1, hv⟩
    rcases hw with hw | hw
    · exact .inl (by simp [hw])
    · exact .inr ⟨w, hw, rfl⟩

/-- A commit from outside a wait ends in a missed poll or outside a wait (R120 to R122). -/
theorem commit_missed {s : State} (h : linesIdle s = true) (hw : s.wait = none) (a : Word) (bytes : List Byte)
    (left : Nat) : endsInMissedPoll s (commit a bytes left s) := by
  unfold commit
  split
  · exact endsInMissedPoll_of_idle s ((busOnly_wait (commitFlash_busOnly a bytes s)).trans hw)
  · unfold commitEeprom
    split
    · exact endsInMissedPoll_of_idle s hw
    · have h1 := writeSpan_effect h a bytes
      exact endsInMissedPoll_after h1.run.2.1 (.inr h1.wait) (pollOnce_missed (h1.linesIdle.trans h) (.inl rfl))

/-- A fill from outside a wait ends in a missed poll or outside a wait (R190). -/
theorem fillFrom_missed {s : State} (h : linesIdle s = true) (hw : s.wait = none) (v : Byte) (count : Nat) (a : Word) :
    endsInMissedPoll s (fillFrom v count a s) := by
  induction count generalizing a s with
  | zero => exact endsInMissedPoll_of_idle s hw
  | succ n ih =>
    simp only [fillFrom]
    split
    · exact commit_missed h hw a [v] n
    · rename_i hn
      have hn' : (commit a [v] n s).wait = none := by simpa using hn
      obtain ⟨c, h1⟩ := commit_effect h a [v] n
      exact endsInMissedPoll_after h1.run.2.1 (.inl hn') (ih (h1.linesIdle.trans h) hn' (a + 1#32))

end Sys2Proof.Machine
end

