-- ==== Sys2Proof/Laws/PerInstr.lean ====
section
/-! SUPPORT. A statement per instruction, about its encoding: how long it is, and that its line ends once (R70, R71, R124). -/

namespace Sys2Proof.Laws.CodeForm

open Sys2Proof Sys2Proof.Machine

/-- The size of an instruction's encoding: characters of its line with the terminator (R71), or writes of its sequence
(R124). -/
def codeSize : Instr → Nat
  | .ident => 2
  | .version => 2
  | .setAddress _ => 11
  | .dump _ _ => 20
  | .fill _ _ _ => 29
  | .read _ _ => 20
  | .page _ _ => 20
  | .lock => 2
  | .unlock => 2
  | .erase => 2
  | .modeEeprom => 2
  | .modeFlash => 2
  | .unrecognised none => 1
  | .unrecognised (some _) => 2
  | .seqFlashByteProgram _ _ => 4
  | .seqChipErase => 6
  | .seqSwpEnable => 3
  | .seqSwpDisable => 6

/-- A code of the given size: a line that ends in `LF` and holds no other, or a sequence of writes. -/
def codeOk (size : Nat) : Code → Prop
  | .line bytes => bytes.length = size ∧ ∃ text, bytes = text ++ [charLF] ∧ charLF ∉ text
  | .writes steps => steps.length = size

/-- A well-formed instruction's encoding has its size and form, under every legal set of parameters. -/
def Statement (i : Instr) : Prop :=
  ∀ p : Params, paramsLegal p = true → i.wf = true → codeOk (codeSize i) (encode p i)

theorem lineF0_ok {b : Byte} (h : b ≠ charLF) : codeOk 2 (lineF0 b) := ⟨rfl, [b], rfl, by simpa using h.symm⟩

theorem lineF1_ok {b : Byte} (h : b ≠ charLF) (x : Word) : codeOk 11 (lineF1 b x) := by
  have l8 : (hex8 x).length = 8 := hexDigits_length 8 _
  have lf : charLF ∉ hex8 x := LF_notMem_hexDigits 8 _
  have hs : charLF ≠ charSP := by decide
  exact ⟨by simp [l8], b :: charSP :: hex8 x, by simp, by simp [h.symm, lf, hs]⟩

theorem lineF2_ok {b : Byte} (h : b ≠ charLF) (x y : Word) : codeOk 20 (lineF2 b x y) := by
  have l8 : ∀ z : Word, (hex8 z).length = 8 := fun z => hexDigits_length 8 _
  have lf : ∀ z : Word, charLF ∉ hex8 z := fun z => LF_notMem_hexDigits 8 _
  have hs : charLF ≠ charSP := by decide
  exact ⟨by simp [l8], b :: charSP :: (hex8 x ++ charSP :: hex8 y), by simp, by simp [h.symm, lf, hs]⟩

theorem lineF3_ok {b : Byte} (h : b ≠ charLF) (x y z : Word) : codeOk 29 (lineF3 b x y z) := by
  have l8 : ∀ z : Word, (hex8 z).length = 8 := fun z => hexDigits_length 8 _
  have lf : ∀ z : Word, charLF ∉ hex8 z := fun z => LF_notMem_hexDigits 8 _
  have hs : charLF ≠ charSP := by decide
  exact ⟨by simp [l8], b :: charSP :: (hex8 x ++ charSP :: (hex8 y ++ charSP :: hex8 z)), by simp,
    by simp [h.symm, lf, hs]⟩

theorem ident : Statement .ident := fun _ _ _ => lineF0_ok (by decide)
theorem version : Statement .version := fun _ _ _ => lineF0_ok (by decide)
theorem setAddress (start : Word) : Statement (.setAddress start) := fun _ _ _ => lineF1_ok (by decide) start
theorem dump (start stop : Word) : Statement (.dump start stop) := fun _ _ _ => lineF2_ok (by decide) start stop
theorem fill (start stop value : Word) : Statement (.fill start stop value) :=
  fun _ _ _ => lineF3_ok (by decide) start stop value
theorem read (start stop : Word) : Statement (.read start stop) := fun _ _ _ => lineF2_ok (by decide) start stop
theorem page (start stop : Word) : Statement (.page start stop) := fun _ _ _ => lineF2_ok (by decide) start stop
theorem lock : Statement .lock := fun _ _ _ => lineF0_ok (by decide)
theorem unlock : Statement .unlock := fun _ _ _ => lineF0_ok (by decide)
theorem erase : Statement .erase := fun _ _ _ => lineF0_ok (by decide)
theorem modeEeprom : Statement .modeEeprom := fun _ _ _ => lineF0_ok (by decide)
theorem modeFlash : Statement .modeFlash := fun _ _ _ => lineF0_ok (by decide)
theorem unrecognised (opcode : Option Byte) : Statement (.unrecognised opcode) := by
  intro p _ hw
  cases opcode with
  | none => exact ⟨rfl, [], rfl, by simp⟩
  | some b =>
    simp only [Instr.wf, unmatched, Bool.and_eq_true, bne_iff_ne] at hw
    exact lineF0_ok hw.2
theorem seqFlashByteProgram (target : Word) (value : Byte) : Statement (.seqFlashByteProgram target value) :=
  fun _ _ _ => rfl
theorem seqChipErase : Statement .seqChipErase := fun _ _ _ => rfl
theorem seqSwpEnable : Statement .seqSwpEnable := by
  intro p hp _
  exact (paramsLegal_facts hp).2.1.1
theorem seqSwpDisable : Statement .seqSwpDisable := by
  intro p hp _
  exact (paramsLegal_facts hp).2.1.2.1

end Sys2Proof.Laws.CodeForm
end

