-- ==== Sys2Proof/Tests/Slice0.lean ====
section
/-! SUPPORT. Tests: well-formedness, words decoded as the spec encodes them, the spec's vectors (95_test_vectors.md) on
single operations and single steps, and for every obligation with hypotheses a state that meets them. -/

namespace Sys2Proof.Tests

open Sys2Proof Sys2Proof.Machine

/-- Legal parameters with three short texts in place of the open ones, and delays at their figures. -/
def params : Params := { defaultParams with idString := [0x49], versionString := [0x56], readyString := [0x52], tOeValid := 100, tWeLow := 100, tFlashByte := 20000 }

/-- A test device whose memory holds these cells and reads 0xFF elsewhere (R66). -/
def device (polls : Nat) (cells : List Host.Cell) : TestDevice :=
  { polls := polls, pollsLeft := 0, lastWritten := 0, mem := { unlisted := some 0xFF, cells := cells } }

/-- The block after reset with short texts, a test device on the bus and these bytes on the link. -/
def start (polls : Nat) (cells : List Host.Cell) (link : List Byte) : State :=
  { State.reset with params := params, dev := .test (device polls cells), linkIn := link }

/-- The next state of an answer, if it is one. -/
def next? (o : Host.Outcome State Fault Refusal) : Option State :=
  match o with
  | .next s => some s
  | .fault _ => none
  | .refused _ => none

/-- The fault of an answer, if it is one. -/
def fault? (o : Host.Outcome State Fault Refusal) : Option Fault :=
  match o with
  | .next _ => none
  | .fault r => some r
  | .refused _ => none

/-- The cycles of the answer. -/
def cyclesOf (o : Host.Outcome State Fault Refusal) : Option (List Cycle) := (next? o).map State.cycleTrace

/-- The link output of the answer. -/
def outOf (o : Host.Outcome State Fault Refusal) : Option (List Byte) := (next? o).map State.linkOut

/-- The same block under the Flash strategy. -/
def flash (s : State) : State := { s with strategy := .flash }

/-- The block in the poll loop, awaiting 0x55, with `left` addresses to do. -/
def waiting (chip : Dev) (left : Nat) : State :=
  { start 0 [] [] with
    session := .executing, dev := chip,
    wait := some { expect := 0x55, polls := 1, next := 1, left := left } }

/-- The block in binary mode, two of four payload bytes in (V46). -/
def binary (link : List Byte) : State :=
  { start 0 [] link with
    session := .awaitingBinary, binCount := 4, binIndex := 2, endAddr := 3,
    pageBuffer := { unlisted := none, cells := [(0, 0x61), (1, 0x62)] } }

/-! ## Well-formedness -/

theorem test_wf_accepts :
    (Instr.dump 1 1).wf = true ∧ (Instr.unrecognised (some 0x49)).wf = true ∧ (Instr.unrecognised none).wf = true := by decide

theorem test_wf_refuses_inverted_dump :
    (Instr.dump 2 1).wf = false := by decide

theorem test_wf_refuses_inverted_fill :
    (Instr.fill 2 1 0).wf = false := by decide

theorem test_wf_refuses_inverted_read :
    (Instr.read 2 1).wf = false := by decide

theorem test_wf_refuses_inverted_page :
    (Instr.page 0xFFFFFFFF 0).wf = false := by decide

theorem test_wf_refuses_known_opcode :
    (Instr.unrecognised (some 0x46)).wf = false := by decide

theorem test_wf_refuses_terminator :
    (Instr.unrecognised (some 0x0A)).wf = false := by decide

theorem test_params_legal :
    paramsLegal params = true := by decide

/-- R270: two delays have a lower bound of 100 ns, the others none. -/
theorem test_delay_bounds :
    paramsLegal { params with tOeValid := 99 } = false ∧ paramsLegal { params with tWeLow := 99 } = false
      ∧ paramsLegal { params with tFlashByte := 0, tErase := 0, tSwp := 0, linkRate := 0, rxDepth := 0 } = true := by decide

theorem test_params_refused :
    paramsLegal { params with addrWidth := 15 } = false ∧ paramsLegal { params with addrWidth := 33 } = false
      ∧ paramsLegal { params with lineMax := 28 } = false ∧ paramsLegal { params with readyString := [] } = false
      ∧ paramsLegal { params with idString := [0x0A] } = false ∧ paramsLegal { params with swpDisableSeq := chipEraseSeq } = false := by decide

/-! ## Decoding: lines written out from 30_encoding.md -/

/-- R71, R79. -/
theorem test_decode_ident :
    decodeStream 32 [0x69, 0x0A]
      = .ok (.ident, []) := by decide

/-- R79. -/
theorem test_decode_version :
    decodeStream 32 [0x76, 0x0A, 0x69]
      = .ok (.version, [0x69]) := by decide

/-- V11. -/
theorem test_decode_setAddress :
    decodeStream 32 [0x61, 0x20, 0x46, 0x46, 0x30, 0x31, 0x32, 0x33, 0x34, 0x35, 0x0A]
      = .ok (.setAddress 0xFF012345, []) := by decide

/-- V1. -/
theorem test_decode_dump :
    decodeStream 32 [0x64, 0x20, 0x30, 0x30, 0x30, 0x30, 0x30, 0x30, 0x31, 0x30, 0x20, 0x30, 0x30, 0x30, 0x30, 0x30, 0x30, 0x31, 0x46, 0x0A]
      = .ok (.dump 0x10 0x1F, []) := by decide

/-- V2. -/
theorem test_decode_dump_inverted :
    decodeStream 32 [0x64, 0x20, 0x30, 0x30, 0x30, 0x30, 0x30, 0x30, 0x31, 0x46, 0x20, 0x30, 0x30, 0x30, 0x30, 0x30, 0x30, 0x31, 0x30, 0x0A]
      = .ok (.dump 0x1F 0x1F, []) := by decide

/-- V3. -/
theorem test_decode_dump_bare :
    decodeStream 32 [0x64, 0x0A]
      = .ok (.dump 0 0, []) := by decide

/-- V4. -/
theorem test_decode_dump_short :
    decodeStream 32 [0x64, 0x20, 0x31, 0x32, 0x33, 0x34, 0x0A]
      = .ok (.dump 0 0, []) := by decide

/-- V5. -/
theorem test_decode_dump_bad_digit :
    decodeStream 32 [0x64, 0x20, 0x30, 0x30, 0x30, 0x30, 0x30, 0x30, 0x31, 0x47, 0x20, 0x30, 0x30, 0x30, 0x30, 0x30, 0x30, 0x32, 0x30, 0x0A]
      = .ok (.dump 0 0x20, []) := by decide

/-- V13. -/
theorem test_decode_dump_whole :
    decodeStream 32 [0x64, 0x20, 0x30, 0x30, 0x30, 0x30, 0x30, 0x30, 0x30, 0x30, 0x20, 0x46, 0x46, 0x46, 0x46, 0x46, 0x46, 0x46, 0x46, 0x0A]
      = .ok (.dump 0 0xFFFFFFFF, []) := by decide

/-- V8. -/
theorem test_decode_fill :
    decodeStream 32 [0x66, 0x20, 0x30, 0x30, 0x30, 0x30, 0x30, 0x30, 0x30, 0x31, 0x20, 0x30, 0x30, 0x30, 0x30, 0x30, 0x30, 0x30, 0x32, 0x20, 0x30, 0x30, 0x30, 0x30, 0x30, 0x31, 0x34, 0x31, 0x78, 0x79, 0x7A, 0x0A]
      = .ok (.fill 1 2 0x141, []) := by decide

/-- V6, with `r`. -/
theorem test_decode_read :
    decodeStream 32 [0x72, 0x20, 0x30, 0x30, 0x30, 0x30, 0x30, 0x30, 0x61, 0x62, 0x20, 0x30, 0x30, 0x30, 0x30, 0x30, 0x30, 0x41, 0x42, 0x0A]
      = .ok (.read 0xAB 0xAB, []) := by decide

/-- V41. -/
theorem test_decode_page :
    decodeStream 32 [0x70, 0x20, 0x30, 0x30, 0x30, 0x30, 0x30, 0x30, 0x34, 0x30, 0x20, 0x30, 0x30, 0x30, 0x30, 0x30, 0x30, 0x34, 0x32, 0x0A, 0x11]
      = .ok (.page 0x40 0x42, [0x11]) := by decide

/-- R79. -/
theorem test_decode_lock :
    decodeStream 32 [0x6C, 0x0A]
      = .ok (.lock, []) := by decide

/-- R79. -/
theorem test_decode_unlock :
    decodeStream 32 [0x75, 0x0A]
      = .ok (.unlock, []) := by decide

/-- R79. -/
theorem test_decode_erase :
    decodeStream 32 [0x65, 0x0A]
      = .ok (.erase, []) := by decide

/-- R79. -/
theorem test_decode_modeEeprom :
    decodeStream 32 [0x45, 0x0A]
      = .ok (.modeEeprom, []) := by decide

/-- R79. -/
theorem test_decode_modeFlash :
    decodeStream 32 [0x46, 0x0A]
      = .ok (.modeFlash, []) := by decide

/-- V67. -/
theorem test_decode_unrecognised :
    decodeStream 32 [0x78, 0x20, 0x30, 0x30, 0x30, 0x30, 0x30, 0x30, 0x30, 0x30, 0x0A]
      = .ok (.unrecognised (some 0x78), []) := by decide

/-- V68. -/
theorem test_decode_empty :
    decodeStream 32 [0x0A]
      = .ok (.unrecognised none, []) := by decide

/-- V70. -/
theorem test_decode_cr :
    decodeStream 32 [0x0D, 0x69, 0x0A]
      = .ok (.unrecognised (some 0x0D), []) := by decide

/-- V80. -/
theorem test_decode_waits :
    decodeStream 32 [0x64, 0x20, 0x30, 0x30, 0x30, 0x30] = .error .incompleteLine := by decide

/-- V82: the 32nd character ends the line. -/
theorem test_decode_cut :
    decodeStream 32 [0x66, 0x20, 0x30, 0x30, 0x30, 0x30, 0x30, 0x30, 0x30, 0x31, 0x20, 0x30, 0x30, 0x30, 0x30, 0x30, 0x30, 0x30, 0x31, 0x20, 0x30, 0x30, 0x30, 0x30, 0x30, 0x30, 0x34, 0x31, 0x78, 0x79, 0x7A, 0x77, 0x0A]
      = .ok (.fill 1 1 0x41, [0x0A]) := by decide

/-- W2. -/
theorem test_decode_seq_program :
    decodeWrites params [(0x5555, 0xAA), (0x2AAA, 0x55), (0x5555, 0xA0), (0x1000, 0xDE)]
      = .ok (.seqFlashByteProgram 0x1000 0xDE) := by decide

/-- W3. -/
theorem test_decode_seq_erase :
    decodeWrites params [(0x5555, 0xAA), (0x2AAA, 0x55), (0x5555, 0x80), (0x5555, 0xAA), (0x2AAA, 0x55), (0x5555, 0x10)]
      = .ok .seqChipErase := by decide

/-- V36, V37. -/
theorem test_decode_seq_swp :
    decodeWrites params [(0x5555, 0xAA), (0x2AAA, 0x55), (0x5555, 0xA0)] = .ok .seqSwpEnable
      ∧ decodeWrites params [(0x5555, 0xAA), (0x2AAA, 0x55), (0x5555, 0x80), (0x5555, 0xAA), (0x2AAA, 0x55), (0x5555, 0x20)]
        = .ok .seqSwpDisable := by decide

theorem test_decode_seq_refuses :
    decodeWrites params [(0x5555, 0xAA)] = .error .notASequence
      ∧ decodeWrites params [(0x5555, 0xAA), (0x2AAA, 0x55), (0x5555, 0xA1), (0, 0)] = .error .notASequence := by decide

/-- R83, hex8 of R6. -/
theorem test_encode_fill :
    encode params (.fill 1 2 0x141) = .line [0x66, 0x20, 0x30, 0x30, 0x30, 0x30, 0x30, 0x30, 0x30, 0x31, 0x20, 0x30, 0x30, 0x30, 0x30, 0x30, 0x30, 0x30, 0x32, 0x20, 0x30, 0x30, 0x30, 0x30, 0x30, 0x31, 0x34, 0x31, 0x0A] := by decide

/-- Opcode-table words: the opcode byte alone (V3, V45, V49e). -/
theorem test_table_word :
    decodeTableWord 8 0x66 = some (.fill 0 0 0) ∧ decodeTableWord 8 0x70 = some (.page 0 0)
      ∧ decodeTableWord 0 0 = some (.unrecognised none) := by decide

/-! ## The bus driver (V20 to V23) -/

theorem test_setAddress_V20 :
    (setAddress 0x01012345 (start 0 [] [])).busTrace = [.addr 0x012345] := by decide

theorem test_readByte_V21 :
    (readByte 0x10 (start 0 [(0x10, 0x5A)] [])).1 = 0x5A
      ∧ (readByte 0x10 (start 0 [(0x10, 0x5A)] [])).2.busTrace
        = [.oe .asserted, .ce .asserted, .addr 0x10, .delay .tOeValid, .sample 0x5A, .oe .deasserted] := by decide

theorem test_writeByte_V22 :
    (writeByte 0x5555 0xAA (start 0 [] [])).busTrace
      = [.dir .output, .data 0xAA, .addr 0x5555, .we .asserted, .delay .tWeLow, .we .deasserted, .dir .input] := by decide

theorem test_pollCycle_V23 :
    (pollCycle (writeByte 0x5555 0xAA (start 1 [] []))).1 = 0x2A := by decide

/-! ## The programming engine (V30 to V34) -/

/-- V30 up to the first poll; the second is the next step's (log 11). -/
theorem test_commit_V30 :
    (commit 0x40 [0x11, 0x22, 0x33] 0 (start 1 [] [])).cycleTrace
      = [.wr 0x40 0x11, .wr 0x41 0x22, .wr 0x42 0x33, .poll 0x42 0xB3] := by decide

theorem test_commit_V34 :
    (commit 0xFFFFFFFF [1, 2] 0 (start 0 [] [])).cycleTrace
      = [.wr 0xFFFFFF 1, .wr 0 2, .poll 0 2] := by decide

theorem test_commit_V33 :
    (commit 0x5555 [0] 0 (flash (start 0 [] []))).cycleTrace
      = [.wr 0x5555 0xAA, .wr 0x2AAA 0x55, .wr 0x5555 0xA0, .wr 0x5555 0, .delay .tFlashByte] := by decide

/-! ## One step per command, from the link -/

/-- V40a. -/
theorem test_step_ident :
    outOf (step (start 0 [] [0x69, 0x0A])) = some [0x49, 0x0A, 0x52, 0x0A] := by decide

/-- V40b. -/
theorem test_step_version :
    outOf (step (start 0 [] [0x76, 0x0A])) = some [0x56, 0x0A, 0x52, 0x0A] := by decide

/-- V40f. -/
theorem test_step_setAddress :
    (next? (step (start 0 [] [0x61, 0x20, 0x46, 0x46, 0x30, 0x31, 0x32, 0x33, 0x34, 0x35, 0x0A]))).map State.addr = some 0x012345 := by decide

/-- W1. -/
theorem test_rowText_W1 :
    rowText [(0x20, 0x7E)] 0 [0, 1, 2, 3, 4, 5, 6, 7, 8, 9, 10, 11, 12, 13, 14, 15]
      = [0x30, 0x30, 0x30, 0x30, 0x30, 0x30, 0x30, 0x30, 0x3A, 0x20, 0x20, 0x30, 0x30, 0x20, 0x30, 0x31, 0x20, 0x30, 0x32, 0x20, 0x30, 0x33, 0x20, 0x30, 0x34, 0x20, 0x30, 0x35, 0x20, 0x30, 0x36, 0x20, 0x30, 0x37, 0x20, 0x30, 0x38, 0x20, 0x30, 0x39, 0x20, 0x30, 0x61, 0x20, 0x30, 0x62, 0x20, 0x30, 0x63, 0x20, 0x30, 0x64, 0x20, 0x30, 0x65, 0x20, 0x30, 0x66, 0x20, 0x20, 0x2E, 0x2E, 0x2E, 0x2E, 0x2E, 0x2E, 0x2E, 0x2E, 0x2E, 0x2E, 0x2E, 0x2E, 0x2E, 0x2E, 0x2E, 0x2E] := by decide

/-- R183, D19 at the ends of the default set; R6. -/
theorem test_render_bounds :
    render [(0x20, 0x7E)] 0x1F = 0x2E ∧ render [(0x20, 0x7E)] 0x20 = 0x20 ∧ render [(0x20, 0x7E)] 0x7E = 0x7E
      ∧ render [(0x20, 0x7E)] 0x7F = 0x2E ∧ hex2 0xAF = [0x61, 0x66] ∧ hex8 0x0001ABCD = [0x30, 0x30, 0x30, 0x31, 0x61, 0x62, 0x63, 0x64] := by decide

/-- V50. -/
theorem test_rowText_V50 :
    rowText [(0x20, 0x7E)] 0x20 [0x48, 0x65, 0x6C, 0x6C, 0x6F, 0x2C, 0x20, 0x57, 0x6F, 0x72, 0x6C, 0x64, 0x21, 0x7F, 0x80, 0xFF]
      = [0x30, 0x30, 0x30, 0x30, 0x30, 0x30, 0x32, 0x30, 0x3A, 0x20, 0x20, 0x34, 0x38, 0x20, 0x36, 0x35, 0x20, 0x36, 0x63, 0x20, 0x36, 0x63, 0x20, 0x36, 0x66, 0x20, 0x32, 0x63, 0x20, 0x32, 0x30, 0x20, 0x35, 0x37, 0x20, 0x36, 0x66, 0x20, 0x37, 0x32, 0x20, 0x36, 0x63, 0x20, 0x36, 0x34, 0x20, 0x32, 0x31, 0x20, 0x37, 0x66, 0x20, 0x38, 0x30, 0x20, 0x66, 0x66, 0x20, 0x20, 0x48, 0x65, 0x6C, 0x6C, 0x6F, 0x2C, 0x20, 0x57, 0x6F, 0x72, 0x6C, 0x64, 0x21, 0x2E, 0x2E, 0x2E] := by decide

/-- R19 over steps. -/
theorem test_strategy_step :
    (next? (step (start 0 [] [0x46, 0x0A]))).map State.strategy = some .flash
      ∧ (next? (step (flash (start 0 [] [0x45, 0x0A])))).map State.strategy = some .eeprom
      ∧ (next? (step (flash (waiting (.scripted [0xD5]) 0)))).map State.strategy = some .flash := by decide

/-- The short row of V51, at the address of V52. -/
theorem test_step_dump_tail :
    outOf (step { start 0 [(5, 0x35)] [0x64, 0x20, 0x30, 0x30, 0x30, 0x30, 0x30, 0x30, 0x30, 0x35, 0x20, 0x30, 0x30, 0x30, 0x30, 0x30, 0x30, 0x30, 0x31, 0x0A] with params := { params with dumpTail := .shortRow } })
      = some [0x30, 0x30, 0x30, 0x30, 0x30, 0x30, 0x30, 0x35, 0x3A, 0x20, 0x20, 0x33, 0x35, 0x20, 0x20, 0x35, 0x0A, 0x52, 0x0A] := by decide

/-- The wrap of V53, two bytes of it. -/
theorem test_readSpan_V53 :
    (readSpan 2 0xFFFFFFFF (start 0 [(0, 1), (0xFFFFFF, 0xA7)] [])).1 = [0xA7, 1] := by decide

/-- V51: the rows of 17 bytes. -/
theorem test_rows_V51 :
    rowTotal 17 = 2 ∧ rowCount .fullRow 17 1 = 16 ∧ rowCount .shortRow 17 1 = 1 ∧ rowCount .shortRow 16 0 = 16 := by decide

/-- V54. -/
theorem test_step_read :
    outOf (step (start 0 [(0x10, 0x0A), (0x11, 0)] [0x72, 0x20, 0x30, 0x30, 0x30, 0x30, 0x30, 0x30, 0x31, 0x30, 0x20, 0x30, 0x30, 0x30, 0x30, 0x30, 0x30, 0x31, 0x32, 0x0A])) = some [0x0A, 0x00, 0xFF, 0x52, 0x0A] := by decide

/-- V56. -/
theorem test_step_read_top :
    cyclesOf (step (start 0 [(0xFFFFFF, 0x99)] [0x72, 0x20, 0x46, 0x46, 0x46, 0x46, 0x46, 0x46, 0x46, 0x46, 0x20, 0x46, 0x46, 0x46, 0x46, 0x46, 0x46, 0x46, 0x46, 0x0A])) = some [.rd 0xFFFFFF 0x99] := by decide

/-- V49a. -/
theorem test_step_fill :
    cyclesOf (step (start 0 [] [0x66, 0x20, 0x30, 0x30, 0x30, 0x30, 0x30, 0x31, 0x30, 0x30, 0x20, 0x30, 0x30, 0x30, 0x30, 0x30, 0x31, 0x30, 0x31, 0x20, 0x30, 0x30, 0x30, 0x30, 0x30, 0x30, 0x41, 0x35, 0x0A]))
      = some [.wr 0x100 0xA5, .poll 0x100 0xA5, .wr 0x101 0xA5, .poll 0x101 0xA5] := by decide

/-- V49c. -/
theorem test_step_fill_flash :
    cyclesOf (step (flash (start 0 [] [0x66, 0x20, 0x30, 0x30, 0x30, 0x30, 0x30, 0x31, 0x30, 0x30, 0x20, 0x30, 0x30, 0x30, 0x30, 0x30, 0x31, 0x30, 0x31, 0x20, 0x30, 0x30, 0x30, 0x30, 0x30, 0x30, 0x41, 0x35, 0x0A])))
      = some [.wr 0x5555 0xAA, .wr 0x2AAA 0x55, .wr 0x5555 0xA0, .wr 0x100 0xA5, .delay .tFlashByte,
        .wr 0x5555 0xAA, .wr 0x2AAA 0x55, .wr 0x5555 0xA0, .wr 0x101 0xA5, .delay .tFlashByte] := by decide

/-- V41. -/
theorem test_step_page :
    cyclesOf (step (start 0 [] [0x70, 0x20, 0x30, 0x30, 0x30, 0x30, 0x30, 0x30, 0x34, 0x30, 0x20, 0x30, 0x30, 0x30, 0x30, 0x30, 0x30, 0x34, 0x32, 0x0A, 0x11, 0x22, 0x33]))
      = some [.wr 0x40 0x11, .wr 0x41 0x22, .wr 0x42 0x33, .poll 0x42 0x33] := by decide

/-- V44, with a surplus as in P3. -/
theorem test_step_page_data :
    (next? (step (start 0 [] [0x70, 0x20, 0x30, 0x30, 0x30, 0x30, 0x30, 0x30, 0x30, 0x30, 0x20, 0x30, 0x30, 0x30, 0x30, 0x30, 0x30, 0x30, 0x31, 0x0A, 0x0A, 0x0A, 0x65, 0x0A]))).map (fun t => (t.cycleTrace, t.linkIn))
      = some ([.wr 0 0x0A, .wr 1 0x0A, .poll 1 0x0A], [0x65, 0x0A]) := by decide

/-- V60. -/
theorem test_step_lock :
    cyclesOf (step (start 0 [] [0x6C, 0x0A])) = some [.wr 0x5555 0xAA, .wr 0x2AAA 0x55, .wr 0x5555 0xA0, .delay .tSwp] := by decide

/-- V61. -/
theorem test_step_unlock :
    cyclesOf (step (start 0 [] [0x75, 0x0A]))
      = some [.wr 0x5555 0xAA, .wr 0x2AAA 0x55, .wr 0x5555 0x80, .wr 0x5555 0xAA, .wr 0x2AAA 0x55, .wr 0x5555 0x20, .delay .tSwp] := by decide

/-- V63. -/
theorem test_step_erase :
    cyclesOf (step (flash (start 0 [] [0x65, 0x0A])))
      = some [.wr 0x5555 0xAA, .wr 0x2AAA 0x55, .wr 0x5555 0x80, .wr 0x5555 0xAA, .wr 0x2AAA 0x55, .wr 0x5555 0x10, .delay .tErase] := by decide

/-- V65. -/
theorem test_step_modeFlash :
    (next? (step (start 0 [] [0x46, 0x0A]))).map State.strategy = some .flash := by decide

/-- V66. -/
theorem test_step_modeEeprom :
    (next? (step (flash (start 0 [] [0x45, 0x0A])))).map State.strategy = some .eeprom := by decide

/-- V67. -/
theorem test_step_unrecognised :
    (next? (step (start 0 [] [0x78, 0x20, 0x30, 0x30, 0x30, 0x30, 0x30, 0x30, 0x30, 0x37, 0x0A]))).map (fun t => (t.cycleTrace, t.linkOut, t.startAddr))
      = some ([], [0x52, 0x0A], 7) := by decide

/-- V68. -/
theorem test_step_empty :
    outOf (step (start 0 [] [0x0A])) = some [0x52, 0x0A] := by decide

/-- W2. -/
theorem test_exec_seqFlashByteProgram :
    cyclesOf (exec (.seqFlashByteProgram 0x1001 0xAD) (start 0 [] []))
      = some [.wr 0x5555 0xAA, .wr 0x2AAA 0x55, .wr 0x5555 0xA0, .wr 0x1001 0xAD, .delay .tFlashByte] := by decide

/-- W3. -/
theorem test_exec_seqChipErase :
    (cyclesOf (exec .seqChipErase (start 0 [] []))).map List.length = some 7 := by decide

/-- V60, V61. -/
theorem test_exec_seqSwp :
    (next? (exec .seqSwpEnable (start 0 [] []))).map State.addr = some 0x5555
      ∧ (next? (exec .seqSwpDisable (start 0 [] []))).map State.addr = some 0x5555 := by decide

/-! ## Waiting and stopping -/

/-- V80. -/
theorem test_step_line_waits :
    (next? (step (start 0 [] [0x64, 0x20, 0x30, 0x30, 0x30, 0x30]))).map (fun t => (t.session, t.lineLen, t.linkIn)) = some (.awaitingCommand, 6, []) := by decide

/-- V46. -/
theorem test_step_payload_waits :
    (next? (step (start 0 [] [0x70, 0x20, 0x30, 0x30, 0x30, 0x30, 0x30, 0x30, 0x30, 0x30, 0x20, 0x30, 0x30, 0x30, 0x30, 0x30, 0x30, 0x30, 0x33, 0x0A, 0x61, 0x62]))).map (fun t => (t.session, t.binIndex, t.binCount, t.linkOut))
      = some (.awaitingBinary, 2, 4, []) := by decide

/-- V49b, its second step, with the byte 0x55: the match, and the next address. -/
theorem test_step_fill_goes_on :
    cyclesOf (step (waiting (.test (device 1 [(0, 0x55)])) 1)) = some [.poll 0 0x55, .wr 1 0x55, .poll 1 0xD5] := by decide

/-- V49b, its first step. -/
theorem test_step_fill_waits :
    (next? (step (start 1 [] [0x66, 0x20, 0x30, 0x30, 0x30, 0x30, 0x30, 0x31, 0x30, 0x30, 0x20, 0x30, 0x30, 0x30, 0x30, 0x30, 0x31, 0x30, 0x31, 0x20, 0x30, 0x30, 0x30, 0x30, 0x30, 0x30, 0x41, 0x35, 0x0A]))).map (fun t => (t.cycleTrace, t.session, t.linkOut))
      = some ([.wr 0x100 0xA5, .poll 0x100 0x25], .executing, []) := by decide

/-- V47, `fault`. -/
theorem test_step_overflow_marks :
    (next? (step (start 0 [] [0x70, 0x20, 0x30, 0x30, 0x30, 0x30, 0x30, 0x30, 0x30, 0x30, 0x20, 0x30, 0x30, 0x30, 0x30, 0x31, 0x30, 0x30, 0x30, 0x0A]))).map (fun t => (t.faultMark, t.linkOut)) = some (true, []) := by decide

/-- V47, `reject`. -/
theorem test_step_overflow_rejects :
    outOf (step { start 0 [] [0x70, 0x20, 0x30, 0x30, 0x30, 0x30, 0x30, 0x30, 0x30, 0x30, 0x20, 0x30, 0x30, 0x30, 0x30, 0x31, 0x30, 0x30, 0x30, 0x0A] with params := { params with pOverflow := .reject } }) = some [0x52, 0x0A] := by decide

/-- V47: nothing further is defined. -/
theorem test_step_marked_faults :
    fault? (step { start 0 [] [] with faultMark := true }) = some .pageOverflow := by decide

/-- P5: a finite limit used up. -/
theorem test_step_fuel_hangs :
    fault? (step { waiting (.scripted [0xD5]) 0 with params := { params with pollLimit := some 2 } }) = some .hang := by decide

/-- R25: an entry that nothing has written. -/
theorem test_step_absent_entry_faults :
    fault? (step { binary [0x63, 0x64] with pageBuffer := { unlisted := none, cells := [] } }) = some .absentBufferEntry := by decide

/-! ## States that meet the hypotheses of the obligations -/

theorem test_witness_DecodeOfEncode :
    paramsLegal params = true ∧ (Instr.page 0 0xFFFFFFFF).wf = true ∧ (Instr.unrecognised (some 0x0D)).wf = true
      ∧ Instr.seqSwpDisable.wf = true := by decide

theorem test_witness_DecodedInstruction :
    decodeStream 1 [0x64, 0x0A] = .ok (.dump 0 0, [0x0A]) := by decide

/-- One character short; the last one bad; the last one at the end of the line. -/
theorem test_witness_HexFieldValue :
    [0x64, 0x20, 0x30, 0x30, 0x30, 0x30, 0x30, 0x30, 0x31].length < 2 + 8
      ∧ (2 + 8 ≤ ([0x64, 0x20, 0x30, 0x30, 0x30, 0x30, 0x30, 0x30, 0x30, 0x47] : List Byte).length ∧ ∃ c ∈ (([0x64, 0x20, 0x30, 0x30, 0x30, 0x30, 0x30, 0x30, 0x30, 0x47] : List Byte).drop 2).take 8, hexVal c = none)
      ∧ ((([0x64, 0x20, 0x46, 0x30, 0x30, 0x30, 0x30, 0x30, 0x61, 0x42] : List Byte).drop 2).take 8).map hexVal = [some 15, some 0, some 0, some 0, some 0, some 0, some 10, some 11]
      ∧ ([0x2F, 0x30, 0x39, 0x3A, 0x40, 0x41, 0x46, 0x47, 0x60, 0x61, 0x66, 0x67] : List Byte).map hexVal
        = [none, some 0, some 9, none, none, some 10, some 15, none, none, some 10, some 15, none] := by decide

theorem test_witness_ParserSkips :
    min ([0x66, 0x20, 0x30, 0x30, 0x30, 0x30, 0x30, 0x30, 0x30, 0x31, 0x20, 0x30, 0x30, 0x30, 0x30, 0x30, 0x30, 0x30, 0x32, 0x20, 0x30, 0x30, 0x30, 0x30, 0x30, 0x31, 0x34, 0x31, 0x78, 0x79, 0x7A] : List Byte).length 28 = min ([0x66, 0x58, 0x30, 0x30, 0x30, 0x30, 0x30, 0x30, 0x30, 0x31, 0x59, 0x30, 0x30, 0x30, 0x30, 0x30, 0x30, 0x30, 0x32, 0x5A, 0x30, 0x30, 0x30, 0x30, 0x30, 0x31, 0x34, 0x31] : List Byte).length 28
      ∧ ∀ j, j < 28 → j ≠ 1 → j ≠ 10 → j ≠ 19 →
        ([0x66, 0x20, 0x30, 0x30, 0x30, 0x30, 0x30, 0x30, 0x30, 0x31, 0x20, 0x30, 0x30, 0x30, 0x30, 0x30, 0x30, 0x30, 0x32, 0x20, 0x30, 0x30, 0x30, 0x30, 0x30, 0x31, 0x34, 0x31, 0x78, 0x79, 0x7A] : List Byte)[j]? = ([0x66, 0x58, 0x30, 0x30, 0x30, 0x30, 0x30, 0x30, 0x30, 0x31, 0x59, 0x30, 0x30, 0x30, 0x30, 0x30, 0x30, 0x30, 0x32, 0x5A, 0x30, 0x30, 0x30, 0x30, 0x30, 0x31, 0x34, 0x31] : List Byte)[j]? := by decide

/-- Inverted by one, and equal. -/
theorem test_witness_RangeIsClamped :
    (hexField [0x64, 0x20, 0x30, 0x30, 0x30, 0x30, 0x30, 0x30, 0x30, 0x31, 0x20, 0x30, 0x30, 0x30, 0x30, 0x30, 0x30, 0x30, 0x30] 11).toNat < (hexField [0x64, 0x20, 0x30, 0x30, 0x30, 0x30, 0x30, 0x30, 0x30, 0x31, 0x20, 0x30, 0x30, 0x30, 0x30, 0x30, 0x30, 0x30, 0x30] 2).toNat
      ∧ (hexField [0x64, 0x20, 0x30, 0x30, 0x30, 0x30, 0x30, 0x30, 0x30, 0x31, 0x20, 0x30, 0x30, 0x30, 0x30, 0x30, 0x30, 0x30, 0x31] 2).toNat ≤ (hexField [0x64, 0x20, 0x30, 0x30, 0x30, 0x30, 0x30, 0x30, 0x30, 0x31, 0x20, 0x30, 0x30, 0x30, 0x30, 0x30, 0x30, 0x30, 0x31] 11).toNat := by decide

theorem test_witness_OpcodeMap :
    (0x46 : Byte) ∈ commandBytes ∧ (0x49 : Byte) ∉ commandBytes ∧ (0x0A : Byte) ∉ commandBytes := by decide

theorem test_witness_LineReader :
    (charLF ∉ ([0x61] : List Byte) ∧ ([0x62] : List Byte).length + ([0x61] : List Byte).length < 3)
      ∧ (([0x61] : List Byte) ≠ [] ∧ ([0x62] : List Byte).length + ([0x61] : List Byte).length = 2)
      ∧ ((start 0 [] (List.replicate 31 0x41)).session = .awaitingCommand ∧ (start 0 [] []).faultMark = false
        ∧ charLF ∉ (start 0 [] (List.replicate 31 0x41)).linkIn
        ∧ (start 0 [] []).line.length + (start 0 [] (List.replicate 31 0x41)).linkIn.length < params.lineMax)
      ∧ (next? (step (start 0 [] [0x61]))).map (fun t => (t.session, t.line)) = some (.awaitingCommand, [0x61])
      ∧ (next? (step (start 0 [] [0x76, 0x0A]))).map (fun t => (t.session, t.line)) = some (.awaitingCommand, []) := by decide

theorem test_witness_StepRuns :
    (start 0 [] [0x76, 0x0A, 0x55]).session = .awaitingCommand ∧ (start 0 [] []).faultMark = false ∧ (start 0 [] []).line = []
      ∧ decodeStream (start 0 [] []).params.lineMax (start 0 [] [0x76, 0x0A, 0x55]).linkIn = .ok (.version, [0x55])
      ∧ readLine params.lineMax [0x64, 0x20] [0x30, 0x0A, 0x55] = .complete [0x64, 0x20, 0x30] [0x55]
      ∧ lineOk { start 0 [] [] with line := [0x64, 0x20] } = true ∧ ([0x64, 0x20] : List Byte).length < params.lineMax
      ∧ decodeStream params.lineMax ([0x64, 0x20] ++ [0x30, 0x0A, 0x55]) = .ok (.dump 0 0, [0x55]) := by decide

theorem test_witness_SessionEnds :
    ((waiting .oracle 0).faultMark = false ∧ (waiting .oracle 0).session = .executing
        ∧ { waiting .oracle 0 with wait := none }.wait = none)
      ∧ (waiting .oracle 0).wait ≠ none ∧ (binary []).session ≠ .executing ∧ { binary [] with faultMark := true }.faultMark = true := by decide

theorem test_witness_UnrecognisedLine :
    (start 0 [] [0x49, 0x0A]).session = .awaitingCommand ∧ (start 0 [] []).wait = none
      ∧ readLine params.lineMax [] [0x49, 0x0A] = .complete [0x49] [] ∧ (0x49 : Byte) ∉ commandBytes
      ∧ readLine params.lineMax [] [0x0A] = .complete [] [] := by decide

theorem test_witness_Stuck :
    (start 0 [] []).stuck = true ∧ (binary []).stuck = true ∧ (binary []).binIndex < (binary []).binCount := by decide

theorem test_witness_PayloadIsCollected :
    (binary [1, 2, 3]).pageBuffer.unlisted = none ∧ (binary []).binIndex ≤ (binary []).binCount ∧ (binary []).binCount ≤ 4096
      ∧ { binary [] with binIndex := 4096, binCount := 4096 }.binIndex ≤ 4096 := by decide

theorem test_witness_Starved :
    (binary [0x63]).session = .awaitingBinary ∧ (binary [0x63]).faultMark = false
      ∧ (binary [0x63]).linkIn.length < (binary [0x63]).binCount - (binary [0x63]).binIndex
      ∧ (binary [0x63]).pageBuffer.unlisted = none ∧ 0 < (binary [0x63]).linkIn.length ∧ (binary [0x63]).binIndex + 0 < 4096
      ∧ 1 < (binary [0x63]).binIndex ∧ (binary [0x63]).binIndex + (binary [0x63]).linkIn.length ≤ 3 := by decide

/-- R141 over a step: the entry before, the one received, the one after. -/
theorem test_starved_entries :
    (next? (step (binary [0x63]))).map (fun t => [t.pageBuffer.read 1, t.pageBuffer.read 2, t.pageBuffer.read 3])
      = some [some 0x62, some 0x63, none] := by decide

theorem test_witness_BinaryMode :
    (next? (step (start 0 [] [0x70, 0x0A]))).map State.session = some .awaitingBinary
      ∧ (next? (step (waiting (.scripted [0xD5]) 0))).map State.session = some .executing
      ∧ (next? (step (waiting (.scripted [0x55]) 0))).map State.session = some .awaitingCommand := by decide

/-- A state of the block at rest meets the invariant. -/
theorem test_inv_start : Inv (start 0 [] [0x76, 0x0A]) where
  params := by decide
  lines := by decide
  addr := by decide
  range := by decide
  counters := by decide
  buffer := by decide
  chip := by decide
  line := by decide
  session := by decide
  traces := by decide

/-- A state in binary mode meets the invariant. -/
theorem test_inv_binary : Inv (binary [0x63, 0x64]) where
  params := by decide
  lines := by decide
  addr := by decide
  range := by decide
  counters := by decide
  buffer := by decide
  chip := by decide
  line := by decide
  session := by decide
  traces := by decide

/-- The same under FLASH. -/
theorem test_inv_binary_flash : Inv (flash (binary [0x63, 0x64])) :=
  { params := test_inv_binary.params, lines := test_inv_binary.lines, addr := test_inv_binary.addr, range := test_inv_binary.range,
    counters := test_inv_binary.counters, buffer := test_inv_binary.buffer, chip := test_inv_binary.chip,
    line := test_inv_binary.line, session := test_inv_binary.session, traces := test_inv_binary.traces }

/-- The same with answers given in advance, whatever they are. -/
theorem test_inv_binary_scripted (answers : List Byte) : Inv { binary [0x63, 0x64] with dev := .scripted answers } :=
  { params := test_inv_binary.params, lines := test_inv_binary.lines, addr := test_inv_binary.addr, range := test_inv_binary.range,
    counters := test_inv_binary.counters, buffer := test_inv_binary.buffer, chip := rfl,
    line := test_inv_binary.line, session := test_inv_binary.session, traces := test_inv_binary.traces }

/-- A state in the poll loop under a finite limit meets the invariant. -/
theorem test_inv_waiting : Inv { waiting (.scripted [0xD5]) 0 with params := { params with pollLimit := some 2 } } where
  params := by decide
  lines := by decide
  addr := by decide
  range := by decide
  counters := by decide
  buffer := by decide
  chip := by decide
  line := by decide
  session := by decide
  traces := by decide

/-- The steps of the states above; that they meet the invariant is shown there. -/
theorem test_witness_StepKeeps :
    (next? (step (start 0 [] [0x76, 0x0A]))).isSome = true ∧ (next? (step (binary [0x63, 0x64]))).isSome = true := by decide

theorem test_witness_OnlyMarked :
    { start 0 [] [] with faultMark := true }.faultMark = true ∧ (start 0 [] []).faultMark = false
      ∧ ({ params with pollLimit := some 2 } : Params).pollLimit ≠ none
      ∧ (waiting (.scripted [0xD5]) 0).wait = some { expect := 0x55, polls := 1, next := 1, left := 0 }
      ∧ (pollCycle (waiting (.scripted [0xD5]) 0)).1 ≠ 0x55 ∧ 2 ≤ 1 + 1 ∧ 1 + 1 < 3
      ∧ (pollCycle (waiting (.scripted [0x55]) 0)).1 = 0x55 ∧ (waiting (.scripted [0x55]) 0).session = .executing := by decide

/-- D24: the second miss of a wait under the limits 2, none and 3, and a poll that matches under the limit 1. -/
theorem test_hang_at_the_limit :
    fault? (step (withPollLimit (some 2) (waiting (.scripted [0xD5]) 0))) = some .hang
      ∧ (next? (step (waiting (.scripted [0xD5]) 0))).map State.wait = some (some { expect := 0x55, polls := 2, next := 1, left := 0 })
      ∧ (next? (step (withPollLimit (some 3) (waiting (.scripted [0xD5]) 0)))).isSome = true
      ∧ (next? (step (withPollLimit (some 1) (waiting (.scripted [0x55]) 0)))).isSome = true := by decide

/-- Links, BusNeverDrivenFromBothSides, WritePulseIsStable, ChipMemoryFollowsTheWriteCycles. -/
theorem test_witness_Steps :
    (next? (step (start 0 [] [0x65, 0x0A]))).isSome = true ∧ linesIdle (start 0 [] [0x65, 0x0A]) = true
      ∧ (start 0 [] []).dev.isTest = true ∧ (start 0 [] []).dev.wf = true := by decide

/-- ReadByte, WriteByte, PollCycle, and the commands that ask for idle lines only. -/
theorem test_witness_BusOps :
    linesIdle (start 0 [(0x12345, 7)] []) = true ∧ params.readOrder = .oeCeAddr
      ∧ (device 0 [(0x12345, 7)]).mem.read (BitVec.ofNat 32 ((0xFF012345 : Word).toNat % 2 ^ params.addrWidth)).toNat = some 7
      ∧ { start 0 [] [] with dev := .scripted [1] }.dev = .scripted [1] := by decide

/-- WaitEndsAtTheFirstMatch and, with the answers cut to the one miss, UnansweredPollHangs. -/
theorem test_witness_WaitEnds :
    linesIdle (waiting (.scripted [0xD5, 0x55]) 0) = true ∧ (waiting .oracle 0).session = .executing
      ∧ (waiting .oracle 0).faultMark = false ∧ (waiting .oracle 0).wait = some { expect := 0x55, polls := 1, next := 1, left := 0 }
      ∧ params.pollLimit = none ∧ (waiting (.scripted [0xD5, 0x55]) 0).dev = .scripted ([0xD5] ++ 0x55 :: [])
      ∧ (0x55 : Byte) ∉ ([0xD5] : List Byte) := by decide

theorem test_witness_UnansweredPoll :
    linesIdle (waiting (.scripted [0xD5]) 0) = true ∧ (0x55 : Byte) ∉ ([0xD5] : List Byte) ∧ 1 ≤ ([0xD5] : List Byte).length := by decide

/-- Erase, Protection, BusSequences. -/
theorem test_witness_Width :
    linesIdle (start 0 [] []) = true ∧ 16 ≤ params.addrWidth ∧ 16 ≤ ({ params with addrWidth := 16 } : Params).addrWidth := by decide

/-- Dump and Read. -/
theorem test_witness_Reads :
    linesIdle (start 0 [(0x10, 0x0A)] []) = true ∧ (start 0 [(0x10, 0x0A)] []).dev = .test (device 0 [(0x10, 0x0A)])
      ∧ (device 0 [(0x10, 0x0A)]).mem.read (busAddr params.addrWidth (spanAddr 0x0F 1)).toNat = some 0x0A := by decide

/-- FlashCommit, CommitCounts, FlashFill; 0x12 is the first address after the span. -/
theorem test_witness_FlashCommit :
    linesIdle (flash (start 0 [] [])) = true ∧ 16 ≤ params.addrWidth ∧ (flash (start 0 [] [])).strategy = .flash
      ∧ (flash (start 0 [] [])).dev.isTest = true ∧ (flash (start 0 [] [])).dev.wf = true
      ∧ (∀ i, i < ([1, 2] : List Byte).length → busAddr params.addrWidth (spanAddr 0x10 i) ≠ 0x12) := by decide

theorem test_witness_EepromCommit :
    linesIdle (start 1 [] []) = true ∧ (start 1 [] []).strategy = .eeprom ∧ ([0x11] : List Byte).getLast? = some 0x11
      ∧ ([0x11] : List Byte) ≠ [] ∧ (commit 0x40 [0x11] 0 (start 0 [] [])).wait = none
      ∧ (commit 0x40 [0x11] 0 (start 1 [] [])).wait ≠ none := by decide

theorem test_witness_FlashFill :
    (flash (start 0 [] [])).wait = none ∧ linesIdle (flash (start 0 [] [])) = true ∧ (flash (start 0 [] [])).strategy = .flash := by decide

theorem test_witness_EepromFill :
    linesIdle (start 0 [] []) = true ∧ (start 0 [] []).strategy = .eeprom ∧ (start 0 [] []).wait = none
      ∧ (start 0 [] []).dev = .test (device 0 []) ∧ (device 0 []).polls = 0 ∧ (device 0 []).mem.wf = true
      ∧ (∀ i, i < rangeLength 1 2 → busAddr params.addrWidth (spanAddr 1 i) ≠ 3) := by decide

theorem test_witness_EepromFillWaits :
    linesIdle { start 0 [] [] with dev := .scripted [0x25] } = true ∧ (start 0 [] []).strategy = .eeprom
      ∧ params.pollLimit = none ∧ (0x25 : Byte) ≠ BitVec.ofNat 8 ((0x1A5 : Word).toNat % 256)
      ∧ ({ params with pollLimit := some 2 } : Params).pollLimit = some 2 ∧ 1 < 2 ∧ ({ params with pollLimit := some 1 } : Params).pollLimit = some 1 := by decide

theorem test_witness_FillGoesOn :
    linesIdle (waiting (.test (device 0 [(0, 0x55)])) 3) = true ∧ (waiting .oracle 3).strategy = .eeprom
      ∧ (device 0 [(0, 0x55)]).pollsLeft = 0 ∧ (device 0 [(0, 0x55)]).mem.wf = true
      ∧ (device 0 [(0, 0x55)]).mem.read (waiting .oracle 3).addr.toNat = some 0x55
      ∧ { device 2 [(0, 0x55)] with pollsLeft := 1, lastWritten := 0x55 }.lastWritten ^^^ 0x80 ≠ 0x55
      ∧ (device 2 [(0, 0x55)]).mem.wf = true ∧ (device 2 [(0, 0x55)]).mem.read (waiting .oracle 3).addr.toNat = some 0x55
      ∧ params.pollLimit = none ∧ (waiting .oracle 3).wait = some { expect := 0x55, polls := 1, next := 1, left := 3 } ∧ 1 + 1 < 3 ∧ 2 < 3 := by decide

/-- The longest payload. -/
theorem test_witness_FlashPage :
    linesIdle (flash (start 0 [] [])) = true ∧ 16 ≤ params.addrWidth ∧ (flash (start 0 [] [])).wait = none
      ∧ (flash (start 0 [] [])).pageBuffer.unlisted = none ∧ rangeLength 0 0xFFF ≤ 4096
      ∧ (List.replicate 4096 (0 : Byte)).length = rangeLength 0 0xFFF
      ∧ (flash (start 0 [] (List.replicate 4096 0 ++ [0x0A]))).linkIn = List.replicate 4096 0 ++ [0x0A] := by exact ⟨by decide, by decide, rfl, rfl, by decide, List.length_replicate, rfl⟩

/-- The two clauses: the answer 2 matches, the answer 3 does not. -/
theorem test_witness_EepromPage :
    (start 0 [] []).strategy = .eeprom ∧ params.pollLimit = none ∧ rangeLength 5 6 ≤ 4096
      ∧ ([1, 2] : List Byte).length = rangeLength 5 6 ∧ ([1, 2] : List Byte).getLast? = some 2
      ∧ (start 0 [] [1, 2, 3]).linkIn = [1, 2] ++ [3] ∧ (start 0 [] []).pageBuffer.unlisted = none
      ∧ { start 0 [] [] with dev := .scripted [2] }.dev = .scripted [2] ∧ { start 0 [] [] with dev := .scripted [3] }.dev = .scripted [3] := by decide

theorem test_witness_PageWaits :
    (start 0 [] [1]).pageBuffer.unlisted = none ∧ rangeLength 5 6 ≤ 4096 ∧ (start 0 [] [1]).linkIn.length < rangeLength 5 6
      ∧ ({ params with pOverflow := .truncate } : Params).pOverflow = .truncate ∧ (start 0 [] [1]).linkIn.length < rangeLength 0 0x1000 := by decide

theorem test_witness_OverlongPage :
    4096 < rangeLength 0 0x1000 ∧ params.pOverflow = .fault ∧ ({ params with pOverflow := .reject } : Params).pOverflow = .reject := by decide

/-- Under FLASH, and under EEPROM with any answers given in advance. -/
theorem test_witness_TruncatedPage :
    4096 < rangeLength 0 0x1000 ∧ ({ params with pOverflow := .truncate } : Params).pOverflow = .truncate
      ∧ (List.replicate 4097 (0 : Byte)).length = rangeLength 0 0x1000 ∧ (flash (start 0 [] [])).pageBuffer.unlisted = none
      ∧ (List.replicate 4097 (0 : Byte))[4095]? = some 0 ∧ (start 0 [] []).strategy = .eeprom ∧ params.pollLimit = none := by exact ⟨by decide, rfl, List.length_replicate, rfl, (List.getElem?_replicate).trans (if_pos (by decide)), rfl, rfl⟩

/-- Strategy, InstructionFrame, OnlyPageWriteConsumesTheLink, StalePageBufferIsNeverRead. -/
theorem test_witness_Frames :
    linesIdle (start 0 [] []) = true ∧ (next? (exec .modeFlash (start 0 [] []))).isSome = true
      ∧ (next? (exec .modeEeprom (start 0 [] []))).isSome = true ∧ (next? (exec (.read 0 0) (start 0 [] []))).isSome = true
      ∧ (next? (exec (.page 0 0) (start 0 [] [7]))).isSome = true := by decide

/-- The commands abandoned, both bounds of a span, and the last address. -/
theorem test_witness_ResetEvent :
    abandoned (start 0 [(0xFF, 1)] [0x66, 0x20, 0x30, 0x30, 0x30, 0x30, 0x30, 0x31, 0x30, 0x30, 0x20, 0x30, 0x30, 0x30, 0x30, 0x30, 0x31, 0x30, 0x31, 0x20, 0x30, 0x30, 0x30, 0x30, 0x30, 0x30, 0x41, 0x35, 0x0A]) = some (.fill 0x100 0x101 0xA5) ∧ (start 0 [] []).strategy = .eeprom
      ∧ (device 0 [(0xFF, 1)]).mem.wf = true ∧ abandoned (start 0 [] [0x65, 0x0A]) = some .erase
      ∧ abandoned (start 0 [] [0x72, 0x0A]) = some (.read 0 0) ∧ abandoned (start 0 [] [0x72]) = none
      ∧ abandoned (binary []) = some (.page 0 3) ∧ (flash (start 0 [] [])).strategy = .flash
      ∧ (∀ k, k < rangeLength 0x100 0x101 → busAddr params.addrWidth (spanAddr 0x100 k) ≠ 0xFF ∧ busAddr params.addrWidth (spanAddr 0x100 k) ≠ 0x102)
      ∧ [((0x101 : Nat), (9 : Byte))] = [((busAddr params.addrWidth (spanAddr 0x100 1)).toNat, 9)] ∧ (0xFFFFFF : Word).toNat < 2 ^ params.addrWidth := by decide

/-- R242, U13: bytes outside the span of the abandoned fill are kept. -/
theorem test_reset_in_fill :
    storedByte (resetDuring { cells := [(0x101, 9), (0xFF, 7), (0x102, 8)], pollsLeft := 0, lastWritten := 0, answers := [] } (start 0 [(0xFF, 1)] [0x66, 0x20, 0x30, 0x30, 0x30, 0x30, 0x30, 0x31, 0x30, 0x30, 0x20, 0x30, 0x30, 0x30, 0x30, 0x30, 0x31, 0x30, 0x31, 0x20, 0x30, 0x30, 0x30, 0x30, 0x30, 0x30, 0x41, 0x35, 0x0A])).dev 0x101 = some 9
      ∧ storedByte (resetDuring { cells := [(0x101, 9), (0xFF, 7), (0x102, 8)], pollsLeft := 0, lastWritten := 0, answers := [] } (start 0 [(0xFF, 1)] [0x66, 0x20, 0x30, 0x30, 0x30, 0x30, 0x30, 0x31, 0x30, 0x30, 0x20, 0x30, 0x30, 0x30, 0x30, 0x30, 0x31, 0x30, 0x31, 0x20, 0x30, 0x30, 0x30, 0x30, 0x30, 0x30, 0x41, 0x35, 0x0A])).dev 0xFF = some 1
      ∧ storedByte (resetDuring { cells := [(0x101, 9), (0xFF, 7), (0x102, 8)], pollsLeft := 0, lastWritten := 0, answers := [] } (start 0 [(0xFF, 1)] [0x66, 0x20, 0x30, 0x30, 0x30, 0x30, 0x30, 0x31, 0x30, 0x30, 0x20, 0x30, 0x30, 0x30, 0x30, 0x30, 0x31, 0x30, 0x31, 0x20, 0x30, 0x30, 0x30, 0x30, 0x30, 0x30, 0x41, 0x35, 0x0A])).dev 0x102 = some 0xFF := by decide

/-- PayloadEndHandsOver; that these states meet the invariant is shown above, with the answers 0x64 and 0xE4 as any others. -/
theorem test_witness_PayloadEnd :
    (binary [0x63, 0x64]).session = .awaitingBinary ∧ (binary []).faultMark = false
      ∧ ([0x61, 0x62] : List Byte).length = (binary []).binIndex
      ∧ (∀ i, i < ([0x61, 0x62] : List Byte).length → i < 4096 → (binary []).pageBuffer.read i = ([0x61, 0x62] : List Byte)[i]?)
      ∧ ([0x61, 0x62] : List Byte).length + ([0x63, 0x64] : List Byte).length = (binary []).binCount
      ∧ (binary [0x63, 0x64]).linkIn = [0x63, 0x64] ++ [] ∧ (flash (binary [])).strategy = .flash ∧ (binary []).strategy = .eeprom
      ∧ (([0x61, 0x62] ++ [0x63, 0x64] : List Byte).take 4096).getLast? = some 0x64 ∧ params.pollLimit = none := by decide

theorem test_witness_StalePage :
    (start 0 [] [7]).pageBuffer.unlisted = none ∧ (binary []).pageBuffer.unlisted = none
      ∧ (binary []).pageBuffer ≠ (start 0 [] [7]).pageBuffer
      ∧ (binary [0x63]).binIndex = 2 ∧ (next? (step (binary [0x63]))).isSome = true
      ∧ ∀ i, i < 2 → Memory.read { unlisted := none, cells := [(0, 0x61), (1, 0x62), (7, 1)] } i = (binary []).pageBuffer.read i := by decide

theorem test_witness_WritingCommands :
    (flash (start 0 [] [7])).strategy = .flash ∧ (next? (exec (.page 0 0) (flash (start 0 [] [7])))).isSome = true
      ∧ (next? (exec .lock (start 0 [] []))).isSome = true := by decide

theorem test_witness_Memory :
    Memory.wf { unlisted := some 0xFF, cells := [(3, 1), (9, 2)] } = true ∧ Memory.wf { unlisted := some 0xFF, cells := [(3, 0xFF)] } = false
      ∧ Memory.wf { unlisted := none, cells := [(9, 1), (3, 2)] } = false := by decide

/-- The span starts just above an unlock address. -/
theorem test_witness_PageReadback :
    linesIdle (start 3 [] []) = true ∧ 16 ≤ params.addrWidth ∧ params.addrWidth ≤ 32 ∧ (device 3 []).mem.wf = true
      ∧ ([1, 2] : List Byte).length ≤ 2 ^ params.addrWidth
      ∧ (∀ i, i < ([1, 2] : List Byte).length → busAddr params.addrWidth (spanAddr 0x5556 i) ≠ 0x5555
        ∧ busAddr params.addrWidth (spanAddr 0x5556 i) ≠ 0x2AAA) := by decide

theorem test_witness_RoundTrip :
    linesIdle (start 2 [] []) = true ∧ (start 2 [] []).dev = .test (device 2 []) ∧ (device 2 []).mem.wf = true
      ∧ 1 < (device 2 []).polls ∧ ¬ 2 < (device 2 []).polls := by decide

/-- P3, under FLASH. -/
theorem test_witness_FlashPageFromTheLink :
    (flash (start 0 [] [])).session = .awaitingCommand ∧ (flash (start 0 [] [])).line = []
      ∧ paramsLegal (flash (start 0 [] [])).params = true ∧ (0x10 : Word).toNat ≤ (0x11 : Word).toNat ∧ rangeLength 0x10 0x11 ≤ 4096
      ∧ ([0x41, 0x42] : List Byte).length = rangeLength 0x10 0x11
      ∧ encode params (.page 0x10 0x11) = .line [0x70, 0x20, 0x30, 0x30, 0x30, 0x30, 0x30, 0x30, 0x31, 0x30, 0x20, 0x30, 0x30, 0x30, 0x30, 0x30, 0x30, 0x31, 0x31, 0x0A] := by decide

end Sys2Proof.Tests
end

/-! ## The bus is never driven from both sides (R23) -/

namespace Sys2Proof.Machine

/-- A whole bus cycle begun on idle lines ends on idle lines, and within it the two sides never drive at once (R102 to R104). -/
theorem busExclusive_cycleEvents (order : ReadOrder) (c : Cycle) (rest : List BusEvent) :
    busExclusive .input .deasserted (cycleEvents order c ++ rest) = busExclusive .input .deasserted rest := by
  cases c with
  | rd a v => cases order <;> rfl
  | wr a v => rfl
  | poll a v => rfl
  | addr a => rfl
  | delay t => rfl

theorem busExclusive_expand (order : ReadOrder) (cycles : List Cycle) :
    busExclusive .input .deasserted (expand order cycles) = true := by
  induction cycles with
  | nil => rfl
  | cons c rest ih => rw [expand_cons, busExclusive_cycleEvents, ih]

/-- Settles O22: a step performs whole bus cycles (`step_act`), and each of them keeps the two sides apart. -/
theorem busNeverDrivenFromBothSides : Obligations.BusNeverDrivenFromBothSides := by
  intro s t h ht
  obtain ⟨cycles, hc⟩ := step_act h ht
  obtain ⟨hdir, hoe, -, -⟩ := linesIdle_iff.mp h
  refine ⟨expand s.params.readOrder cycles, hc.busTrace, ?_, hc.linesIdle.trans h⟩
  rw [hdir, hoe]
  exact busExclusive_expand _ cycles

/-! ## `strategy` is read by `p` and `f` alone (R19) -/

/-- The same state under the strategy `x`. -/
def withStrategy (x : Strategy) (s : State) : State := { s with strategy := x }

@[simp] theorem withStrategy_strategy (x : Strategy) (s : State) : (withStrategy x s).strategy = x := rfl
@[simp] theorem withStrategy_params (x : Strategy) (s : State) : (withStrategy x s).params = s.params := rfl
@[simp] theorem withStrategy_self (s : State) : withStrategy s.strategy s = s := rfl

theorem sample_withStrategy (kind : SampleKind) (x : Strategy) (s : State) :
    sample kind (withStrategy x s) = ((sample kind s).1, withStrategy x (sample kind s).2) := by
  have hdrives : chipDrives (withStrategy x s) = chipDrives s := rfl
  have hdev : (withStrategy x s).dev = s.dev := rfl
  have haddr : (withStrategy x s).addr = s.addr := rfl
  unfold sample
  rw [hdrives, hdev, haddr]
  rcases (if chipDrives s then s.dev.answer kind s.addr else (none, s.dev)) with ⟨_ | v, d⟩ <;> rfl

theorem emit_withStrategy (e : BusEvent) (x : Strategy) (s : State) :
    emit e (withStrategy x s) = withStrategy x (emit e s) := by cases e <;> rfl

theorem emitAll_withStrategy (events : List BusEvent) (x : Strategy) (s : State) :
    emitAll events (withStrategy x s) = withStrategy x (emitAll events s) := by
  induction events generalizing s with
  | nil => rfl
  | cons e rest ih => simp only [emitAll, emit_withStrategy, ih]

theorem readByte_withStrategy (a : Word) (x : Strategy) (s : State) :
    readByte a (withStrategy x s) = ((readByte a s).1, withStrategy x (readByte a s).2) := by
  simp only [readByte, takeSample, withStrategy_params, emitAll_withStrategy, emit_withStrategy, sample_withStrategy]
  rfl

theorem writeByte_withStrategy (a : Word) (v : Byte) (x : Strategy) (s : State) :
    writeByte a v (withStrategy x s) = withStrategy x (writeByte a v s) := by
  rw [writeByte_eq, writeByte_eq]
  rfl

theorem writeSeq_withStrategy (steps : List (Word × Byte)) (x : Strategy) (s : State) :
    writeSeq steps (withStrategy x s) = withStrategy x (writeSeq steps s) := by
  induction steps generalizing s with
  | nil => rfl
  | cons step rest ih => simp only [writeSeq, writeByte_withStrategy, ih]

theorem engineDelay_withStrategy (t : DelayName) (x : Strategy) (s : State) :
    engineDelay t (withStrategy x s) = withStrategy x (engineDelay t s) := rfl

theorem putLine_withStrategy (text : List Byte) (x : Strategy) (s : State) :
    putLine text (withStrategy x s) = withStrategy x (putLine text s) := rfl

theorem linkPut_withStrategy (bytes : List Byte) (x : Strategy) (s : State) :
    linkPut bytes (withStrategy x s) = withStrategy x (linkPut bytes s) := rfl

theorem flashByteProgram_withStrategy (a : Word) (v : Byte) (x : Strategy) (s : State) :
    flashByteProgram a v (withStrategy x s) = withStrategy x (flashByteProgram a v s) := by
  simp only [flashByteProgram, writeSeq_withStrategy, writeByte_withStrategy, engineDelay_withStrategy]

theorem readSpan_withStrategy (count : Nat) (a : Word) (x : Strategy) (s : State) :
    readSpan count a (withStrategy x s) = ((readSpan count a s).1, withStrategy x (readSpan count a s).2) := by
  induction count generalizing a s with
  | zero => rfl
  | succ n ih => simp only [readSpan, readByte_withStrategy, ih]

theorem dumpRow_withStrategy (base : Word) (count : Nat) (x : Strategy) (s : State) :
    dumpRow base count (withStrategy x s) = withStrategy x (dumpRow base count s) := by
  simp only [dumpRow, readSpan_withStrategy, withStrategy_params, putLine_withStrategy]

theorem dumpRows_withStrategy (start : Word) (length left : Nat) (x : Strategy) (s : State) :
    dumpRows start length left (withStrategy x s) = withStrategy x (dumpRows start length left s) := by
  induction left generalizing s with
  | zero => rfl
  | succ n ih => simp only [dumpRows, withStrategy_params, dumpRow_withStrategy, ih]

theorem streamBytes_withStrategy (count : Nat) (a : Word) (x : Strategy) (s : State) :
    streamBytes count a (withStrategy x s) = withStrategy x (streamBytes count a s) := by
  induction count generalizing a s with
  | zero => rfl
  | succ n ih => simp only [streamBytes, readByte_withStrategy, linkPut_withStrategy, ih]

theorem chipErase_withStrategy (x : Strategy) (s : State) :
    chipErase (withStrategy x s) = withStrategy x (chipErase s) := by
  rw [chipErase, writeSeq_withStrategy, engineDelay_withStrategy, chipErase]

theorem enableWriteProtection_withStrategy (x : Strategy) (s : State) :
    enableWriteProtection (withStrategy x s) = withStrategy x (enableWriteProtection s) := by
  rw [enableWriteProtection, withStrategy_params, writeSeq_withStrategy, engineDelay_withStrategy, enableWriteProtection]

theorem disableWriteProtection_withStrategy (x : Strategy) (s : State) :
    disableWriteProtection (withStrategy x s) = withStrategy x (disableWriteProtection s) := by
  rw [disableWriteProtection, withStrategy_params, writeSeq_withStrategy, engineDelay_withStrategy, disableWriteProtection]

/-- The instructions that neither write `strategy` (`E`, `F`) nor commit through it (`p`, `f`) do the same under any strategy. -/
theorem exec_withStrategy {i : Instr} {s t : State} (x : Strategy) (hE : i ≠ .modeEeprom) (hF : i ≠ .modeFlash)
    (hp : ∀ a b, i ≠ .page a b) (hf : ∀ a b c, i ≠ .fill a b c) (h : exec i s = .next t) :
    exec i (withStrategy x s) = .next (withStrategy x t) := by
  cases i with
  | page a b => exact absurd rfl (hp a b)
  | fill a b c => exact absurd rfl (hf a b c)
  | modeEeprom => exact absurd rfl hE
  | modeFlash => exact absurd rfl hF
  | ident | version | setAddress _ | unrecognised _ =>
    obtain rfl := Host.Outcome.next.inj h
    rfl
  | dump _ _ =>
    obtain rfl := Host.Outcome.next.inj h
    exact congrArg Host.Outcome.next (dumpRows_withStrategy _ _ _ x s)
  | read _ _ =>
    obtain rfl := Host.Outcome.next.inj h
    exact congrArg Host.Outcome.next (streamBytes_withStrategy _ _ x s)
  | seqFlashByteProgram target value =>
    obtain rfl := Host.Outcome.next.inj h
    exact congrArg Host.Outcome.next (flashByteProgram_withStrategy target value x s)
  | erase | seqChipErase =>
    obtain rfl := Host.Outcome.next.inj h
    exact congrArg Host.Outcome.next (chipErase_withStrategy x s)
  | lock | seqSwpEnable =>
    obtain rfl := Host.Outcome.next.inj h
    exact congrArg Host.Outcome.next (enableWriteProtection_withStrategy x s)
  | unlock | seqSwpDisable =>
    obtain rfl := Host.Outcome.next.inj h
    exact congrArg Host.Outcome.next (disableWriteProtection_withStrategy x s)

/-! ## `strategy` is written by `E` and `F` alone (R19) -/

theorem execModeEeprom_strategy {s t : State} (h : execModeEeprom s = .next t) : t.strategy = .eeprom := by
  obtain rfl := Host.Outcome.next.inj h
  rfl

theorem execModeFlash_strategy {s t : State} (h : execModeFlash s = .next t) : t.strategy = .flash := by
  obtain rfl := Host.Outcome.next.inj h
  rfl

theorem execPage_strategy {start stop : Word} {s t : State} (h : execPage start stop s = .next t) :
    t.strategy = s.strategy := by
  rcases execPage_cases h with ⟨-, ⟨-, rfl⟩ | ⟨-, rfl⟩⟩ | ⟨-, hb⟩
  · rfl
  · rfl
  · exact (busOnly_strategy (enterBinary_busOnly hb).1).trans rfl

theorem execFill_strategy {start stop value : Word} {s t : State} (h : execFill start stop value s = .next t) :
    t.strategy = s.strategy := by
  rw [answer_next h]
  exact (busOnly_strategy (fillFrom_busOnly _ _ _ s)).trans rfl

theorem handOver_strategy {s t : State} (h : handOver s = .next t) : t.strategy = s.strategy :=
  (busOnly_strategy (handOver_busOnly h).1).trans rfl

theorem resumeWait_strategy {w : PollWait} {s t : State} (h : resumeWait w s = .next t) : t.strategy = s.strategy :=
  (busOnly_strategy (resumeWait_busOnly h)).trans rfl

/-- Every instruction but `E` and `F` leaves `strategy` as it was. For those that do not read it either, this is
`exec_withStrategy` at the strategy the state has. -/
theorem exec_strategy {i : Instr} {s t : State} (hE : i ≠ .modeEeprom) (hF : i ≠ .modeFlash) (h : exec i s = .next t) :
    t.strategy = s.strategy := by
  by_cases hp : ∃ a b, i = .page a b
  · obtain ⟨a, b, rfl⟩ := hp
    exact execPage_strategy h
  by_cases hf : ∃ a b c, i = .fill a b c
  · obtain ⟨a, b, c, rfl⟩ := hf
    exact execFill_strategy h
  push Not at hp hf
  have hsame := exec_withStrategy s.strategy hE hF hp hf h
  rw [withStrategy_self, h] at hsame
  rw [Host.Outcome.next.inj hsame, withStrategy_strategy]

theorem sessionTail_strategy (s : State) : (sessionTail s).strategy = s.strategy := by
  rcases sessionTail_cases s with ⟨-, h⟩ | ⟨-, -, -, h⟩ <;> rw [h]

/-- The end of a turn leaves `strategy` as the command's effect left it. -/
theorem finish_strategy {o : Host.Outcome State Fault Refusal} {t : State} (h : finish o = .next t) :
    ∃ u, o = .next u ∧ t.strategy = u.strategy := by
  obtain ⟨u, hu, rfl⟩ := finish_next h
  exact ⟨u, hu, sessionTail_strategy u⟩

/-- A step leaves `strategy` as it was, or executes the `E` or the `F` whose line it completes. -/
theorem step_strategy {s t : State} (h : step s = .next t) :
    t.strategy = s.strategy
      ∨ s.session = .awaitingCommand ∧ ∃ line rest, readLine s.params.lineMax s.line s.linkIn = .complete line rest
          ∧ (instrOf (parseLine line) = .modeEeprom ∧ t.strategy = .eeprom
              ∨ instrOf (parseLine line) = .modeFlash ∧ t.strategy = .flash) := by
  rcases step_cases s with ⟨-, hs⟩ | ⟨-, -, line, -, hs⟩ | ⟨-, hsess, line, rest, hline, hs⟩ | ⟨-, -, hs⟩ | ⟨-, -, -, hs⟩
    | ⟨-, -, w, -, hs⟩ <;> rw [hs] at h
  · cases h
  · obtain rfl := Host.Outcome.next.inj h
    exact .inl rfl
  · obtain ⟨u, hu, ht⟩ := finish_strategy h
    by_cases hE : instrOf (parseLine line) = .modeEeprom
    · rw [hE] at hu
      exact .inr ⟨hsess, line, rest, hline, .inl ⟨hE, ht.trans (execModeEeprom_strategy hu)⟩⟩
    by_cases hF : instrOf (parseLine line) = .modeFlash
    · rw [hF] at hu
      exact .inr ⟨hsess, line, rest, hline, .inr ⟨hF, ht.trans (execModeFlash_strategy hu)⟩⟩
    exact .inl (ht.trans ((exec_strategy hE hF hu).trans (loadCommand_strategy _ _)))
  · obtain ⟨u, hu, ht⟩ := finish_strategy h
    exact .inl (ht.trans ((handOver_strategy hu).trans (collectBinary_strategy s)))
  · obtain rfl := Host.Outcome.next.inj h
    exact .inl (sessionTail_strategy s)
  · obtain ⟨u, hu, ht⟩ := finish_strategy h
    exact .inl (ht.trans (resumeWait_strategy hu))

/-- Settles O50: the writers are `exec_strategy` and `step_strategy`, the readers `exec_withStrategy`. -/
theorem strategyWrittenOnlyByModeCommands : Obligations.StrategyWrittenOnlyByModeCommands :=
  ⟨rfl, fun _ _ => execModeEeprom_strategy, fun _ _ => execModeFlash_strategy,
    fun _ _ _ hE hF => exec_strategy hE hF, fun _ _ => step_strategy,
    fun _ _ _ x hE hF hp hf => exec_withStrategy x hE hF hp hf⟩

end Sys2Proof.Machine

/-! ## The opcode map (R74, R79, R81) -/

namespace Sys2Proof

@[simp] theorem parseLine_nil_opcode : (parseLine []).opcode = none := rfl
@[simp] theorem parseLine_cons_opcode (b : Byte) (more : List Byte) : (parseLine (b :: more)).opcode = some b := rfl

/-- A line without an opcode selects the unrecognised instruction (R81). -/
theorem instrOf_of_opcode_none {p : Parsed} (hp : p.opcode = none) : instrOf p = .unrecognised none := by
  simp only [instrOf, hp]

/-- Outside the twelve bytes of the map no branch of it is taken (R81). -/
theorem instrOf_of_notMem_commandBytes {p : Parsed} {b : Byte} (hp : p.opcode = some b) (hb : b ∉ commandBytes) :
    instrOf p = .unrecognised (some b) := by
  simp only [commandBytes, List.mem_cons, List.not_mem_nil, or_false, not_or] at hb
  simp only [instrOf, hp, hb, if_false]

end Sys2Proof

namespace Sys2Proof.Machine

/-- Settles O7: each of the twelve bytes takes its own branch of the map, by evaluation; any other byte takes none of them
(`instrOf_of_notMem_commandBytes`), nor does the empty line. -/
theorem opcodeMapOnTheExactByte : Obligations.OpcodeMapOnTheExactByte := by
  refine ⟨fun b more => ?_, parseLine_nil_opcode, instrOf_of_opcode_none parseLine_nil_opcode⟩
  have hb : (parseLine (b :: more)).opcode = some b := parseLine_cons_opcode b more
  refine ⟨hb, ?_, ?_, ?_, ?_, ?_, ?_, ?_, ?_, ?_, ?_, ?_, ?_, instrOf_of_notMem_commandBytes hb⟩
  -- one goal for each of the twelve opcode bytes
  all_goals
    rintro rfl
    rfl

end Sys2Proof.Machine

/-! ## The payload in the page buffer (R141) -/

namespace Sys2Proof.Machine

/-- `collectBinary`'s buffer entry by entry, for a payload within the capacity: the index range that was just received reads
the link's bytes, whatever they are, and every other index reads as before (R141). -/
theorem collectBinary_read {s : State} (hu : s.pageBuffer.unlisted = none) (hle : s.binIndex ≤ s.binCount)
    (hcap : s.binCount ≤ pageCap) (j : Nat) :
    (collectBinary s).pageBuffer.read j
      = if s.binIndex ≤ j ∧ j < s.binIndex + min s.linkIn.length (s.binCount - s.binIndex) then s.linkIn[j - s.binIndex]?
        else s.pageBuffer.read j := by
  have hlen : (s.linkIn.take (s.binCount - s.binIndex)).length = min s.linkIn.length (s.binCount - s.binIndex) := by
    rw [List.length_take, min_comm]
  rw [collectBinary_pageBuffer, storePayload_read hu, hlen]
  by_cases hj : s.binIndex ≤ j ∧ j < s.binIndex + min s.linkIn.length (s.binCount - s.binIndex)
  · rw [if_pos hj, if_pos ⟨hj.1, hj.2, by omega⟩, List.getElem?_take_of_lt (by omega)]
  · rw [if_neg hj, if_neg fun h => hj ⟨h.1, h.2.1⟩]

/-- As many bytes as `collectBinary` takes leave the link. -/
theorem collectBinary_linkIn_eq_drop_min (s : State) :
    (collectBinary s).linkIn = s.linkIn.drop (min s.linkIn.length (s.binCount - s.binIndex)) := by
  rcases Nat.le_total s.linkIn.length (s.binCount - s.binIndex) with h | h
  · rw [collectBinary_linkIn, Nat.min_eq_left h, List.drop_length, List.drop_eq_nil_of_le h]
  · rw [collectBinary_linkIn, Nat.min_eq_right h]

/-- Settles O13: the entries by `collectBinary_read`, the frame by `collectBinary_fields`. -/
theorem payloadIsCollectedInOrder : Obligations.PayloadIsCollectedInOrder := by
  intro s hu hle hcap n t
  refine ⟨fun i hi => ?received, fun j hj => ?kept, ?frame⟩
  case received =>
    rw [collectBinary_read hu hle hcap, if_pos ⟨by omega, by omega⟩, Nat.add_sub_cancel_left]
  case kept =>
    rw [collectBinary_read hu hle hcap, if_neg (by omega)]
  case frame =>
    have hn : (collectBinary s).binIndex = s.binIndex + n := by
      rw [collectBinary_binIndex, List.length_take, min_comm]
    have hl : (collectBinary s).linkIn = s.linkIn.drop n := collectBinary_linkIn_eq_drop_min s
    rw [← hn, ← hl]
    exact collectBinary_fields s

end Sys2Proof.Machine

/-! ## The text lines of `i` and `v` (R170, R171) -/

namespace Sys2Proof.Machine

/-- `putLine` as one record update: the whole frame of an output line at once. -/
theorem putLine_eq (text : List Byte) (s : State) :
    putLine text s = { s with linkOut := s.linkOut ++ (text ++ s.params.eolOut) } := rfl

/-- `i` is one output line and nothing else (R170). -/
theorem exec_ident_eq_putLine (s : State) : exec .ident s = .next (putLine s.params.idString s) := rfl

/-- `v` is one output line and nothing else (R171). -/
theorem exec_version_eq_putLine (s : State) : exec .version s = .next (putLine s.params.versionString s) := rfl

/-- Settles O29: both commands are one `putLine`, whose frame is `putLine_eq`; the two opcodes whatever follows them are
the first two entries of the opcode map (`opcodeMapOnTheExactByte`). -/
theorem identAndVersionEmitTheirLine : Obligations.IdentAndVersionEmitTheirLine := by
  intro s
  refine ⟨?ident, ?version, fun more => ⟨?opcodeI, ?opcodeV⟩⟩
  case ident => rw [exec_ident_eq_putLine, putLine_eq]
  case version => rw [exec_version_eq_putLine, putLine_eq]
  case opcodeI =>
    obtain ⟨-, hi, -⟩ := opcodeMapOnTheExactByte.1 0x69 more
    exact hi rfl
  case opcodeV =>
    obtain ⟨-, -, hv, -⟩ := opcodeMapOnTheExactByte.1 0x76 more
    exact hv rfl

end Sys2Proof.Machine

/-! ## Decoding an encoded instruction (R71 to R84, R124) -/

namespace Sys2Proof.Machine

open Laws.CodeForm (codeSize codeOk)

/-- The clamp leaves a range that is not inverted as it is (R77). -/
theorem clampEnd_of_le {start stop : Word} (h : start.toNat ≤ stop.toNat) : clampEnd start stop = stop :=
  if_neg (Nat.not_lt.mpr h)

/-- The first field of a line is read back as the start (R71, R76). -/
theorem parseLine_startAddr_hex8 (b : Byte) (x : Word) (more : List Byte) :
    (parseLine (b :: charSP :: (hex8 x ++ more))).startAddr = x := by
  have h := hexField_at (pre := [b, charSP]) (post := more) x rfl
  rw [List.append_assoc] at h
  exact h

/-- The second field of a line is read back as the end, clamped to the first (R71, R76, R77). -/
theorem parseLine_endAddr_hex8 (b : Byte) (x y : Word) (more : List Byte) :
    (parseLine (b :: charSP :: (hex8 x ++ charSP :: (hex8 y ++ more)))).endAddr = clampEnd x y := by
  have hx := parseLine_startAddr_hex8 b x (charSP :: (hex8 y ++ more))
  have hy := hexField_at (pre := b :: charSP :: (hex8 x ++ [charSP])) (post := more) y (o := 11)
    (by simp [hex8, hexDigits_length])
  simp only [List.cons_append, List.append_assoc, List.nil_append] at hy
  exact congrArg₂ clampEnd hx hy

/-- The third field of a line is read back whole (R71, R76). -/
theorem parseLine_fillField_hex8 (b : Byte) (x y z : Word) (more : List Byte) :
    (parseLine (b :: charSP :: (hex8 x ++ charSP :: (hex8 y ++ charSP :: (hex8 z ++ more))))).fillField = z := by
  have hz := hexField_at (pre := b :: charSP :: (hex8 x ++ charSP :: (hex8 y ++ [charSP]))) (post := more) z (o := 20)
    (by simp [hex8, hexDigits_length])
  simp only [List.cons_append, List.append_assoc, List.nil_append] at hz
  exact hz

/-- The text of a well-formed instruction's line parses to the instruction. -/
theorem instrOf_parseLine_encode {p : Params} {i : Instr} {text : List Byte} (hw : i.wf = true)
    (he : encode p i = .line (text ++ [charLF])) : instrOf (parseLine text) = i := by
  cases i with
  | ident | version | lock | unlock | erase | modeEeprom | modeFlash =>
    obtain rfl : [_] = text := List.append_cancel_right (Code.line.inj he)
    rfl
  | setAddress start =>
    obtain rfl : 0x61#8 :: charSP :: hex8 start = text := List.append_cancel_right (Code.line.inj he)
    have hs := parseLine_startAddr_hex8 0x61#8 start []
    rw [List.append_nil] at hs
    simp [instrOf, hs]
  | dump start stop | read start stop | page start stop =>
    obtain rfl : _ :: charSP :: (hex8 start ++ charSP :: hex8 stop) = text :=
      List.append_cancel_right (bs := [charLF]) (by simpa using Code.line.inj he)
    have hs := fun b => parseLine_startAddr_hex8 b start (charSP :: hex8 stop)
    have hr := fun b => parseLine_endAddr_hex8 b start stop []
    simp only [List.append_nil, clampEnd_of_le (of_decide_eq_true hw)] at hr
    simp [instrOf, hs, hr]
  | fill start stop value =>
    obtain rfl : 0x66#8 :: charSP :: (hex8 start ++ charSP :: (hex8 stop ++ charSP :: hex8 value)) = text :=
      List.append_cancel_right (bs := [charLF]) (by simpa using Code.line.inj he)
    have hs := parseLine_startAddr_hex8 0x66#8 start (charSP :: (hex8 stop ++ charSP :: hex8 value))
    have hr := parseLine_endAddr_hex8 0x66#8 start stop (charSP :: hex8 value)
    have hv := parseLine_fillField_hex8 0x66#8 start stop value []
    rw [clampEnd_of_le (of_decide_eq_true hw)] at hr
    rw [List.append_nil] at hv
    simp [instrOf, hs, hr, hv]
  | unrecognised opcode =>
    cases opcode with
    | none =>
      obtain rfl : [] = text := List.append_cancel_right (Code.line.inj he)
      rfl
    | some b =>
      obtain rfl : [b] = text := List.append_cancel_right (Code.line.inj he)
      simp only [Instr.wf, unmatched, Bool.and_eq_true, Bool.not_eq_true', List.contains_eq_mem, decide_eq_false_iff_not]
        at hw
      exact instrOf_of_notMem_commandBytes rfl hw.1
  | seqFlashByteProgram _ _ | seqChipErase | seqSwpEnable | seqSwpDisable => cases he

/-- Every instruction's encoding has its size and form (the statements of `Laws.CodeForm`, in one). -/
theorem encode_codeOk {p : Params} {i : Instr} (hp : paramsLegal p = true) (hw : i.wf = true) :
    codeOk (codeSize i) (encode p i) := by
  cases i with
  | ident => exact Laws.CodeForm.ident p hp hw
  | version => exact Laws.CodeForm.version p hp hw
  | setAddress a => exact Laws.CodeForm.setAddress a p hp hw
  | dump a b => exact Laws.CodeForm.dump a b p hp hw
  | fill a b c => exact Laws.CodeForm.fill a b c p hp hw
  | read a b => exact Laws.CodeForm.read a b p hp hw
  | page a b => exact Laws.CodeForm.page a b p hp hw
  | lock => exact Laws.CodeForm.lock p hp hw
  | unlock => exact Laws.CodeForm.unlock p hp hw
  | erase => exact Laws.CodeForm.erase p hp hw
  | modeEeprom => exact Laws.CodeForm.modeEeprom p hp hw
  | modeFlash => exact Laws.CodeForm.modeFlash p hp hw
  | unrecognised o => exact Laws.CodeForm.unrecognised o p hp hw
  | seqFlashByteProgram a v => exact Laws.CodeForm.seqFlashByteProgram a v p hp hw
  | seqChipErase => exact Laws.CodeForm.seqChipErase p hp hw
  | seqSwpEnable => exact Laws.CodeForm.seqSwpEnable p hp hw
  | seqSwpDisable => exact Laws.CodeForm.seqSwpDisable p hp hw

theorem codeSize_le (i : Instr) : codeSize i ≤ 29 := by
  cases i with
  | unrecognised o => cases o <;> simp [codeSize]
  | _ => simp [codeSize]

/-- A line short of `LINE_MAX` with its terminator decodes to the instruction of its text (R152, R154). -/
theorem decodeStream_line {n : Nat} {text : List Byte} (hlf : charLF ∉ text) (hn : text.length < n) (rest : List Byte) :
    decodeStream n (text ++ [charLF] ++ rest) = .ok (instrOf (parseLine text), rest) := by
  have h := readLine_term n [] text rest hlf (by simpa using hn)
  rw [List.append_assoc, List.singleton_append]
  simp [decodeStream, h]

/-- The writes of a bus sequence are told apart by their number and, where that agrees, by the sequence itself (R124, R126). -/
theorem decodeWrites_encode {p : Params} {i : Instr} {steps : List (Word × Byte)} (hp : paramsLegal p = true)
    (he : encode p i = .writes steps) : decodeWrites p steps = .ok i := by
  obtain ⟨-, ⟨henable, hdisable, hdistinct⟩, -⟩ := paramsLegal_facts hp
  have ne_of_length {xs ys : List (Word × Byte)} (h : xs.length ≠ ys.length) : xs ≠ ys := fun e => h (e ▸ rfl)
  have herase : chipEraseSeq.length = 6 := rfl
  cases i with
  | seqFlashByteProgram target value =>
    obtain rfl := Code.writes.inj he
    have hl : (flashUnlock ++ [(target, value)]).length = 4 := rfl
    unfold decodeWrites
    rw [if_neg (ne_of_length (by omega)), if_neg (ne_of_length (by omega)), if_neg (ne_of_length (by omega))]
    rfl
  | seqChipErase =>
    obtain rfl := Code.writes.inj he
    exact if_pos rfl
  | seqSwpEnable =>
    obtain rfl := Code.writes.inj he
    unfold decodeWrites
    rw [if_neg (ne_of_length (by omega)), if_pos rfl]
  | seqSwpDisable =>
    obtain rfl := Code.writes.inj he
    unfold decodeWrites
    rw [if_neg hdistinct, if_neg (ne_of_length (by omega)), if_pos rfl]
  | unrecognised o => cases o <;> cases he
  | _ => cases he

/-- Settles O1: a line decodes to the instruction of its text (`decodeStream_line`), which is the one encoded
(`instrOf_parseLine_encode`); a list of writes by `decodeWrites_encode`. -/
theorem decodeOfEncodeIsTheInstruction : Obligations.DecodeOfEncodeIsTheInstruction := by
  intro p i hp hw
  have hform := encode_codeOk hp hw
  cases he : encode p i with
  | line bytes =>
    rw [he] at hform
    obtain ⟨hsize, text, rfl, hlf⟩ := hform
    obtain ⟨⟨-, -, hmax⟩, -⟩ := paramsLegal_facts hp
    have hlen : text.length < p.lineMax := by
      have := codeSize_le i
      rw [List.length_append, List.length_singleton] at hsize
      omega
    intro rest
    rw [decodeStream_line hlf hlen, instrOf_parseLine_encode hw he]
  | writes steps => exact decodeWrites_encode hp he

/-! ## What the decoder can give (R77, R81) -/

/-- A line without a terminator in it parses to a well-formed instruction. -/
theorem instrOf_parseLine_wf {line : List Byte} (hlf : charLF ∉ line) : (instrOf (parseLine line)).wf = true := by
  cases line with
  | nil => rfl
  | cons b more =>
    have hrange : rangeOk (parseLine (b :: more)).startAddr (parseLine (b :: more)).endAddr = true :=
      decide_eq_true (parseLine_range _)
    by_cases hb : b ∈ commandBytes
    · simp only [commandBytes, List.mem_cons, List.not_mem_nil, or_false] at hb
      rcases hb with rfl | rfl | rfl | rfl | rfl | rfl | rfl | rfl | rfl | rfl | rfl | rfl
      case inr.inr.inr.inl | inr.inr.inr.inr.inl | inr.inr.inr.inr.inr.inl | inr.inr.inr.inr.inr.inr.inl => exact hrange
      all_goals rfl
    · rw [instrOf_of_notMem_commandBytes rfl hb]
      simp only [List.mem_cons, not_or] at hlf
      have hne : b ≠ 0x0A#8 := Ne.symm hlf.1
      simp [Instr.wf, unmatched, hb, hne]

/-- A complete line holds no terminator, if what stood in it before does not (R152). -/
theorem LF_notMem_of_readLine {n : Nat} {line input l rest : List Byte} (h : readLine n line input = .complete l rest)
    (hlf : charLF ∉ line) : charLF ∉ l := by
  have hf := readLine_facts n line input
  rw [h] at hf
  obtain ⟨-, hkeep, -⟩ := hf
  have := hkeep (List.all_eq_true.mpr fun c hc => bne_iff_ne.mpr fun e => hlf (e ▸ hc))
  exact fun hl => bne_iff_ne.mp (List.all_eq_true.mp this _ hl) rfl

/-- Settles O2: the decoder gives the instruction of a complete line, in which no terminator stands. -/
theorem decodedInstructionIsWellFormed : Obligations.DecodedInstructionIsWellFormed := by
  intro n input rest i h
  unfold decodeStream at h
  split at h
  · rename_i line tail hr
    obtain ⟨rfl, -⟩ := Prod.mk.inj (Except.ok.inj h)
    exact instrOf_parseLine_wf (LF_notMem_of_readLine hr List.not_mem_nil)
  · cases h

/-- Settles O3: closed lines, by evaluation of the decoder. -/
theorem specLinesDecode : Obligations.SpecLinesDecode := by
  unfold Obligations.SpecLinesDecode
  decide

/-! ## Hex digits and hex fields (R75, R76, D8) -/

theorem hexVal_of_decimal {c : Byte} (h1 : 0x30 ≤ c.toNat) (h2 : c.toNat ≤ 0x39) : hexVal c = some (c.toNat - 0x30) :=
  if_pos ⟨h1, h2⟩

theorem hexVal_of_lower {c : Byte} (h1 : 0x61 ≤ c.toNat) (h2 : c.toNat ≤ 0x66) :
    hexVal c = some (c.toNat - 0x61 + 10) := by
  unfold hexVal
  rw [if_neg (by omega), if_pos ⟨h1, h2⟩]

theorem hexVal_of_upper {c : Byte} (h1 : 0x41 ≤ c.toNat) (h2 : c.toNat ≤ 0x46) :
    hexVal c = some (c.toNat - 0x41 + 10) := by
  unfold hexVal
  rw [if_neg (by omega), if_neg (by omega), if_pos ⟨h1, h2⟩]

theorem hexVal_of_other {c : Byte} (h1 : ¬ (0x30 ≤ c.toNat ∧ c.toNat ≤ 0x39)) (h2 : ¬ (0x61 ≤ c.toNat ∧ c.toNat ≤ 0x66))
    (h3 : ¬ (0x41 ≤ c.toNat ∧ c.toNat ≤ 0x46)) : hexVal c = none := by
  unfold hexVal
  rw [if_neg h1, if_neg h2, if_neg h3]

theorem hexVal_lt {c : Byte} {d : Nat} (h : hexVal c = some d) : d < 16 := by
  unfold hexVal at h
  split_ifs at h <;> simp only [Option.some.injEq] at h <;> omega

theorem hexSum_cons {c : Byte} {cs : List Byte} {d r n : Nat} (hc : hexVal c = some d) (hn : cs.length = n)
    (hs : hexSum cs = some r) : hexSum (c :: cs) = some (d * 16 ^ n + r) := by simp [hexSum, hc, hn, hs]

/-- One character that is no hex digit spoils the whole sum (D8). -/
theorem hexSum_eq_none {cs : List Byte} {c : Byte} (hm : c ∈ cs) (hc : hexVal c = none) : hexSum cs = none := by
  induction cs with
  | nil => cases hm
  | cons b rest ih =>
    rcases List.mem_cons.mp hm with rfl | hm
    · simp [hexSum, hc]
    · simp [hexSum, ih hm]

/-- The sum of R76 is below 16 to the number of digits. -/
theorem hexSum_lt {cs : List Byte} {v : Nat} (h : hexSum cs = some v) : v < 16 ^ cs.length := by
  induction cs generalizing v with
  | nil => simpa [hexSum, eq_comm] using h
  | cons c rest ih =>
    simp only [hexSum] at h
    split at h
    · rename_i d r hd hr
      obtain rfl := Option.some.inj h
      have h1 := hexVal_lt hd
      have h2 := ih hr
      rw [List.length_cons, pow_succ]
      nlinarith
    · cases h

/-- A field with all its characters on the line is their sum, or 0 when there is none (R76). -/
theorem hexField_of_le {line : List Byte} {o : Nat} (h : o + 8 ≤ line.length) :
    (hexField line o).toNat = (hexSum ((line.drop o).take 8)).getD 0 := by
  unfold hexField
  rw [if_neg (by omega)]
  cases hs : hexSum ((line.drop o).take 8) with
  | none => rfl
  | some v =>
    have hv := hexSum_lt hs
    rw [List.length_take, List.length_drop, Nat.min_eq_left (by omega)] at hv
    rw [show (16 : Nat) ^ 8 = 2 ^ 32 by norm_num] at hv
    rw [Option.getD_some, BitVec.toNat_ofNat, Nat.mod_eq_of_lt hv]

theorem hexField_of_lt {line : List Byte} {o : Nat} (h : line.length < o + 8) : hexField line o = 0 := if_pos h

/-- Settles O4: the digit ranges by the branches of `hexVal`, the field by `hexField_of_le` and the sum of its digits. -/
theorem hexFieldValue : Obligations.HexFieldValue := by
  refine ⟨fun c => ⟨hexVal_of_decimal, hexVal_of_lower, hexVal_of_upper, hexVal_of_other⟩,
    fun line o => ⟨hexField_of_lt, ?invalid, ?digits⟩⟩
  case invalid =>
    rintro h ⟨c, hm, hc⟩
    refine BitVec.eq_of_toNat_eq ?_
    rw [hexField_of_le h, hexSum_eq_none hm hc]
    rfl
  case digits =>
    intro d0 d1 d2 d3 d4 d5 d6 d7 hmap
    have hlen : o + 8 ≤ line.length := by
      have := congrArg List.length hmap
      simp only [List.length_map, List.length_take, List.length_drop, List.length_cons, List.length_nil] at this
      omega
    rw [hexField_of_le hlen]
    simp only [List.map_eq_cons_iff, List.map_eq_nil_iff] at hmap
    obtain ⟨c0, _, hl, h0, c1, _, rfl, h1, c2, _, rfl, h2, c3, _, rfl, h3, c4, _, rfl, h4, c5, _, rfl, h5, c6, _, rfl, h6,
      c7, _, rfl, h7, rfl⟩ := hmap
    have hsum := hexSum_cons h0 (n := 7) rfl <| hexSum_cons h1 (n := 6) rfl <| hexSum_cons h2 (n := 5) rfl <|
      hexSum_cons h3 (n := 4) rfl <| hexSum_cons h4 (n := 3) rfl <| hexSum_cons h5 (n := 2) rfl <|
      hexSum_cons h6 (n := 1) rfl <| hexSum_cons h7 (n := 0) rfl (show hexSum [] = some 0 from rfl)
    rw [hl, hsum, Option.getD_some]
    ring

/-! ## What the parser looks at (D7, D14) -/

/-- A hex field depends on its eight characters and on whether the line holds them all. -/
theorem hexField_congr {l m : List Byte} {o : Nat} (hlen : l.length < o + 8 ↔ m.length < o + 8)
    (hat : ∀ j, o ≤ j → j < o + 8 → l[j]? = m[j]?) : hexField l o = hexField m o := by
  have hfield : (l.drop o).take 8 = (m.drop o).take 8 := by
    refine List.ext_getElem? fun j => ?_
    rw [List.getElem?_take, List.getElem?_take, List.getElem?_drop, List.getElem?_drop]
    split
    · exact hat _ (by omega) (by omega)
    · rfl
  simp only [hexField, hlen, hfield]

/-- Settles O5: the three fields by `hexField_congr`, the opcode by the first character. -/
theorem parserSkipsSeparatorsAndTail : Obligations.ParserSkipsSeparatorsAndTail := by
  intro l m hlen hat
  have field {o : Nat} (ho : o + 8 ≤ 28) (hskip : ∀ j, o ≤ j → j < o + 8 → j ≠ 1 ∧ j ≠ 10 ∧ j ≠ 19) :
      hexField l o = hexField m o :=
    hexField_congr (by omega) fun j h1 h2 =>
      have ⟨n1, n10, n19⟩ := hskip j h1 h2
      hat j (by omega) n1 n10 n19
  have hopcode : l.head? = m.head? := by
    simpa [List.head?_eq_getElem?] using hat 0 (by omega) (by omega) (by omega) (by omega)
  have hstart : hexField l 2 = hexField m 2 := field (by omega) (by omega)
  have hstop : hexField l 11 = hexField m 11 := field (by omega) (by omega)
  have hfill : hexField l 20 = hexField m 20 := field (by omega) (by omega)
  simp only [parseLine, hopcode, hstart, hstop, hfill]

theorem parseLine_startAddr (line : List Byte) : (parseLine line).startAddr = hexField line 2 := rfl

theorem clampEnd_of_lt {start stop : Word} (h : stop.toNat < start.toNat) : clampEnd start stop = start := if_pos h

/-- The length of a range of two words is at most 2^32 (D14). -/
theorem rangeLength_le (start stop : Word) : rangeLength start stop ≤ 2 ^ 32 := by
  have := stop.isLt
  unfold rangeLength
  omega

theorem rangeLength_add {start stop : Word} (h : start.toNat ≤ stop.toNat) :
    rangeLength start stop + start.toNat = stop.toNat + 1 := by
  unfold rangeLength
  omega

/-- Settles O6: the clamp's two cases, and the length of a range that is not inverted. -/
theorem rangeIsClamped : Obligations.RangeIsClamped := by
  refine fun line => ⟨parseLine_startAddr line, fun h => ?_, clampEnd_of_le, rangeLength_add (parseLine_range line),
    rangeLength_le _ _⟩
  have he : (parseLine line).endAddr = (parseLine line).startAddr := clampEnd_of_lt h
  exact ⟨he, by simp [he, rangeLength]⟩

end Sys2Proof.Machine

/-! ## A step in each session state, and the end of a command (R151, R158, R160) -/

namespace Sys2Proof.Machine

theorem step_of_mark {s : State} (hm : s.faultMark = true) : step s = .fault .pageOverflow := by
  simp [step, fetch, hm]

theorem step_of_incomplete {s : State} {line : List Byte} (hs : s.session = .awaitingCommand) (hm : s.faultMark = false)
    (hr : readLine s.params.lineMax s.line s.linkIn = .incomplete line) :
    step s = .next { s with line := line, linkIn := [] } := by
  simp [step, fetch, fetchCommand, hs, hm, hr]

theorem step_of_complete {s : State} {line rest : List Byte} (hs : s.session = .awaitingCommand)
    (hm : s.faultMark = false) (hr : readLine s.params.lineMax s.line s.linkIn = .complete line rest) :
    step s = finish (exec (instrOf (parseLine line)) (loadCommand (parseLine line) { s with line := line, linkIn := rest })) := by
  simp [step, fetch, fetchCommand, hs, hm, hr]

theorem step_of_binary {s : State} (hs : s.session = .awaitingBinary) (hm : s.faultMark = false) :
    step s = finish (handOver (collectBinary s)) := by
  simp [step, fetch, hs, hm]

theorem step_of_wait {s : State} {w : PollWait} (hs : s.session = .executing) (hm : s.faultMark = false)
    (hw : s.wait = some w) : step s = finish (resumeWait w s) := by
  simp [step, fetch, hs, hm, hw]

/-- The ready marker at the end of a command (R158). -/
theorem sessionTail_of_done {u : State} (hm : u.faultMark = false) (hs : u.session = .executing) (hw : u.wait = none) :
    sessionTail u = { u with
      linkOut := u.linkOut ++ (u.params.readyString ++ u.params.eolOut), session := .awaitingCommand, line := [] } := by
  rcases sessionTail_cases u with ⟨hn | hn | hn, -⟩ | ⟨-, -, -, h⟩
  · rw [hm] at hn
    cases hn
  · exact absurd hs hn
  · exact absurd hw hn
  · exact h

/-- The session adds nothing while the command waits, or after the fault mark (R151, log 13). -/
theorem sessionTail_of_unfinished {u : State} (h : u.faultMark = true ∨ u.session ≠ .executing ∨ u.wait ≠ none) :
    sessionTail u = u := by
  rcases sessionTail_cases u with ⟨-, ht⟩ | ⟨hm, hs, hw, -⟩
  · exact ht
  · simp [hm, hs, hw] at h

/-- Settles O10: the two cases of the session's tail. -/
theorem sessionEndsACommandWithReady : Obligations.SessionEndsACommandWithReady := by
  refine fun t => ⟨fun hm hs hw => ?_, fun h => congrArg Host.Outcome.next (sessionTail_of_unfinished h)⟩
  rw [List.append_assoc]
  exact congrArg Host.Outcome.next (sessionTail_of_done hm hs hw)

/-! ## The line reader and the step (R152 to R154) -/

/-- Settles O9: the step by `step_of_complete`, the decoder's line by `readLine_append`. -/
theorem stepRunsTheDecodedCommand : Obligations.StepRunsTheDecodedCommand := by
  refine fun s hs hm => ⟨fun line rest hr => step_of_complete hs hm hr, fun hline i rest hdec => ?_⟩
  have hpieces : readLine s.params.lineMax [] (s.line ++ s.linkIn) = readLine s.params.lineMax s.line s.linkIn := by
    rcases hline with h | ⟨hok, hlen⟩
    · rw [h, List.nil_append]
    · have hlf : charLF ∉ s.line := fun hc => bne_iff_ne.mp (List.all_eq_true.mp hok _ hc) rfl
      exact readLine_append _ [] _ _ hlf (by simpa using hlen)
  simp only [decodeStream, hpieces] at hdec
  split at hdec
  · rename_i line tail hr
    obtain ⟨rfl, rfl⟩ := Prod.mk.inj (Except.ok.inj hdec)
    exact ⟨line, hr, rfl⟩
  · cases hdec

/-- Settles O11: the instruction is the unrecognised one, whose turn is the session's tail alone. -/
theorem unrecognisedLineIsIgnored : Obligations.UnrecognisedLineIsIgnored := by
  intro s line rest hs hm hw hr hop
  have hi : ∃ o, instrOf (parseLine line) = .unrecognised o := by
    cases line with
    | nil => exact ⟨none, instrOf_of_opcode_none rfl⟩
    | cons b more => exact ⟨some b, instrOf_of_notMem_commandBytes rfl (hop b more rfl)⟩
  obtain ⟨o, hi⟩ := hi
  rw [step_of_complete hs hm hr, hi]
  have htail := sessionTail_of_done (u := loadCommand (parseLine line) { s with line := line, linkIn := rest }) hm rfl hw
  refine (congrArg Host.Outcome.next htail).trans ?_
  simp [loadCommand, hs]

/-- Nothing at hand: `CollectBinary` leaves the state as it is (R229, R233). -/
theorem collectBinary_of_empty {s : State} (h : s.linkIn = []) : collectBinary s = s := by
  rw [collectBinary_fields, h]
  simp only [List.take_nil, List.drop_nil, List.length_nil, Nat.add_zero, storePayload]
  rw [← h]

/-- While payload bytes are wanted the step collects what there is and waits (R141, R233). -/
theorem step_of_starved {s : State} (hs : s.session = .awaitingBinary) (hm : s.faultMark = false)
    (h : (collectBinary s).binIndex < s.binCount) : step s = .next (collectBinary s) := by
  have hw : handOver (collectBinary s) = .next (collectBinary s) := by
    rcases handOver_cases (collectBinary s) with ⟨-, hw⟩ | ⟨hle, -⟩ | ⟨hle, -⟩
    · exact hw
    all_goals exact absurd h (Nat.not_lt.mpr hle)
  rw [step_of_binary hs hm, hw]
  exact congrArg Host.Outcome.next (sessionTail_of_unfinished (.inr (.inl (by simp [hs]))))

/-- Settles O12: the line reader, or the collector, has nothing to take. -/
theorem stuckStepChangesNothing : Obligations.StuckStepChangesNothing := by
  intro s h hbin
  simp only [State.stuck, Bool.and_eq_true, bne_iff_ne, List.isEmpty_iff, Bool.not_eq_true'] at h
  obtain ⟨⟨hne, hin⟩, hm⟩ := h
  cases hs : s.session with
  | executing => exact absurd hs hne
  | awaitingCommand =>
    rw [step_of_incomplete (line := s.line) hs hm (by rw [hin]; rfl), ← hin]
  | awaitingBinary =>
    have hc := collectBinary_of_empty hin
    rw [step_of_starved hs hm (by rw [hc]; exact hbin hs), hc]

/-- Settles O14: the step is `collectBinary`, which takes the whole link; the entries by `storePayload_read`. -/
theorem starvedPageWriteStaysWaiting : Obligations.StarvedPageWriteStaysWaiting := by
  intro s hs hm hlen
  have htake : s.linkIn.take (s.binCount - s.binIndex) = s.linkIn := List.take_of_length_le hlen.le
  have hindex : (collectBinary s).binIndex = s.binIndex + s.linkIn.length := by rw [collectBinary_binIndex, htake]
  have hrest : (collectBinary s).linkIn = [] := List.drop_eq_nil_of_le hlen.le
  have hlt : (collectBinary s).binIndex < s.binCount := by omega
  refine ⟨collectBinary s, step_of_starved hs hm hlt, hs, hindex, hlt, hrest, ?frame, fun hu => ⟨fun i hi hcap => ?_,
    fun j hj => ?_⟩⟩
  case frame =>
    rw [← hrest]
    exact collectBinary_fields s
  all_goals rw [collectBinary_pageBuffer, htake, storePayload_read hu]
  · rw [if_pos ⟨by omega, by omega, hcap⟩, Nat.add_sub_cancel_left]
  · exact if_neg fun ⟨h1, h2, (h3 : j < 4096)⟩ => by omega

/-! ## The session over a turn (R150, R156) -/

/-- A command leaves the session in `Executing`, where it found it, but for `p`, which may leave it collecting. -/
theorem exec_session {i : Instr} {s u : State} (hs : s.session = .executing) (h : exec i s = .next u) :
    u.session = .executing ∨ u.session = .awaitingBinary ∧ ∃ a b, i = .page a b := by
  by_cases hp : ∃ a b, i = .page a b
  · obtain ⟨a, b, rfl⟩ := hp
    rcases execPage_cases h with ⟨-, ⟨-, rfl⟩ | ⟨-, rfl⟩⟩ | ⟨-, he⟩
    · exact .inl hs
    · exact .inl hs
    · rcases (enterBinary_busOnly he).2 with ⟨-, hb, -⟩ | ⟨-, hx⟩
      · exact .inr ⟨hb, a, b, rfl⟩
      · exact .inl hx
  · push Not at hp
    obtain ⟨out, ho⟩ := exec_busOnly hp h
    exact .inl ((busOnly_session ho).trans hs)

/-- A step either goes on reading its line, or ends a turn: what the turn `u` leaves is in `AwaitingBinary` only where the
session was there or ran a `p`, and in `Executing` after a poll. -/
theorem step_turn {s t : State} (h : step s = .next t) :
    (s.session = .awaitingCommand ∧ ∃ line, readLine s.params.lineMax s.line s.linkIn = .incomplete line
        ∧ t = { s with line := line, linkIn := [] })
      ∨ ∃ u, t = sessionTail u
        ∧ (u.session = .executing ∧ (s.session = .executing → u.faultMark = false)
          ∨ u.session = .awaitingBinary ∧ (s.session = .awaitingBinary
            ∨ ∃ line rest start stop, s.session = .awaitingCommand
                ∧ readLine s.params.lineMax s.line s.linkIn = .complete line rest
                ∧ instrOf (parseLine line) = .page start stop)) := by
  rcases step_cases s with ⟨-, hs⟩ | ⟨-, hses, line, hr, hs⟩ | ⟨-, hses, line, rest, hr, hs⟩ | ⟨-, hses, hs⟩
    | ⟨hm, hses, -, hs⟩ | ⟨hm, hses, w, -, hs⟩ <;> rw [hs] at h
  · cases h
  · exact .inl ⟨hses, line, hr, (Host.Outcome.next.inj h).symm⟩
  · obtain ⟨u, hu, rfl⟩ := finish_next h
    refine .inr ⟨u, rfl, ?_⟩
    rcases exec_session (loadCommand_session _ _) hu with hx | ⟨hb, a, b, hi⟩
    · exact .inl ⟨hx, fun hc => by simp [hses] at hc⟩
    · exact .inr ⟨hb, .inr ⟨line, rest, a, b, hses, hr, hi⟩⟩
  · obtain ⟨u, hu, rfl⟩ := finish_next h
    refine .inr ⟨u, rfl, ?_⟩
    rcases (handOver_busOnly hu).2 with ⟨-, rfl⟩ | ⟨-, hx⟩
    · exact .inr ⟨hses, .inl hses⟩
    · exact .inl ⟨hx, fun hc => by simp [hses] at hc⟩
  · exact .inr ⟨s, (Host.Outcome.next.inj h).symm, .inl ⟨hses, fun _ => hm⟩⟩
  · obtain ⟨u, hu, rfl⟩ := finish_next h
    have ho := resumeWait_busOnly hu
    exact .inr ⟨u, rfl, .inl ⟨(busOnly_session ho).trans hses, fun _ => (busOnly_faultMark ho).trans hm⟩⟩

/-- Settles O15: the two ways a turn ends (`step_turn`), and what the session's tail makes of them. -/
theorem binaryModeOnlyAfterPage : Obligations.BinaryModeOnlyAfterPage := by
  intro s t h
  rcases step_turn h with ⟨hs, line, -, rfl⟩ | ⟨u, rfl, ⟨hx, hm⟩ | ⟨hb, hfrom⟩⟩
  · simp [hs]
  · rcases sessionTail_cases u with ⟨hn, ht⟩ | ⟨-, -, -, ht⟩
    · rw [ht]
      refine ⟨fun hc => by simp [hx] at hc, fun hs => .inl ⟨hx, ?_⟩⟩
      simpa [hx, hm hs] using hn
    · rw [ht]
      exact ⟨nofun, fun _ => .inr rfl⟩
  · have hne : u.session ≠ .executing := by simp [hb]
    rw [sessionTail_of_unfinished (.inr (.inl hne))]
    refine ⟨fun _ => hfrom, fun hs => ?_⟩
    rcases hfrom with h2 | ⟨-, -, -, -, h2, -⟩ <;> rw [hs] at h2 <;> cases h2

/-- The session returns to `AwaitingCommand` with an empty line (R151). -/
theorem sessionTail_line {u : State} (hu : u.session ≠ .awaitingCommand) (ht : (sessionTail u).session = .awaitingCommand) :
    (sessionTail u).line = [] := by
  rcases sessionTail_cases u with ⟨-, h⟩ | ⟨-, -, -, h⟩ <;> rw [h] at ht ⊢
  exact absurd ht hu

/-- Settles O8: the line reader's three ends, and what a step leaves in the line. -/
theorem lineReaderCollectsALine : Obligations.LineReaderCollectsALine := by
  refine ⟨readLine_term, readLine_cut, fun s hs hm hlf hlen => step_of_incomplete hs hm (readLine_inc _ _ _ hlf hlen),
    fun s t h ht => ?_⟩
  rcases step_turn h with ⟨hs, line, hr, rfl⟩ | ⟨u, rfl, ⟨hx, -⟩ | ⟨hb, -⟩⟩
  · exact .inr ⟨hs, hr⟩
  · exact .inl (sessionTail_line (by simp [hx]) ht)
  · exact .inl (sessionTail_line (by simp [hb]) ht)

/-! ## The links over a step (R27) -/

/-- The parameters stay, `linkIn` is consumed from its front and `linkOut` grows at its end. -/
def LinksAdvance (s t : State) : Prop :=
  t.params = s.params ∧ (∃ used, s.linkIn = used ++ t.linkIn) ∧ ∃ out, t.linkOut = s.linkOut ++ out

theorem LinksAdvance.refl (s : State) : LinksAdvance s s := ⟨rfl, ⟨[], rfl⟩, [], (List.append_nil _).symm⟩

theorem LinksAdvance.trans {s t u : State} (h1 : LinksAdvance s t) (h2 : LinksAdvance t u) : LinksAdvance s u := by
  obtain ⟨hp1, ⟨x1, hi1⟩, o1, ho1⟩ := h1
  obtain ⟨hp2, ⟨x2, hi2⟩, o2, ho2⟩ := h2
  exact ⟨hp2.trans hp1, ⟨x1 ++ x2, by rw [hi1, hi2, List.append_assoc]⟩, o1 ++ o2, by rw [ho2, ho1, List.append_assoc]⟩

theorem LinksAdvance.of_busOnly {s u t : State} (hb : busOnly u t) (h : LinksAdvance s u) : LinksAdvance s t := by
  unfold LinksAdvance
  rw [busOnly_params hb, busOnly_linkIn hb, busOnly_linkOut hb]
  exact h

theorem sessionTail_linksAdvance (s : State) : LinksAdvance s (sessionTail s) := by
  rcases sessionTail_cases s with ⟨-, h⟩ | ⟨-, -, -, h⟩ <;> rw [h]
  · exact LinksAdvance.refl s
  · exact ⟨rfl, ⟨[], rfl⟩, _, rfl⟩

theorem exec_linksAdvance {i : Instr} {s t : State} (h : exec i s = .next t) : LinksAdvance s t := by
  by_cases hp : ∃ a b, i = .page a b
  · obtain ⟨a, b, rfl⟩ := hp
    rcases execPage_cases h with ⟨-, ⟨-, rfl⟩ | ⟨-, rfl⟩⟩ | ⟨-, he⟩
    · exact ⟨rfl, ⟨[], rfl⟩, [], (List.append_nil _).symm⟩
    · exact LinksAdvance.refl _
    · exact .of_busOnly (enterBinary_busOnly he).1 ⟨rfl, ⟨_, (List.take_append_drop _ _).symm⟩, [], (List.append_nil _).symm⟩
  · push Not at hp
    obtain ⟨out, ho⟩ := exec_busOnly hp h
    exact .of_busOnly ho ⟨rfl, ⟨[], rfl⟩, out, rfl⟩

theorem collectBinary_linksAdvance (s : State) : LinksAdvance s (collectBinary s) :=
  ⟨rfl, ⟨_, (List.take_append_drop _ _).symm⟩, [], (List.append_nil _).symm⟩

/-- What the line reader leaves unread is the end of what it was given (R152). -/
theorem readLine_rest {n : Nat} {line input l rest : List Byte} (h : readLine n line input = .complete l rest) :
    ∃ used, input = used ++ rest := by
  have hf := readLine_facts n line input
  rw [h] at hf
  exact hf.1

/-- Settles O21: each part of a step advances the links. -/
theorem linksAreFirstInFirstOut : Obligations.LinksAreFirstInFirstOut := by
  intro s t h
  show LinksAdvance s t
  rcases step_cases s with ⟨-, hs⟩ | ⟨-, -, line, -, hs⟩ | ⟨-, -, line, rest, hr, hs⟩ | ⟨-, -, hs⟩ | ⟨-, -, -, hs⟩
    | ⟨-, -, w, -, hs⟩ <;> rw [hs] at h
  · cases h
  · obtain rfl := Host.Outcome.next.inj h
    exact ⟨rfl, ⟨s.linkIn, (List.append_nil _).symm⟩, [], (List.append_nil _).symm⟩
  · obtain ⟨u, hu, rfl⟩ := finish_next h
    have hload : LinksAdvance s (loadCommand (parseLine line) { s with line := line, linkIn := rest }) :=
      ⟨rfl, readLine_rest hr, [], (List.append_nil _).symm⟩
    exact hload.trans ((exec_linksAdvance hu).trans (sessionTail_linksAdvance u))
  · obtain ⟨u, hu, rfl⟩ := finish_next h
    have hturn : LinksAdvance (collectBinary s) u :=
      .of_busOnly (handOver_busOnly hu).1 ⟨rfl, ⟨[], rfl⟩, [], (List.append_nil _).symm⟩
    exact (collectBinary_linksAdvance s).trans (hturn.trans (sessionTail_linksAdvance u))
  · obtain rfl := Host.Outcome.next.inj h
    exact sessionTail_linksAdvance s
  · obtain ⟨u, hu, rfl⟩ := finish_next h
    have hturn : LinksAdvance s u := .of_busOnly (resumeWait_busOnly hu) ⟨rfl, ⟨[], rfl⟩, [], (List.append_nil _).symm⟩
    exact hturn.trans (sessionTail_linksAdvance u)

/-! ## The invariant (R10 to R25, R108) -/

/-- The registers, the page buffer and the line as the invariant has them: the part of it that no bus activity touches and
that holds in the middle of a step too. -/
structure RegistersOk (s : State) : Prop where
  range : s.startAddr.toNat ≤ s.endAddr.toNat
  counters : s.binIndex ≤ s.binCount ∧ s.binCount ≤ 2 ^ 32
  buffer : bufferOk s.pageBuffer = true
  line : lineOk s = true ∧ s.line.length ≤ s.params.lineMax

/-- What a command's turn leaves to the session: it executes, or collects a payload that is still short. -/
structure TurnOk (s : State) : Prop where
  registers : RegistersOk s
  session : s.session = .executing ∨ s.session = .awaitingBinary ∧ sessionOk s = true

theorem Inv.registers {s : State} (h : Inv s) : RegistersOk s := ⟨h.range, h.counters, h.buffer, h.line⟩

theorem RegistersOk.of_busOnly {s t : State} (hb : busOnly s t) (h : RegistersOk s) : RegistersOk t := by
  obtain ⟨hrange, hcounters, hbuffer, hline⟩ := h
  refine ⟨?_, ?_, ?_, ?_⟩
  · rwa [busOnly_startAddr hb, busOnly_endAddr hb]
  · rwa [busOnly_binIndex hb, busOnly_binCount hb]
  · rwa [busOnly_pageBuffer hb]
  · rwa [lineOk, busOnly_line hb, busOnly_params hb]

theorem unlisted_of_bufferOk {m : Memory} (h : bufferOk m = true) : m.unlisted = none := by
  simp only [bufferOk, Bool.and_eq_true, beq_iff_eq] at h
  exact h.1.2

/-- Collecting keeps the registers' form (R141). -/
theorem collectBinary_registers {s : State} (h : RegistersOk s) : RegistersOk (collectBinary s) where
  range := h.range
  counters := by
    have := h.counters.1
    rw [collectBinary_binIndex, collectBinary_binCount, List.length_take]
    exact ⟨by omega, h.counters.2⟩
  buffer := storePayload_ok h.buffer _ _
  line := h.line

/-- Collecting keeps the entries received so far readable (R25, R141). -/
theorem collectBinary_held {s : State} (h : RegistersOk s) (hheld : payloadHeld s = true) :
    payloadHeld (collectBinary s) = true :=
  storePayload_held (unlisted_of_bufferOk h.buffer) _ hheld

/-- A hand-over after collecting, from a page write begun now or in an earlier step. -/
theorem handOver_turnOk {s u : State} (hr : RegistersOk s) (hs : s.session = .awaitingBinary) (hw : s.wait = none)
    (hheld : payloadHeld s = true) (h : handOver (collectBinary s) = .next u) : TurnOk u := by
  have hr' := collectBinary_registers hr
  obtain ⟨hb, ⟨hlt, rfl⟩ | ⟨-, hx⟩⟩ := handOver_busOnly h
  · refine ⟨hr', .inr ⟨hs, ?_⟩⟩
    have hheld' := collectBinary_held hr hheld
    rw [collectBinary_binCount] at hlt
    simp [sessionOk, hs, hw, hheld', hlt, -collectBinary_binIndex]
  · exact ⟨.of_busOnly hb ⟨hr'.range, hr'.counters, hr'.buffer, hr'.line⟩, .inl hx⟩

/-- The operands of `p` are the parser's range registers (R156). -/
theorem instrOf_eq_page {p : Parsed} {a b : Word} (h : instrOf p = .page a b) : a = p.startAddr ∧ b = p.endAddr := by
  obtain ⟨o, start, stop, value⟩ := p
  cases o with
  | none => cases h
  | some c =>
    by_cases hc : c ∈ commandBytes
    · simp only [commandBytes, List.mem_cons, List.not_mem_nil, or_false] at hc
      rcases hc with rfl | rfl | rfl | rfl | rfl | rfl | rfl | rfl | rfl | rfl | rfl | rfl <;> cases h
      exact ⟨rfl, rfl⟩
    · rw [instrOf_of_notMem_commandBytes rfl hc] at h
      cases h

/-- A command dispatched with the registers in form leaves them so. -/
theorem exec_turnOk {i : Instr} {s u : State} (hr : RegistersOk s) (hs : s.session = .executing) (hw : s.wait = none)
    (hi : ∀ a b, i = .page a b → a = s.startAddr) (h : exec i s = .next u) : TurnOk u := by
  by_cases hp : ∃ a b, i = .page a b
  · obtain ⟨a, b, rfl⟩ := hp
    rcases execPage_cases h with ⟨-, ⟨-, rfl⟩ | ⟨-, rfl⟩⟩ | ⟨-, he⟩
    · exact ⟨⟨hr.range, hr.counters, hr.buffer, hr.line⟩, .inl hs⟩
    · exact ⟨hr, .inl hs⟩
    · have hrange : a.toNat ≤ s.endAddr.toNat := hi a b rfl ▸ hr.range
      exact handOver_turnOk
        (s := { s with startAddr := a, binCount := rangeLength a b, binIndex := 0, session := .awaitingBinary })
        ⟨hrange, ⟨Nat.zero_le _, rangeLength_le _ _⟩, hr.buffer, hr.line⟩ rfl hw rfl he
  · push Not at hp
    obtain ⟨out, ho⟩ := exec_busOnly hp h
    exact ⟨.of_busOnly ho ⟨hr.range, hr.counters, hr.buffer, hr.line⟩, .inl ((busOnly_session ho).trans hs)⟩

/-- The session's tail brings a turn to a wait point (R158, R160). -/
theorem sessionTail_keeps {u : State} (h : TurnOk u) (hmax : 0 < u.params.lineMax) :
    RegistersOk (sessionTail u) ∧ sessionOk (sessionTail u) = true := by
  rcases sessionTail_cases u with ⟨hn, ht⟩ | ⟨-, -, hw, ht⟩
  · rw [ht]
    refine ⟨h.registers, ?_⟩
    rcases h.session with hx | ⟨-, hok⟩
    · simp only [hx, ne_eq, not_true_eq_false, false_or] at hn
      rcases hn with hm | hw
      · simp [sessionOk, hx, hm]
      · simp [sessionOk, hx, Option.isSome_iff_ne_none.mpr hw]
    · exact hok
  · rw [ht]
    obtain ⟨⟨hrange, hcounters, hbuffer, -⟩, -⟩ := h
    exact ⟨⟨hrange, hcounters, hbuffer, rfl, Nat.zero_le _⟩, by simp [sessionOk, hw, hmax]⟩

theorem lineMax_pos {p : Params} (h : paramsLegal p = true) : 0 < p.lineMax := by
  obtain ⟨⟨-, -, h29⟩, -⟩ := paramsLegal_facts h
  omega

theorem sessionOk_awaitingCommand {s : State} (h : sessionOk s = true) (hs : s.session = .awaitingCommand) :
    s.wait = none ∧ s.line.length < s.params.lineMax := by
  simpa [sessionOk, hs] using h

theorem sessionOk_awaitingBinary {s : State} (h : sessionOk s = true) (hs : s.session = .awaitingBinary) :
    s.wait = none ∧ s.binIndex < s.binCount ∧ payloadHeld s = true := by
  simpa [sessionOk, hs, and_assoc] using h

/-- The parser leaves the registers in form (R77, R152). -/
theorem loadCommand_registers {s : State} {line rest : List Byte} (h : Inv s) (hs : s.session = .awaitingCommand)
    (hr : readLine s.params.lineMax s.line s.linkIn = .complete line rest) :
    RegistersOk (loadCommand (parseLine line) { s with line := line, linkIn := rest }) := by
  have hf := readLine_facts s.params.lineMax s.line s.linkIn
  rw [hr] at hf
  obtain ⟨-, hlf, hlen⟩ := hf
  exact ⟨parseLine_range line, h.counters, h.buffer, hlf h.line.1, hlen (sessionOk_awaitingCommand h.session hs).2⟩

/-- The part of the invariant beside the bus, over a step. -/
theorem step_keeps_registers {s t : State} (h : Inv s) (ht : step s = .next t) : RegistersOk t ∧ sessionOk t = true := by
  have hp := (linksAreFirstInFirstOut s t ht).1
  have hmax : 0 < t.params.lineMax := hp ▸ lineMax_pos h.params
  have ends {u : State} (hu : TurnOk u) (e : t = sessionTail u) : RegistersOk t ∧ sessionOk t = true := by
    subst e
    refine sessionTail_keeps hu ?_
    rwa [(sessionTail_linksAdvance u).1] at hmax
  rcases step_cases s with ⟨-, hs⟩ | ⟨-, hses, line, hr, hs⟩ | ⟨-, hses, line, rest, hr, hs⟩ | ⟨-, hses, hs⟩
    | ⟨hm, hses, hw, -⟩ | ⟨-, hses, w, hw, hs⟩
  · rw [hs] at ht
    cases ht
  · rw [hs] at ht
    obtain rfl := Host.Outcome.next.inj ht
    obtain ⟨hw, hlen⟩ := sessionOk_awaitingCommand h.session hses
    have hf := readLine_facts s.params.lineMax s.line s.linkIn
    rw [hr] at hf
    exact ⟨⟨h.range, h.counters, h.buffer, hf.1 h.line.1, (hf.2 hlen).le⟩, by simp [sessionOk, hses, hw, hf.2 hlen]⟩
  · rw [hs] at ht
    obtain ⟨u, hu, e⟩ := finish_next ht
    exact ends (exec_turnOk (loadCommand_registers h hses hr) rfl (sessionOk_awaitingCommand h.session hses).1
      (fun a b hi => (instrOf_eq_page hi).1) hu) e
  · rw [hs] at ht
    obtain ⟨u, hu, e⟩ := finish_next ht
    obtain ⟨hw, -, hheld⟩ := sessionOk_awaitingBinary h.session hses
    exact ends (handOver_turnOk h.registers hses hw hheld hu) e
  · have := h.session
    simp [sessionOk, hses, hw, hm] at this
  · rw [hs] at ht
    obtain ⟨u, hu, e⟩ := finish_next ht
    have ho := resumeWait_busOnly hu
    exact ends ⟨.of_busOnly ho ⟨h.range, h.counters, h.buffer, h.line⟩, .inl ((busOnly_session ho).trans hses)⟩ e

/-- Settles O19: the bus by `step_act`, everything else by `step_keeps_registers`. -/
theorem stepKeepsTheInvariant : Obligations.StepKeepsTheInvariant := by
  intro s t h ht
  obtain ⟨⟨hrange, hcounters, hbuffer, hline⟩, hsession⟩ := step_keeps_registers h ht
  obtain ⟨c, hc⟩ := step_act h.lines ht
  have hp : t.params = s.params := hc.params
  refine ⟨hp ▸ h.params, hc.linesIdle.trans h.lines, ?_, hrange, hcounters, hbuffer, hc.chip h.chip, hline, hsession, ?_⟩
  · rw [hp]
    exact hc.addr h.addr
  · rw [hc.busTrace, hc.cycleTrace, h.traces, hp, expand_append]

/-! ## Reset (R38) -/

/-- A free text holds characters a line may hold (D16). -/
theorem textOk_map_textByte (text : List (Fin 127)) : textOk (text.map textByte) = true := by
  rw [textOk, List.all_map]
  exact List.all_eq_true.mpr fun c _ => textByte_plain c

theorem paramsLegal_default : paramsLegal defaultParams = true := by
  have hid : textOk defaultParams.idString = true := textOk_map_textByte _
  have hversion : textOk defaultParams.versionString = true := textOk_map_textByte _
  have hready : textOk defaultParams.readyString = true := textOk_map_textByte (Config.readyHead :: Config.readyTail)
  have hseq : (seqOk 3 swpEnableDefault && seqOk 6 swpDisableDefault && swpDisableDefault != chipEraseSeq) = true := by decide
  simp only [Bool.and_eq_true] at hseq
  simp only [paramsLegal, hid, hversion, hready, delaysLegal_default, Bool.and_true, Bool.and_eq_true]
  exact ⟨⟨⟨⟨⟨⟨rfl, rfl⟩, rfl⟩, rfl⟩, hseq.1.1⟩, hseq.1.2⟩, hseq.2⟩

/-- Settles O16: each value is the one `State.reset` writes. -/
theorem resetState : Obligations.ResetState :=
  ⟨rfl, rfl, rfl, rfl, rfl, rfl, rfl, rfl, rfl, rfl, rfl, rfl, rfl, fun _ => rfl⟩

/-- Settles O18: the default parameters are legal whatever the free texts are, and the registers hold their reset values. -/
theorem invariantHoldsAtReset : Obligations.InvariantHoldsAtReset where
  params := paramsLegal_default
  lines := rfl
  addr := Nat.two_pow_pos _
  range := le_refl _
  counters := ⟨le_refl _, Nat.zero_le _⟩
  buffer := reset_pageBuffer_ok
  chip := rfl
  line := ⟨rfl, Nat.zero_le _⟩
  session := rfl
  traces := rfl

end Sys2Proof.Machine

/-! ## The write pulse (R103, R106) -/

namespace Sys2Proof.Machine

/-- A whole bus cycle begun in direction in with write-enable released ends so, its pulse stable (R102 to R104). -/
theorem pulseStable_cycleEvents (order : ReadOrder) (c : Cycle) (rest : List BusEvent) :
    pulseStable .input .deasserted (cycleEvents order c ++ rest) = pulseStable .input .deasserted rest := by
  cases c with
  | rd a v => cases order <;> rfl
  | wr a v => rfl
  | poll a v => rfl
  | addr a => rfl
  | delay t => rfl

theorem pulseStable_expand (order : ReadOrder) (cycles : List Cycle) :
    pulseStable .input .deasserted (expand order cycles) = true := by
  induction cycles with
  | nil => rfl
  | cons c rest ih => rw [expand_cons, pulseStable_cycleEvents, ih]

/-- Settles O23: a step performs whole bus cycles (`step_act`), and each of them keeps its pulse stable. -/
theorem writePulseIsStable : Obligations.WritePulseIsStable := by
  intro s t h ht
  obtain ⟨cycles, hc⟩ := step_act h ht
  obtain ⟨hdir, -, hwe, -⟩ := linesIdle_iff.mp h
  refine ⟨expand s.params.readOrder cycles, hc.busTrace, ?_⟩
  rw [hdir, hwe]
  exact pulseStable_expand _ cycles

/-! ## The three bus operations (R102 to R104) -/

@[simp] theorem readByte_addr (a : Word) (s : State) : (readByte a s).2.addr = busAddr s.params.addrWidth a := by
  obtain ⟨v, n, he⟩ := readByte_spec a s
  rw [he]

@[simp] theorem pollCycle_addr (s : State) : (pollCycle s).2.addr = s.addr := by
  obtain ⟨v, n, he⟩ := pollCycle_spec s
  rw [he]

/-- A read leaves a test device as it is (R66). -/
theorem readByte_dev_test {s : State} {d : TestDevice} (hd : s.dev = .test d) (a : Word) :
    (readByte a s).2.dev = .test d := by
  obtain ⟨v, n, he⟩ := readByte_spec a s
  simp [he, hd, Dev.answer]

/-- A read of a byte that a test device holds gives that byte (R66). -/
theorem readByte_value_test {s : State} {d : TestDevice} {a : Word} {v : Byte} (hd : s.dev = .test d)
    (hv : d.mem.read (busAddr s.params.addrWidth a).toNat = some v) : (readByte a s).1 = v := by
  rw [readByte_test hd hv]

/-- Settles O24: the cycle by `readByte_effect`, the test device by `readByte_value_test`. -/
theorem readByteIsOneReadCycle : Obligations.ReadByteIsOneReadCycle := by
  intro s a h
  obtain ⟨hframe, hcycle, hbus⟩ := (readByte_effect h a).run
  refine ⟨(readByte a s).1, (readByte a s).2, rfl, hframe, readByte_addr a s, ?_, fun ho => ?_, fun d b hd hb => ?_⟩
  · rw [hcycle, readByte_addr]
  · rw [hbus, ho, readByte_addr]
    rfl
  · rw [readByte_addr] at hb
    exact ⟨readByte_value_test hd hb, (readByte_dev_test hd a).trans hd.symm⟩

/-- Settles O25: the cycle by `writeByte_effect`, whose memory clause is that of one write. -/
theorem writeByteIsOneWriteCycle : Obligations.WriteByteIsOneWriteCycle := by
  intro s a v h
  have he := writeByte_effect h a v
  obtain ⟨hframe, hcycle, hbus⟩ := he.run
  refine ⟨hframe, writeByte_addr a v s, ?_, ?_, fun ht hw b => ?_⟩
  · rw [hcycle, writeByte_addr]
  · rw [hbus, writeByte_addr]
    rfl
  · rw [writeByte_addr, writeByte_dev h, storedByte_latch hw ht]

/-- Settles O26: the cycle by `pollCycle_effect`, a scripted answer by `pollCycle_answered`. -/
theorem pollCycleKeepsTheAddress : Obligations.PollCycleKeepsTheAddress := by
  intro s h
  obtain ⟨hframe, hcycle, hbus⟩ := (pollCycle_effect h).run
  refine ⟨(pollCycle s).1, (pollCycle s).2, rfl, hframe, pollCycle_addr s, hcycle, hbus, fun x rest hd => ?_⟩
  rw [pollCycle_answered (v := x) (d := .scripted rest) (linesIdle_iff.mp h).2.2.2 (by rw [hd]; rfl)]
  exact ⟨rfl, rfl⟩

/-- Settles O55: the chip's form, kind and memory over the cycles a step performs (`step_act`). -/
theorem chipMemoryFollowsTheWriteCycles : Obligations.ChipMemoryFollowsTheWriteCycles := by
  intro s t h htest hwf ht
  obtain ⟨c, hc⟩ := step_act h ht
  exact ⟨hc.test.trans htest, hc.chip hwf, c, hc.cycleTrace, hc.mem hwf htest⟩

/-! ## Commands that move no data (R172, R205 to R208, R195) -/

/-- Settles O30: `a` is one address event, recorded. -/
theorem setAddressDrivesTheLowBits : Obligations.SetAddressDrivesTheLowBits := fun _ _ => rfl

/-- Settles O31: each of the three arms is a single record update, or none. -/
theorem modeCommandsAndIgnoredLines : Obligations.ModeCommandsAndIgnoredLines := fun _ _ => ⟨rfl, rfl, rfl⟩

/-- An over-long `p` is `PageOverflow` (R193, R195). -/
theorem exec_page_of_overflow {start stop : Word} (h : pageCap < rangeLength start stop) (s : State) :
    exec (.page start stop) s = pageOverflow start (rangeLength start stop) s :=
  if_pos (decide_eq_true h)

/-- An admitted `p` collects its payload (R193, R195). -/
theorem exec_page_of_admitted {start stop : Word} {s : State}
    (h : rangeLength start stop ≤ pageCap ∨ s.params.pOverflow = .truncate) :
    exec (.page start stop) s = enterBinary start (rangeLength start stop) s := by
  by_cases ho : pageCap < rangeLength start stop
  · rw [exec_page_of_overflow ho, pageOverflow, h.resolve_left (Nat.not_le.mpr ho)]
  · exact if_neg fun hd => ho (of_decide_eq_true hd)

/-- Settles O48: the two arms of `PageOverflow` that do not collect. -/
theorem overlongPageWriteFaultsOrIsRejected : Obligations.OverlongPageWriteFaultsOrIsRejected := by
  intro s start stop h
  rw [exec_page_of_overflow h]
  constructor <;> intro hp <;> rw [pageOverflow, hp]

/-! ## Unlock sequences (R122 to R127) -/

/-- A sequence of writes and its settle delay (R123, R262). -/
theorem writeSeqDelay_effect {s : State} (h : linesIdle s = true) (steps : List (Word × Byte)) (d : DelayName) :
    BusEffect (writeCycles s.params.addrWidth steps ++ [.delay d]) s (engineDelay d (writeSeq steps s)) :=
  (writeSeq_effect h steps).trans (engineDelay_effect d _)

/-- The erase sequence on a bus that has the address lines of the unlock addresses (R125). -/
theorem writeCycles_chipErase {w : Nat} (hw : 16 ≤ w) :
    writeCycles w chipEraseSeq = [.wr 0x5555 0xAA, .wr 0x2AAA 0x55, .wr 0x5555 0x80, .wr 0x5555 0xAA, .wr 0x2AAA 0x55,
      .wr 0x5555 0x10] := by
  have h1 : busAddr w 0x5555#32 = 0x5555#32 := busAddr_small hw (by decide)
  have h2 : busAddr w 0x2AAA#32 = 0x2AAA#32 := busAddr_small hw (by decide)
  simp [writeCycles, chipEraseSeq, unlockA1, unlockA2, h1, h2]

theorem chipErase_effect {s : State} (h : linesIdle s = true) (hw : 16 ≤ s.params.addrWidth) :
    BusEffect [.wr 0x5555 0xAA, .wr 0x2AAA 0x55, .wr 0x5555 0x80, .wr 0x5555 0xAA, .wr 0x2AAA 0x55, .wr 0x5555 0x10,
      .delay .tErase] s (chipErase s) := by
  have he := writeSeqDelay_effect h chipEraseSeq .tErase
  rwa [writeCycles_chipErase hw] at he

/-- After a sequence of writes the address lines hold the last address of it (R123). -/
theorem writeSeq_addr {steps : List (Word × Byte)} {last : Word × Byte} (h : steps.getLast? = some last) (s : State) :
    (writeSeq steps s).addr = busAddr s.params.addrWidth last.1 := by
  obtain ⟨init, rfl⟩ := List.getLast?_eq_some_iff.mp h
  clear h
  induction init generalizing s with
  | nil => exact writeByte_addr last.1 last.2 s
  | cons x rest ih => exact (ih _).trans (by rw [busOnly_params (writeByte_busOnly x.1 x.2 s)])

/-- Settles O32: the writes and the delay by `chipErase_effect`, the opcode by the map. -/
theorem eraseSendsTheSixSteps : Obligations.EraseSendsTheSixSteps := by
  refine fun s h hw => ⟨chipErase s, rfl, (chipErase_effect h hw).busRun, ?_, fun more => rfl⟩
  rw [chipErase, engineDelay_addr, writeSeq_addr (last := (unlockA1, 0x10#8)) rfl]
  exact busAddr_small hw (by decide)

/-- Settles O33: each command is its parameter's sequence and the delay. -/
theorem protectionCommandsSendTheirSequence : Obligations.ProtectionCommandsSendTheirSequence :=
  fun s h => ⟨⟨enableWriteProtection s, rfl, (writeSeqDelay_effect h _ .tSwp).busRun⟩,
    disableWriteProtection s, rfl, (writeSeqDelay_effect h _ .tSwp).busRun⟩

/-- Settles O34: the Flash byte program, the erase sequence, and the sequences of the two parameters. -/
theorem busSequencesPerformTheirSteps : Obligations.BusSequencesPerformTheirSteps :=
  fun s h hw => ⟨fun target value => ⟨flashByteProgram target value s, rfl, (flashByteProgram_effect h hw target value).busRun⟩,
    ⟨chipErase s, rfl, (chipErase_effect h hw).busRun⟩,
    ⟨enableWriteProtection s, rfl, (writeSeqDelay_effect h _ .tSwp).busRun⟩,
    disableWriteProtection s, rfl, (writeSeqDelay_effect h _ .tSwp).busRun⟩

/-! ## Updates beside the bus -/

/-- An update of the state that the events, samples and records of the bus neither read nor write. -/
structure Beside (f : State → State) : Prop where
  params : ∀ s, (f s).params = s.params
  addr : ∀ s, (f s).addr = s.addr
  emit : ∀ e s, emit e (f s) = f (emit e s)
  record : ∀ c s, record c (f s) = f (record c s)
  sample : ∀ k s, sample k (f s) = ((sample k s).1, f (sample k s).2)
  latch : ∀ s, latchWrite (f s) = f (latchWrite s)

/-- Any bytes in place of the link output. -/
def withLinkOut (out : List Byte) (s : State) : State := { s with linkOut := out }

/-- Any page buffer in place of the state's. -/
def withBuffer (m : Memory) (s : State) : State := { s with pageBuffer := m }

theorem beside_withLinkOut (out : List Byte) : Beside (withLinkOut out) where
  params _ := rfl
  addr _ := rfl
  emit e s := by cases e <;> rfl
  record _ _ := rfl
  sample k s := by
    have hdrives : chipDrives (withLinkOut out s) = chipDrives s := rfl
    have hanswer : (withLinkOut out s).dev.answer k (withLinkOut out s).addr = s.dev.answer k s.addr := rfl
    have hdev : (withLinkOut out s).dev = s.dev := rfl
    unfold Machine.sample
    rw [hdrives, hanswer, hdev]
    rcases (if chipDrives s then s.dev.answer k s.addr else (none, s.dev)) with ⟨_ | v, d⟩ <;> rfl
  latch s := by
    by_cases h : s.ce = .asserted <;> simp [latchWrite, withLinkOut, h]

theorem beside_withBuffer (m : Memory) : Beside (withBuffer m) where
  params _ := rfl
  addr _ := rfl
  emit e s := by cases e <;> rfl
  record _ _ := rfl
  sample k s := by
    have hdrives : chipDrives (withBuffer m s) = chipDrives s := rfl
    have hanswer : (withBuffer m s).dev.answer k (withBuffer m s).addr = s.dev.answer k s.addr := rfl
    have hdev : (withBuffer m s).dev = s.dev := rfl
    unfold Machine.sample
    rw [hdrives, hanswer, hdev]
    rcases (if chipDrives s then s.dev.answer k s.addr else (none, s.dev)) with ⟨_ | v, d⟩ <;> rfl
  latch s := by
    by_cases h : s.ce = .asserted <;> simp [latchWrite, withBuffer, h]

namespace Beside

variable {f : State → State} (hf : Beside f)
include hf

theorem emitAll (events : List BusEvent) (s : State) : emitAll events (f s) = f (emitAll events s) := by
  induction events generalizing s with
  | nil => rfl
  | cons e rest ih => simp only [Machine.emitAll, hf.emit, ih]

theorem takeSample (k : SampleKind) (s : State) : takeSample k (f s) = ((takeSample k s).1, f (takeSample k s).2) := by
  simp only [Machine.takeSample, hf.emit, hf.sample]

theorem readByte (a : Word) (s : State) : readByte a (f s) = ((readByte a s).1, f (readByte a s).2) := by
  simp only [Machine.readByte, hf.params, hf.emitAll, hf.takeSample, hf.addr, hf.record]

theorem pollCycle (s : State) : pollCycle (f s) = ((pollCycle s).1, f (pollCycle s).2) := by
  simp only [Machine.pollCycle, hf.emit, hf.takeSample, hf.addr, hf.record]

theorem writeByte (a : Word) (v : Byte) (s : State) : writeByte a v (f s) = f (writeByte a v s) := by
  simp only [Machine.writeByte, Machine.setAddress, hf.params, hf.emitAll, hf.emit, hf.latch, hf.addr, hf.record]

theorem engineDelay (t : DelayName) (s : State) : engineDelay t (f s) = f (engineDelay t s) := by
  simp only [Machine.engineDelay, hf.emit, hf.record]

theorem writeSeq (steps : List (Word × Byte)) (s : State) : writeSeq steps (f s) = f (writeSeq steps s) := by
  induction steps generalizing s with
  | nil => rfl
  | cons x rest ih => simp only [Machine.writeSeq, hf.writeByte, ih]

theorem writeSpan (a : Word) (bytes : List Byte) (s : State) : writeSpan a bytes (f s) = f (writeSpan a bytes s) := by
  induction bytes generalizing a s with
  | nil => rfl
  | cons v rest ih => simp only [Machine.writeSpan, hf.writeByte, ih]

theorem flashByteProgram (a : Word) (v : Byte) (s : State) : flashByteProgram a v (f s) = f (flashByteProgram a v s) := by
  simp only [Machine.flashByteProgram, hf.writeSeq, hf.writeByte, hf.engineDelay]

theorem commitFlash (a : Word) (bytes : List Byte) (s : State) : commitFlash a bytes (f s) = f (commitFlash a bytes s) := by
  induction bytes generalizing a s with
  | nil => rfl
  | cons v rest ih => simp only [Machine.commitFlash, hf.flashByteProgram, ih]

theorem readSpan (count : Nat) (a : Word) (s : State) :
    readSpan count a (f s) = ((readSpan count a s).1, f (readSpan count a s).2) := by
  induction count generalizing a s with
  | zero => rfl
  | succ n ih => simp only [Machine.readSpan, hf.readByte, ih]

end Beside

/-! ## Reading (R180 to R184) -/

/-- Reading a span leaves a test device as it is, and gives the bytes it holds (R66). -/
theorem readSpan_test {s : State} {d : TestDevice} (hd : s.dev = .test d) (count : Nat) (a : Word) {i : Nat} {v b : Byte}
    (hv : (readSpan count a s).1[i]? = some v)
    (hb : d.mem.read (busAddr s.params.addrWidth (spanAddr a i)).toNat = some b) : v = b := by
  induction count generalizing s a i with
  | zero => simp [readSpan] at hv
  | succ n ih =>
    simp only [readSpan] at hv
    cases i with
    | zero =>
      rw [List.getElem?_cons_zero, Option.some.injEq] at hv
      rw [spanAddr_zero] at hb
      exact hv.symm.trans (readByte_value_test hd hb)
    | succ j =>
      rw [List.getElem?_cons_succ] at hv
      rw [← spanAddr_succ, ← busOnly_params (readByte_busOnly a s)] at hb
      exact ih (readByte_dev_test hd a) (a + 1#32) hv hb

/-- No read writes the chip's memory, whatever the chip is (R47, R66). -/
theorem readSpan_storedByte (count : Nat) (a : Word) (s : State) (b : Word) :
    storedByte (readSpan count a s).2.dev b = storedByte s.dev b := by
  induction count generalizing a s with
  | zero => rfl
  | succ n ih =>
    refine (ih (a + 1#32) (readByte a s).2).trans ?_
    obtain ⟨v, m, he⟩ := readByte_spec a s
    rw [he]
    exact storedByte_answer _ _ _ _

/-- `r`'s loop reads the span and emits its bytes (R181). -/
theorem streamBytes_eq_readSpan (count : Nat) (a : Word) (s : State) :
    streamBytes count a s = withLinkOut (s.linkOut ++ (readSpan count a s).1) (readSpan count a s).2 := by
  induction count generalizing a s with
  | zero => simp [streamBytes, readSpan, withLinkOut]
  | succ n ih =>
    have hput : linkPut [(readByte a s).1] (readByte a s).2
        = withLinkOut (s.linkOut ++ [(readByte a s).1]) (readByte a s).2 := by
      rw [withLinkOut, ← busOnly_linkOut (readByte_busOnly a s)]
      rfl
    simp only [streamBytes, readSpan, ih, hput, (beside_withLinkOut _).readSpan]
    simp [withLinkOut]

/-- Settles O36: `r` is one `readSpan` with its bytes emitted. -/
theorem readStreamsTheSampledBytes : Obligations.ReadStreamsTheSampledBytes := by
  intro s start stop h
  obtain ⟨hlen, he⟩ := readSpan_effect h (rangeLength start stop) start
  refine ⟨(readSpan (rangeLength start stop) start s).1, _, congrArg Host.Outcome.next (streamBytes_eq_readSpan _ start s), hlen,
    rfl, (he.map_linkOut _).busRun, readSpan_storedByte _ start s, fun d hd i v b hv hb => readSpan_test hd _ start hv hb⟩

/-- One row of `d` writes no memory (R180). -/
theorem dumpRow_storedByte (base : Word) (count : Nat) (s : State) (a : Word) :
    storedByte (dumpRow base count s).dev a = storedByte s.dev a := readSpan_storedByte count base s a

theorem dumpRows_storedByte (start : Word) (length left : Nat) (s : State) (a : Word) :
    storedByte (dumpRows start length left s).dev a = storedByte s.dev a := by
  induction left generalizing s with
  | zero => rfl
  | succ n ih => exact (ih _).trans (dumpRow_storedByte _ _ s a)

/-- The last `left` rows of `d`, numbered from `k` on: row `j` reads `RowCount(j)` bytes from `start + 16 j` on and emits its
line (R180, R182, R184). -/
theorem dumpRows_effect {s : State} (h : linesIdle s = true) (start : Word) (length left k : Nat)
    {p : Params} (hp : s.params = p) (hk : k + left = rowTotal length) :
    ∃ rows : List (List Byte), rows.length = left
      ∧ (∀ r ∈ rows.zipIdx k, r.1.length = rowCount p.dumpTail length r.2)
      ∧ BusEffect ((rows.zipIdx k).flatMap fun r => readCycles p.addrWidth (spanAddr start (16 * r.2)) r.1)
          { s with linkOut := s.linkOut ++ (rows.zipIdx k).flatMap fun r => rowLine p (spanAddr start (16 * r.2)) r.1 }
          (dumpRows start length left s) := by
  induction left generalizing s k with
  | zero => exact ⟨[], rfl, by simp, by simpa [dumpRows] using BusEffect.refl s⟩
  | succ n ih =>
    have hthis : rowTotal length - (n + 1) = k := by omega
    simp only [dumpRows, hthis, hp]
    obtain ⟨row, hrow, h1⟩ := dumpRow_effect h (spanAddr start (16 * k)) (rowCount p.dumpTail length k)
    obtain ⟨rows, hlen, hcount, h2⟩ := ih (h1.linesIdle.trans h) (k + 1) (h1.params.trans hp) (by omega)
    refine ⟨row :: rows, by simp [hlen], ?_, ?_⟩
    · simpa [List.zipIdx_cons, hrow] using hcount
    · rw [h1.linkOut] at h2
      rw [hp] at h1 h2
      simp only [List.zipIdx_cons, List.flatMap_cons, ← List.append_assoc]
      exact (h1.map_linkOut _).trans h2

/-- Settles O35: the rows by `dumpRows_effect` from row 0 on, the row count in the words of R184. -/
theorem dumpEmitsOneLinePerRow : Obligations.DumpEmitsOneLinePerRow := by
  intro s start stop h
  obtain ⟨rows, hlen, hcount, he⟩ := dumpRows_effect h start (rangeLength start stop) _ 0 rfl (Nat.zero_add _)
  refine ⟨rows, _, rfl, hlen, fun k row hrow => ?_, he.linkOut, ?_, dumpRows_storedByte _ _ _ s⟩
  · have hk := hcount (row, k) (List.mem_zipIdx_iff_getElem?.mpr hrow)
    rw [hk]
    cases htail : s.params.dumpTail <;> simp [rowCount, hlen, rowBytes]
  · rw [he.linkOut]
    exact he.busRun

/-! ## The text of a row (R6, R182, R183) -/

theorem hex2_eq (b : Byte) : hex2 b = [hexDigit (b.toNat / 16 % 16), hexDigit (b.toNat % 16)] := rfl

theorem render_of_printable {b : Byte} (h1 : 0x20 ≤ b.toNat) (h2 : b.toNat ≤ 0x7E) : render [(0x20, 0x7E)] b = b := by
  simp [render, isPrintable, h1, h2]

theorem render_of_other {b : Byte} (h : b.toNat < 0x20 ∨ 0x7E < b.toNat) : render [(0x20, 0x7E)] b = 0x2E := by
  have hn : ¬ (32 ≤ b.toNat ∧ b.toNat ≤ 126) := by omega
  simp [render, isPrintable, hn]

/-- What is rendered is never a line feed (R183). -/
theorem render_ne_LF (b : Byte) : render [(0x20, 0x7E)] b ≠ charLF := by
  by_cases h : 0x20 ≤ b.toNat ∧ b.toNat ≤ 0x7E
  · rw [render_of_printable h.1 h.2]
    rintro rfl
    exact absurd h.1 (by decide)
  · rw [render_of_other (by omega)]
    decide

theorem rowText_length (ranges : List (Byte × Byte)) (base : Word) (row : List Byte) :
    (rowText ranges base row).length = 12 + 4 * row.length := by
  have h8 : (hex8 base).length = 8 := hexDigits_length 8 _
  have hrow : (row.flatMap fun b => hex2 b ++ [charSP]).length = 3 * row.length := by
    induction row with
    | nil => rfl
    | cons b rest ih =>
      rw [List.flatMap_cons, List.length_append, ih, hex2_eq, List.length_cons]
      simp only [List.cons_append, List.nil_append, List.length_cons, List.length_nil]
      omega
  simp only [rowText, List.length_append, List.length_map, List.length_cons, List.length_nil, h8, hrow]
  omega

theorem LF_notMem_rowText (base : Word) (row : List Byte) : charLF ∉ rowText [(0x20, 0x7E)] base row := by
  have h8 : charLF ∉ hex8 base := LF_notMem_hexDigits 8 _
  have h2 : ∀ b : Byte, charLF ∉ hex2 b := fun b => LF_notMem_hexDigits 2 _
  have hp : charLF ≠ 0x3A#8 ∧ charLF ≠ charSP := by decide
  simpa [rowText, h8, h2, hp] using fun b (_ : b ∈ row) => render_ne_LF b

/-- Settles O37: the digits by the lemmas of `hexDigits`, the rendering by its two cases, the row's characters one group at a
time. -/
theorem rowTextShape : Obligations.RowTextShape := by
  refine ⟨rfl, fun b => ⟨_, _, hex2_eq b, ?high, hexVal_hexDigit _ (Nat.mod_lt _ (by norm_num))⟩,
    fun w => ⟨hexDigits_length 8 _, fun i c hc => hexVal_hexDigits_get hc⟩,
    fun b w c hc => hc.elim upper_notMem_hexDigits upper_notMem_hexDigits,
    fun b => ⟨render_of_printable, render_of_other⟩, fun base row => ⟨rowText_length _ base row, LF_notMem_rowText base row⟩⟩
  case high =>
    have hb := b.isLt
    rw [hexVal_hexDigit _ (Nat.mod_lt _ (by norm_num)), Nat.mod_eq_of_lt (by omega)]

/-! ## Memories in canonical form (R28; the form is the model's) -/

theorem cellLookup_isSome_mem {a : Nat} {v : Byte} {cells : List Host.Cell} (h : cellLookup a cells = some v) :
    (a, v) ∈ cells := by
  induction cells with
  | nil => cases h
  | cons c rest ih =>
    simp only [cellLookup] at h
    split at h
    · rename_i hc
      exact List.mem_cons.mpr (.inl (Prod.ext hc.symm (Option.some.inj h).symm))
    · exact List.mem_cons_of_mem _ (ih h)

theorem cellLookup_head (c : Host.Cell) (rest : List Host.Cell) : cellLookup c.1 (c :: rest) = some c.2 := if_pos rfl

/-- Below its first address a rising list holds nothing. -/
theorem cellLookup_of_lt_head {low : Option Nat} {c : Host.Cell} {rest : List Host.Cell} {a : Nat}
    (h : cellsRising low (c :: rest) = true) (ha : a < c.1) : cellLookup a (c :: rest) = none := by
  rw [cellLookup, if_neg (by omega)]
  exact cellLookup_of_rising (cellsRising_tail h) ha.le

/-- A rising list of cells is determined by what it lists. -/
theorem cells_ext {low low' : Option Nat} {xs ys : List Host.Cell} (hx : cellsRising low xs = true)
    (hy : cellsRising low' ys = true) (h : ∀ a, cellLookup a xs = cellLookup a ys) : xs = ys := by
  induction xs generalizing low low' ys with
  | nil =>
    cases ys with
    | nil => rfl
    | cons d ys => exact absurd ((h d.1).trans (cellLookup_head d ys)) nofun
  | cons c xs ih =>
    cases ys with
    | nil => exact absurd ((h c.1).symm.trans (cellLookup_head c xs)) nofun
    | cons d ys =>
      have haddr : c.1 = d.1 := by
        rcases Nat.lt_trichotomy c.1 d.1 with hlt | heq | hlt
        · have := (cellLookup_head c xs).symm.trans ((h c.1).trans (cellLookup_of_lt_head hy hlt))
          cases this
        · exact heq
        · have := (cellLookup_head d ys).symm.trans ((h d.1).symm.trans (cellLookup_of_lt_head hx hlt))
          cases this
      have hval : c.2 = d.2 := by
        have := h c.1
        rw [cellLookup_head, haddr, cellLookup_head] at this
        exact Option.some.inj this
      have hrest : xs = ys := by
        refine ih (cellsRising_tail hx) (cellsRising_tail hy) fun a => ?_
        by_cases ha : a ≤ c.1
        · rw [cellLookup_of_rising (cellsRising_tail hx) ha, cellLookup_of_rising (cellsRising_tail hy) (haddr ▸ ha)]
        · have := h a
          rwa [cellLookup, cellLookup, if_neg (by omega), if_neg (by omega)] at this
      rw [Prod.ext haddr hval, hrest]

/-- In canonical form an address is listed exactly where it reads as something else than an unlisted one. -/
theorem cellLookup_of_read {m : Memory} (h : m.wf = true) (a : Nat) :
    cellLookup a m.cells = if m.read a = m.unlisted then none else m.read a := by
  simp only [Memory.wf, Bool.and_eq_true, List.all_eq_true, bne_iff_ne] at h
  unfold Memory.read
  cases hl : cellLookup a m.cells with
  | none => simp
  | some v => simp [Ne.symm (h.2 _ (cellLookup_isSome_mem hl))]

/-- Canonical memories that read alike are equal data. -/
theorem Memory.ext_read {m m' : Memory} (h : m.wf = true) (h' : m'.wf = true) (hu : m'.unlisted = m.unlisted)
    (hr : ∀ b, m'.read b = m.read b) : m' = m := by
  have hcells : m'.cells = m.cells := by
    have hx := h
    have hy := h'
    simp only [Memory.wf, Bool.and_eq_true] at hx hy
    exact cells_ext hy.1 hx.1 fun a => by rw [cellLookup_of_read h', cellLookup_of_read h, hr, hu]
  cases m
  cases m'
  simp_all

/-- Settles O56: form and reading after a write, and the memory determined by its readings. -/
theorem memoryReadsWhatWasWritten : Obligations.MemoryReadsWhatWasWritten := by
  refine fun m a v h => ⟨Memory.write_wf h a v, ?_, fun b hb => ?_, fun m' h' hu hr => Memory.ext_read h h' hu hr⟩
  · rw [Memory.read_write h, if_pos rfl]
  · rw [Memory.read_write h, if_neg (Ne.symm hb)]

end Sys2Proof.Machine

/-! ## The last write to an address -/

namespace Sys2Proof.Machine

theorem lastWriteTo_cons (a : Word) (c : Cycle) (rest : List Cycle) :
    lastWriteTo a (c :: rest) = (lastWriteTo a rest).or (lastWriteTo a [c]) :=
  lastWriteTo_append a [c] rest

theorem lastWriteTo_singleton {a : Word} {c : Cycle} {v : Byte} : lastWriteTo a [c] = some v ↔ c = .wr a v := by
  cases c <;> simp [lastWriteTo]

/-- The last write to an address is one of the cycles. -/
theorem mem_of_lastWriteTo {a : Word} {v : Byte} {cycles : List Cycle} (h : lastWriteTo a cycles = some v) :
    .wr a v ∈ cycles := by
  induction cycles with
  | nil => cases h
  | cons c rest ih =>
    rw [lastWriteTo_cons, Option.or_eq_some_iff] at h
    rcases h with h | ⟨-, h⟩
    · exact List.mem_cons_of_mem _ (ih h)
    · exact List.mem_cons.mpr (.inl (lastWriteTo_singleton.mp h).symm)

theorem lastWriteTo_eq_none {a : Word} {cycles : List Cycle} (h : ∀ v, .wr a v ∉ cycles) : lastWriteTo a cycles = none :=
  Option.eq_none_iff_forall_ne_some.mpr fun v hv => h v (mem_of_lastWriteTo hv)

/-- Where an address is written there is a last write to it. -/
theorem lastWriteTo_isSome {a : Word} {v : Byte} {cycles : List Cycle} (h : .wr a v ∈ cycles) :
    (lastWriteTo a cycles).isSome = true := by
  induction cycles with
  | nil => cases h
  | cons c rest ih =>
    rw [lastWriteTo_cons, Option.isSome_or, Bool.or_eq_true]
    rcases List.mem_cons.mp h with rfl | h
    · exact .inr (by rw [lastWriteTo_singleton.mpr rfl]; rfl)
    · exact .inl (ih h)

/-- An address written with one value only holds it at the end. -/
theorem lastWriteTo_eq_some {a : Word} {v : Byte} {cycles : List Cycle} (h : .wr a v ∈ cycles)
    (hu : ∀ x, .wr a x ∈ cycles → x = v) : lastWriteTo a cycles = some v := by
  obtain ⟨x, hx⟩ := Option.isSome_iff_exists.mp (lastWriteTo_isSome h)
  rw [hx, hu x (mem_of_lastWriteTo hx)]

/-- The write cycles of a page load (R121). -/
theorem wr_mem_loadCycles {w : Nat} {start : Word} {bytes : List Byte} {a : Word} {x : Byte} :
    .wr a x ∈ loadCycles w start bytes ↔ ∃ i, bytes[i]? = some x ∧ busAddr w (spanAddr start i) = a := by
  simp only [loadCycles, List.mem_map, Prod.exists, List.mem_zipIdx_iff_getElem?, Cycle.wr.injEq]
  constructor
  · rintro ⟨b, i, hi, ha, rfl⟩
    exact ⟨i, hi, ha⟩
  · rintro ⟨i, hi, ha⟩
    exact ⟨x, i, hi, ha, rfl⟩

/-- The write cycles of a Flash commit, the unlock writes left apart (R122). -/
theorem wr_mem_flashCycles {w : Nat} {start : Word} {bytes : List Byte} {a : Word} {x : Byte} (h1 : a ≠ 0x5555)
    (h2 : a ≠ 0x2AAA) :
    .wr a x ∈ flashCycles w start bytes ↔ ∃ i, bytes[i]? = some x ∧ busAddr w (spanAddr start i) = a := by
  simp only [flashCycles, List.mem_flatMap, Prod.exists, List.mem_zipIdx_iff_getElem?, List.mem_cons, List.not_mem_nil,
    or_false, Cycle.wr.injEq, reduceCtorEq]
  constructor
  · rintro ⟨b, i, hi, ⟨ha, -⟩ | ⟨ha, -⟩ | ⟨ha, -⟩ | ⟨ha, rfl⟩⟩
    · exact absurd ha h1
    · exact absurd ha h2
    · exact absurd ha h1
    · exact ⟨i, hi, ha.symm⟩
  · rintro ⟨i, hi, ha⟩
    exact ⟨x, i, hi, .inr (.inr (.inr ⟨ha.symm, rfl⟩))⟩

/-- The write cycles of a fill (R190). -/
theorem wr_mem_fillCycles {w busy count : Nat} {start : Word} {v : Byte} {a : Word} {x : Byte} :
    .wr a x ∈ fillCycles w busy start v count ↔ x = v ∧ ∃ i, i < count ∧ busAddr w (spanAddr start i) = a := by
  simp only [fillCycles, List.mem_flatMap, List.mem_range, List.cons_append, List.mem_cons, List.mem_append,
    List.mem_replicate, List.not_mem_nil, or_false, reduceCtorEq, and_false, Cycle.wr.injEq]
  constructor
  · rintro ⟨i, hi, ha, hx⟩
    exact ⟨hx, i, hi, ha.symm⟩
  · rintro ⟨hx, i, hi, ha⟩
    exact ⟨i, hi, ha.symm, hx⟩

/-! ## Commits (R120 to R122) -/

/-- Settles O38: the cycles by `commitFlash_effect`; an address outside the span is none of their writes. -/
theorem flashCommitUnlocksEveryByte : Obligations.FlashCommitUnlocksEveryByte := by
  intro s start bytes left h hw hs
  have he := commitFlash_effect h hw start bytes
  rw [commit_flash hs]
  refine ⟨he.busRun, fun htest hwf a h1 h2 hspan => ?_⟩
  have hnone : lastWriteTo a (flashCycles s.params.addrWidth start bytes) = none := by
    refine lastWriteTo_eq_none fun v hv => ?_
    obtain ⟨i, hi, ha⟩ := (wr_mem_flashCycles h1 h2).mp hv
    exact hspan i (List.getElem?_eq_some_iff.mp hi).1 ha
  rw [he.mem hwf htest, hnone, Option.none_or]

/-- Settles O39: `commitEeprom_effect`, whose wait ends exactly on the last byte. -/
theorem eepromCommitLoadsThenPolls : Obligations.EepromCommitLoadsThenPolls := by
  intro s start bytes last left h hs hb
  obtain ⟨v, he, hwait⟩ := commitEeprom_effect h start hb left
  rw [commit_eeprom hs]
  refine ⟨v, he.busRun, ?_, fun hv => ⟨_, hwait.trans (if_neg hv), rfl, rfl, rfl⟩⟩
  rw [hwait]
  split <;> simp_all

/-- The counts of a Flash commit: four writes and a delay per byte, no poll (R122). -/
theorem countP_flashCycles (w : Nat) (start : Word) (bytes : List Byte) :
    (flashCycles w start bytes).countP Cycle.isWrite = 4 * bytes.length
      ∧ (flashCycles w start bytes).countP Cycle.isDelay = bytes.length
      ∧ (flashCycles w start bytes).countP Cycle.isPoll = 0 := by
  induction bytes generalizing start with
  | nil => exact ⟨rfl, rfl, rfl⟩
  | cons v rest ih =>
    obtain ⟨h1, h2, h3⟩ := ih (start + 1#32)
    rw [flashCycles_cons]
    simp [List.countP_cons, h1, h2, h3, Cycle.isWrite, Cycle.isDelay, Cycle.isPoll]
    omega

/-- The counts of a page load: one write per byte (R121). -/
theorem countP_loadCycles (w : Nat) (start : Word) (bytes : List Byte) :
    (loadCycles w start bytes).countP Cycle.isWrite = bytes.length
      ∧ (loadCycles w start bytes).countP Cycle.isDelay = 0 ∧ (loadCycles w start bytes).countP Cycle.isPoll = 0 := by
  induction bytes generalizing start with
  | nil => exact ⟨rfl, rfl, rfl⟩
  | cons v rest ih =>
    obtain ⟨h1, h2, h3⟩ := ih (start + 1#32)
    rw [loadCycles_cons]
    simp [List.countP_cons, h1, h2, h3, Cycle.isWrite, Cycle.isDelay, Cycle.isPoll]

/-- Settles O40: the counts of the two commits' cycles. -/
theorem commitCounts : Obligations.CommitCounts := by
  intro s start bytes left h hw hb
  cases hs : s.strategy with
  | flash =>
    rw [commit_flash hs]
    exact ⟨_, (commitFlash_effect h hw start bytes).run.2.1, fun _ => countP_flashCycles _ _ _, nofun⟩
  | eeprom =>
    obtain ⟨v, he, -⟩ := commitEeprom_effect h start (List.getLast?_eq_some_getLast hb) left
    rw [commit_eeprom hs]
    refine ⟨_, he.run.2.1, nofun, fun _ => ?_⟩
    obtain ⟨h1, h2, h3⟩ := countP_loadCycles s.params.addrWidth start bytes
    simp [List.countP_append, List.countP_cons, h1, h2, h3, Cycle.isWrite, Cycle.isDelay, Cycle.isPoll]

/-- A page load leaves a scripted chip's answers as they are: it samples nothing. -/
theorem writeSpan_scripted {s : State} (h : linesIdle s = true) {answers : List Byte} (hd : s.dev = .scripted answers)
    (a : Word) (bytes : List Byte) : (writeSpan a bytes s).dev = .scripted answers := by
  induction bytes generalizing s a with
  | nil => exact hd
  | cons v rest ih =>
    exact ih ((writeByte_effect h a v).linesIdle.trans h) (by rw [writeByte_dev h, hd]; rfl) (a + 1#32)

@[simp] theorem pollOnce_addr (w : PollWait) (s : State) : (pollOnce w s).addr = s.addr :=
  pollCycle_addr { s with wait := some w }

/-- One turn of the wait on a chip that has an answer: that answer decides it (R105, R47). -/
theorem pollOnce_effect_answered {s : State} (h : linesIdle s = true) {x : Byte} {d : Dev}
    (ha : s.dev.answer .poll s.addr = (some x, d)) (w : PollWait) :
    BusEffect [.poll s.addr x] { s with wait := (pollOnce w s).wait } (pollOnce w s)
      ∧ (pollOnce w s).wait = (if x = w.expect then none else some { w with polls := w.polls + 1 })
      ∧ (pollOnce w s).dev = d := by
  obtain ⟨v, he, hwait⟩ := pollOnce_effect h w
  have heq := pollOnce_answered h ha w
  have hv : v = x := by
    have hcycle := he.run.2.1
    rw [heq] at hcycle
    simpa using hcycle.symm
  rw [hv] at he hwait
  exact ⟨he, hwait, by rw [heq]⟩

/-- An EEPROM commit on a chip that has an answer to the poll at the last address: that answer decides the wait (R121, R105). -/
theorem commitEeprom_answered {s : State} (h : linesIdle s = true) (a : Word) {bytes : List Byte} {last x : Byte} {d : Dev}
    (hb : bytes.getLast? = some last) (left : Nat)
    (ha : (writeSpan a bytes s).dev.answer .poll (busAddr s.params.addrWidth (spanAddr a (bytes.length - 1))) = (some x, d)) :
    BusEffect (loadCycles s.params.addrWidth a bytes
          ++ [.poll (busAddr s.params.addrWidth (spanAddr a (bytes.length - 1))) x])
        { s with wait := (commitEeprom a bytes left s).wait } (commitEeprom a bytes left s)
      ∧ (commitEeprom a bytes left s).wait
          = (if x = last then none else some { expect := last, polls := 1, next := spanAddr a bytes.length, left := left })
      ∧ (commitEeprom a bytes left s).dev = d
      ∧ (commitEeprom a bytes left s).addr = busAddr s.params.addrWidth (spanAddr a (bytes.length - 1)) := by
  have hload := writeSpan_effect h a bytes
  have haddr := writeSpan_addr h a (bytes := bytes) (by rintro rfl; simp at hb)
  have hcommit : commitEeprom a bytes left s
      = pollOnce { expect := last, polls := 0, next := spanAddr a bytes.length, left := left } (writeSpan a bytes s) := by
    simp [commitEeprom, hb]
  rw [← haddr] at ha ⊢
  rw [hcommit]
  obtain ⟨he, hwait, hdev⟩ := pollOnce_effect_answered (hload.linesIdle.trans h) ha
    { expect := last, polls := 0, next := spanAddr a bytes.length, left := left }
  exact ⟨(hload.map_wait _).trans he, hwait, hdev, pollOnce_addr _ _⟩

/-- The same on a scripted chip, whose next answer decides the wait (log 8). -/
theorem commitEeprom_scripted {s : State} (h : linesIdle s = true) (a : Word) {bytes more : List Byte} {last x : Byte}
    (hb : bytes.getLast? = some last) (left : Nat) (hd : s.dev = .scripted (x :: more)) :
    BusEffect (loadCycles s.params.addrWidth a bytes
          ++ [.poll (busAddr s.params.addrWidth (spanAddr a (bytes.length - 1))) x])
        { s with wait := (commitEeprom a bytes left s).wait } (commitEeprom a bytes left s)
      ∧ (commitEeprom a bytes left s).wait
          = (if x = last then none else some { expect := last, polls := 1, next := spanAddr a bytes.length, left := left })
      ∧ (commitEeprom a bytes left s).dev = .scripted more := by
  obtain ⟨he, hwait, hdev, -⟩ := commitEeprom_answered h a hb left (by rw [writeSpan_scripted h hd]; rfl)
  exact ⟨he, hwait, hdev⟩

/-- A test device after `writeByte`: the byte stored, its polls begun anew (R66). -/
theorem writeByte_dev_test {s : State} (h : linesIdle s = true) {d : TestDevice} (hd : s.dev = .test d) (a : Word) (v : Byte) :
    (writeByte a v s).dev = .test { d with
      pollsLeft := d.polls, lastWritten := v, mem := d.mem.write (busAddr s.params.addrWidth a).toNat v } := by
  rw [writeByte_dev h, hd]
  rfl

/-! ## Fills under Flash (R190) -/

/-- The fill byte in the words of the claims (R84). -/
theorem fillByte_eq (value : Word) : fillByte value = BitVec.ofNat 8 (value.toNat % 256) := by
  refine BitVec.eq_of_toNat_eq ?_
  simp [fillByte]

/-- A fill under FLASH is the Flash commit of the fill byte repeated (R190, R122). -/
theorem fillFrom_flash {s : State} (hs : s.strategy = .flash) (hw : s.wait = none) (v : Byte) (count : Nat) (a : Word) :
    fillFrom v count a s = commitFlash a (List.replicate count v) s := by
  induction count generalizing s a with
  | zero => rfl
  | succ n ih =>
    have hbus := flashByteProgram_busOnly a v s
    have hcommit : commit a [v] n s = flashByteProgram a v s := commit_flash hs a [v] n
    have hwait : (flashByteProgram a v s).wait = none := (busOnly_wait hbus).trans hw
    simp only [fillFrom, hcommit, hwait, Option.isSome_none, Bool.false_eq_true, if_false]
    exact ih ((busOnly_strategy hbus).trans hs) hwait (a + 1#32)

/-- Settles O41: `fillFrom_flash`, and the answer of a state that does not wait. -/
theorem flashFillProgramsEveryAddress : Obligations.FlashFillProgramsEveryAddress := by
  intro s start stop value h hw hs hwait
  have he := commitFlash_effect h hw start (List.replicate (rangeLength start stop) (fillByte value))
  have hanswer : exec (.fill start stop value) s
      = answer s.params.pollLimit (commitFlash start (List.replicate (rangeLength start stop) (fillByte value)) s) :=
    congrArg (answer s.params.pollLimit) (fillFrom_flash hs hwait _ _ _)
  rw [← fillByte_eq]
  exact ⟨_, hanswer.trans (answer_of_idle _ (he.wait.trans hwait)), he.busRun⟩

/-! ## Fills under EEPROM (R190) -/

/-- A test device's answer to a poll while wrong answers are left (R66). -/
theorem answer_poll_busy {d : TestDevice} (h : d.pollsLeft ≠ 0) (a : Word) :
    (Dev.test d).answer .poll a = (some (d.lastWritten ^^^ 0x80), .test { d with pollsLeft := d.pollsLeft - 1 }) := by
  simp [Dev.answer, TestDevice.pollAt, h]

/-- A test device's answer to a poll when none is left: its memory (R66). -/
theorem answer_poll_ready {d : TestDevice} (h : d.pollsLeft = 0) (a : Word) :
    (Dev.test d).answer .poll a = (d.mem.read a.toNat, .test d) := by
  simp [Dev.answer, TestDevice.pollAt, h]

/-- On `TD0` a fill goes through: a write and a matching poll per address (R190, R66). -/
theorem fillFrom_td0 {s : State} {d : TestDevice} (h : linesIdle s = true) (hs : s.strategy = .eeprom) (hw : s.wait = none)
    (hd : s.dev = .test d) (h0 : d.polls = 0) (hwf : d.mem.wf = true) (v : Byte) (count : Nat) (a : Word) :
    BusEffect (fillCycles s.params.addrWidth 0 a v count) s (fillFrom v count a s) := by
  induction count generalizing s d a with
  | zero => exact BusEffect.refl s
  | succ n ih =>
    have hanswer : (writeSpan a [v] s).dev.answer .poll (busAddr s.params.addrWidth (spanAddr a ([v].length - 1)))
        = (some v, (writeByte a v s).dev) := by
      rw [List.length_singleton, Nat.sub_self, spanAddr_zero]
      simp only [writeSpan]
      rw [writeByte_dev_test h hd, answer_poll_ready h0, Memory.read_write hwf, if_pos rfl]
    obtain ⟨he, hwait, hdev, -⟩ := commitEeprom_answered h a List.getLast?_singleton n hanswer
    rw [← commit_eeprom hs] at he hwait hdev
    rw [if_pos rfl] at hwait
    have hself : { s with wait := (commit a [v] n s).wait } = s := by rw [hwait, ← hw]
    rw [hself] at he
    have hnext := ih (s := commit a [v] n s) (he.linesIdle.trans h) (he.strategy.trans hs) hwait
      (hdev.trans (writeByte_dev_test h hd a v)) h0 (Memory.write_wf hwf _ _) (a + 1#32)
    rw [he.params] at hnext
    simp only [fillFrom, hwait, Option.isSome_none, Bool.false_eq_true, if_false]
    rw [fillCycles_succ]
    simpa [loadCycles] using he.trans hnext

/-- Settles O42: `fillFrom_td0`; the memory is what the fill's writes, all of the fill byte, leave. -/
theorem eepromFillWritesAndPollsEveryAddress : Obligations.EepromFillWritesAndPollsEveryAddress := by
  intro s start stop value d h hs hw hd h0 hwf v
  have he := fillFrom_td0 h hs hw hd h0 hwf v (rangeLength start stop) start
  have hmem := he.mem (by rw [hd]; exact hwf) (by rw [hd]; rfl)
  have hanswer : exec (.fill start stop value) s = answer s.params.pollLimit (fillFrom v (rangeLength start stop) start s) := by
    rw [show v = fillByte value from (fillByte_eq value).symm]
    rfl
  refine ⟨_, hanswer.trans (answer_of_idle _ (he.wait.trans hw)), he.busRun, fun i hi => ?_, fun a ha => ?_⟩
  · rw [hmem, lastWriteTo_eq_some (wr_mem_fillCycles.mpr ⟨rfl, i, hi, rfl⟩) fun x hx => (wr_mem_fillCycles.mp hx).1,
      Option.some_or]
  · rw [hmem, lastWriteTo_eq_none, Option.none_or]
    intro x hx
    obtain ⟨-, i, hi, e⟩ := wr_mem_fillCycles.mp hx
    exact ha i hi e

/-- A fill whose first poll is missed stops in the wait (R190, log 11). -/
theorem fillFrom_of_wait {v : Byte} {left : Nat} {a : Word} {s : State} (h : (commit a [v] left s).wait ≠ none) :
    fillFrom v (left + 1) a s = commit a [v] left s := by
  rw [fillFrom, if_pos (Option.isSome_iff_ne_none.mpr h)]

/-- A state whose wait has used up the limit hangs (R234, D24). -/
theorem answer_of_exhausted {n : Nat} {s : State} {w : PollWait} (h : s.wait = some w) (hn : n ≤ w.polls) :
    answer (some n) s = .fault .hang := by
  simp [answer, pollsExhausted, h, hn]

/-- Settles O43: the first commit misses (`commitEeprom_scripted`) and the limit decides. -/
theorem eepromFillWaitsForTheChip : Obligations.EepromFillWaitsForTheChip := by
  intro s start stop value x more h hs hd hx
  rw [← fillByte_eq] at hx ⊢
  obtain ⟨he, hwait, hdev⟩ :=
    commitEeprom_scripted h start (List.getLast?_singleton (a := fillByte value)) (rangeLength start stop - 1) hd
  rw [← commit_eeprom hs] at he hwait hdev
  rw [if_neg hx] at hwait
  have hmiss : (commit start [fillByte value] (rangeLength start stop - 1) s).wait ≠ none := by
    rw [hwait]
    exact Option.some_ne_none _
  have hexec : exec (.fill start stop value) s
      = answer s.params.pollLimit (commit start [fillByte value] (rangeLength start stop - 1) s) :=
    congrArg (answer s.params.pollLimit) (fillFrom_of_wait hmiss)
  refine ⟨fun hl => ⟨_, hexec.trans (answer_of_wait hwait hl), hwait, ?_, hdev⟩, fun n hn hle => ?_⟩
  · simpa [loadCycles] using he.busRun
  · rw [hexec, hn]
    exact answer_of_exhausted hwait hle

/-! ## Turns of a wait (R105, log 11) -/

theorem pollOnce_eq {s : State} {w : PollWait} (hw : s.wait = some w) :
    pollOnce w s = { (pollCycle s).2 with
      wait := if (pollCycle s).1 = w.expect then none else some { w with polls := w.polls + 1 } } := by
  have hself : { s with wait := some w } = s := by rw [← hw]
  simp [pollOnce, hself, pollMatches]

/-- A turn that misses with room left in the limit: one more poll counted, and nothing else done (R105, D24). -/
theorem step_of_miss {s : State} {w : PollWait} (hs : s.session = .executing) (hm : s.faultMark = false)
    (hw : s.wait = some w) (hx : (pollCycle s).1 ≠ w.expect) (hl : ∀ n, s.params.pollLimit = some n → w.polls + 1 < n) :
    step s = .next (pollOnce w s) := by
  have hwait : (pollOnce w s).wait = some { w with polls := w.polls + 1 } := by rw [pollOnce_eq hw, if_neg hx]
  rw [step_of_wait hs hm hw, resumeWait, if_pos (by rw [hwait]; rfl), answer_of_wait hwait hl]
  exact congrArg Host.Outcome.next (sessionTail_of_unfinished (.inr (.inr (by rw [hwait]; simp))))

/-- A turn that misses and uses up the limit (R234, D24). -/
theorem step_of_last_miss {s : State} {w : PollWait} {n : Nat} (hs : s.session = .executing) (hm : s.faultMark = false)
    (hw : s.wait = some w) (hx : (pollCycle s).1 ≠ w.expect) (hn : s.params.pollLimit = some n) (hle : n ≤ w.polls + 1) :
    step s = .fault .hang := by
  have hwait : (pollOnce w s).wait = some { w with polls := w.polls + 1 } := by rw [pollOnce_eq hw, if_neg hx]
  rw [step_of_wait hs hm hw, resumeWait, if_pos (by rw [hwait]; rfl), hn, answer_of_exhausted hwait hle]
  rfl

/-- A turn that matches goes on with the fill, if there is any left (R105, R190). -/
theorem step_of_match {s : State} {w : PollWait} (hs : s.session = .executing) (hm : s.faultMark = false)
    (hw : s.wait = some w) (hx : (pollCycle s).1 = w.expect) :
    (pollOnce w s).wait = none
      ∧ step s = finish (answer s.params.pollLimit (fillFrom w.expect w.left w.next (pollOnce w s))) := by
  have hwait : (pollOnce w s).wait = none := by rw [pollOnce_eq hw, if_pos hx]
  refine ⟨hwait, ?_⟩
  rw [step_of_wait hs hm hw, resumeWait, if_neg (by rw [hwait]; simp)]

/-- A turn whose effect is finished: the ready line, and back to `AwaitingCommand` (R158). -/
theorem finish_answer_of_done {l : Option Nat} {u : State} (hm : u.faultMark = false) (hs : u.session = .executing)
    (hw : u.wait = none) :
    finish (answer l u) = .next { u with
      linkOut := u.linkOut ++ (u.params.readyString ++ u.params.eolOut), session := .awaitingCommand, line := [] } := by
  rw [answer_of_idle l hw]
  exact congrArg Host.Outcome.next (sessionTail_of_done hm hs hw)

theorem pollOnce_faultMark (w : PollWait) (s : State) : (pollOnce w s).faultMark = s.faultMark :=
  (busOnly_faultMark (pollOnce_busOnly w s)).trans rfl

theorem pollOnce_session (w : PollWait) (s : State) : (pollOnce w s).session = s.session :=
  (busOnly_session (pollOnce_busOnly w s)).trans rfl

/-- Runs compose. -/
theorem run_add {s t : State} {m : Nat} (h : Host.Core.run core m s = .next t) (n : Nat) :
    Host.Core.run core (m + n) s = Host.Core.run core n t := by
  induction m generalizing s with
  | zero =>
    obtain rfl := Host.Outcome.next.inj h
    rw [Nat.zero_add]
  | succ m ih =>
    rw [Nat.succ_add]
    simp only [Host.Core.run] at h ⊢
    cases hs : core.step s with
    | next u =>
      rw [hs] at h
      exact ih h
    | fault r =>
      rw [hs] at h
      cases h
    | refused r =>
      rw [hs] at h
      cases h

theorem run_one {s t : State} (h : step s = .next t) : Host.Core.run core 1 s = .next t := run_next h 0

/-- The state after a scripted chip has answered these bytes to polls at the address driven, `more` answers left and the control
position `w`. -/
def afterPolls (answers more : List Byte) (w : Option PollWait) (s : State) : State :=
  { s with
    dev := .scripted more
    busTrace := s.busTrace ++ expand s.params.readOrder (answers.map (.poll s.addr ·))
    cycleTrace := s.cycleTrace ++ answers.map (.poll s.addr ·)
    wait := w }

theorem afterPolls_nil {s : State} {more : List Byte} (hd : s.dev = .scripted more) : afterPolls [] more s.wait s = s := by
  simp [afterPolls, ← hd]

theorem afterPolls_afterPolls (xs ys more more' : List Byte) (w w' : Option PollWait) (s : State) :
    afterPolls ys more' w' (afterPolls xs more w s) = afterPolls (xs ++ ys) more' w' s := by
  simp [afterPolls]

theorem pollCycle_scripted {s : State} {x : Byte} {rest : List Byte} (h : linesIdle s = true)
    (hd : s.dev = .scripted (x :: rest)) : (pollCycle s).1 = x := by
  rw [pollCycle_answered (v := x) (d := .scripted rest) (linesIdle_iff.mp h).2.2.2 (by rw [hd]; rfl)]

theorem pollOnce_scripted {s : State} {x : Byte} {rest : List Byte} (h : linesIdle s = true)
    (hd : s.dev = .scripted (x :: rest)) (w : PollWait) :
    pollOnce w s = afterPolls [x] rest (if x = w.expect then none else some { w with polls := w.polls + 1 }) s := by
  rw [pollOnce_answered (v := x) (d := .scripted rest) h (by rw [hd]; rfl)]
  simp [afterPolls]

/-- As long as a scripted chip misses, each step is one poll, and nothing else happens (R105, R234). -/
theorem run_misses {s : State} {w : PollWait} {misses more : List Byte} (h : linesIdle s = true)
    (hs : s.session = .executing) (hm : s.faultMark = false) (hw : s.wait = some w) (hl : s.params.pollLimit = none)
    (hd : s.dev = .scripted (misses ++ more)) (hne : w.expect ∉ misses) :
    Host.Core.run core misses.length s
      = .next (afterPolls misses more (some { w with polls := w.polls + misses.length }) s) := by
  induction misses generalizing s w with
  | nil =>
    have hnil := afterPolls_nil hd
    rw [hw] at hnil
    exact congrArg Host.Outcome.next hnil.symm
  | cons x rest ih =>
    simp only [List.mem_cons, not_or] at hne
    have hd : s.dev = .scripted (x :: (rest ++ more)) := hd
    have hx : (pollCycle s).1 ≠ w.expect := by
      rw [pollCycle_scripted h hd]
      exact Ne.symm hne.1
    have hturn : step s = .next (afterPolls [x] (rest ++ more) (some { w with polls := w.polls + 1 }) s) := by
      rw [step_of_miss hs hm hw hx (by simp [hl]), pollOnce_scripted h hd, if_neg (Ne.symm hne.1)]
    have hrest := ih (s := afterPolls [x] (rest ++ more) (some { w with polls := w.polls + 1 }) s) h hs hm rfl hl rfl hne.2
    rw [afterPolls_afterPolls] at hrest
    rw [List.length_cons, run_next hturn, hrest, List.singleton_append, Nat.add_assoc, Nat.add_comm 1]

/-- Settles O28: `run_misses` over the first `k` answers. -/
theorem unansweredPollHangs : Obligations.UnansweredPollHangs := by
  intro s w misses h hs hm hw hl hd hne k hk
  have hrun := run_misses (misses := misses.take k) (more := misses.drop k) h hs hm hw hl
    (by rw [List.take_append_drop]; exact hd) fun hmem => hne (List.mem_of_mem_take hmem)
  rw [List.length_take_of_le hk] at hrun
  refine ⟨_, hrun, hs, ?_, rfl, rfl, rfl, rfl, rfl, rfl, rfl, ⟨rfl, rfl, rfl⟩, ?_⟩
  · simp [State.busState, afterPolls, (linesIdle_iff.mp h).1]
  · intro htest
    rw [hd] at htest
    cases htest

/-- The poll that matches, with nothing left to commit: the end of the command (R105, R158). -/
theorem step_of_scripted_match {s : State} {w : PollWait} {more : List Byte} (h : linesIdle s = true)
    (hs : s.session = .executing) (hm : s.faultMark = false) (hw : s.wait = some w) (hleft : w.left = 0)
    (hd : s.dev = .scripted (w.expect :: more)) :
    step s = .next { afterPolls [w.expect] more none s with
      linkOut := s.linkOut ++ (s.params.readyString ++ s.params.eolOut), session := .awaitingCommand, line := [] } := by
  obtain ⟨hwait, hstep⟩ := step_of_match hs hm hw (pollCycle_scripted h hd)
  rw [hstep, hleft, fillFrom,
    finish_answer_of_done ((pollOnce_faultMark _ _).trans hm) ((pollOnce_session _ _).trans hs) hwait,
    pollOnce_scripted h hd, if_pos rfl]
  rfl

/-- Settles O27: the misses by `run_misses`, then the poll that matches. -/
theorem waitEndsAtTheFirstMatch : Obligations.WaitEndsAtTheFirstMatch := by
  intro s w misses more h hs hm hw hleft hl hd hne
  have hend := run_one (step_of_scripted_match (w := { w with polls := w.polls + misses.length })
    (s := afterPolls misses (w.expect :: more) (some { w with polls := w.polls + misses.length }) s) h hs hm rfl hleft rfl)
  rw [afterPolls_afterPolls] at hend
  refine ⟨_, (run_add (run_misses h hs hm hw hl hd hne) 1).trans hend, ?_, rfl, rfl, (List.append_assoc _ _ _).symm, rfl, rfl,
    rfl⟩
  simp [afterPolls]

end Sys2Proof.Machine

/-! ## A waiting fill on a test device (R190, R66) -/

namespace Sys2Proof.Machine

/-- A fill in the wait `w` on the test device `d`: the awaited byte stands at the driven address, the device's wrong answers are
wrong, and a finite `POLL_LIMIT` has room for the misses of every wait of the fill. -/
structure FillWait (w : PollWait) (d : TestDevice) (s : State) : Prop where
  lines : linesIdle s = true
  session : s.session = .executing
  mark : s.faultMark = false
  strategy : s.strategy = .eeprom
  wait : s.wait = some w
  dev : s.dev = .test d
  wf : d.mem.wf = true
  held : d.mem.read s.addr.toNat = some w.expect
  wrong : 0 < d.pollsLeft → d.lastWritten ^^^ 0x80 ≠ w.expect
  limit : ∀ n, s.params.pollLimit = some n → (0 < d.pollsLeft → w.polls + d.pollsLeft < n) ∧ (0 < d.polls → d.polls < n)

/-- A poll's missed answer is never the byte itself (R66). -/
theorem xor_0x80_ne (v : Byte) : v ^^^ 0x80 ≠ v := by
  intro h
  have h7 := congrArg (fun x : Byte => x.getLsbD 7) h
  simp at h7

theorem FillWait.pollCycle_busy {w : PollWait} {d : TestDevice} {s : State} (h : FillWait w d s) (hp : d.pollsLeft ≠ 0) :
    (pollCycle s).1 = d.lastWritten ^^^ 0x80 := by
  rw [pollCycle_answered (linesIdle_iff.mp h.lines).2.2.2 (by rw [h.dev, answer_poll_busy hp])]

theorem FillWait.answer_ready {w : PollWait} {d : TestDevice} {s : State} (h : FillWait w d s) (hp : d.pollsLeft = 0) :
    s.dev.answer .poll s.addr = (some w.expect, .test d) := by
  rw [h.dev, answer_poll_ready hp, h.held]

/-- A missed turn of the fill's wait: one wrong answer less. -/
theorem FillWait.miss {w : PollWait} {d : TestDevice} {s : State} (h : FillWait w d s) {p : Nat} (hp : d.pollsLeft = p + 1) :
    step s = .next (pollOnce w s)
      ∧ BusEffect [.poll s.addr (d.lastWritten ^^^ 0x80)] { s with wait := (pollOnce w s).wait } (pollOnce w s)
      ∧ FillWait { w with polls := w.polls + 1 } { d with pollsLeft := p } (pollOnce w s) := by
  have hbusy : d.pollsLeft ≠ 0 := by omega
  have hwrong := h.wrong (by omega)
  have hroom : ∀ n, s.params.pollLimit = some n → w.polls + (p + 1) < n := fun n hn => by
    have := (h.limit n hn).1 (by omega)
    omega
  obtain ⟨he, hwait, hdev⟩ := pollOnce_effect_answered h.lines (by rw [h.dev, answer_poll_busy hbusy]) w
  rw [if_neg hwrong] at hwait
  refine ⟨step_of_miss h.session h.mark h.wait (by rw [h.pollCycle_busy hbusy]; exact hwrong) fun n hn => ?_, he,
    he.linesIdle.trans h.lines, he.session.trans h.session, (pollOnce_faultMark w s).trans h.mark, he.strategy.trans h.strategy,
    hwait, ?_, h.wf, ?_, fun _ => hwrong, fun n hn => ?_⟩
  · have := hroom n hn
    omega
  · rw [hdev, hp, Nat.add_sub_cancel]
  · rw [pollOnce_addr]
    exact h.held
  · rw [he.params] at hn
    refine ⟨fun _ => ?_, (h.limit n hn).2⟩
    have := hroom n hn
    show w.polls + 1 + p < n
    omega

/-- All the misses of the fill's wait (R66, R105). -/
theorem FillWait.misses {w : PollWait} {d : TestDevice} {s : State} {a : Word} (h : FillWait w d s) (ha : s.addr = a) :
    ∃ u, Host.Core.run core d.pollsLeft s = .next u
      ∧ BusEffect (List.replicate d.pollsLeft (.poll a (d.lastWritten ^^^ 0x80))) { s with wait := u.wait } u
      ∧ u.addr = a ∧ FillWait { w with polls := w.polls + d.pollsLeft } { d with pollsLeft := 0 } u := by
  generalize hp : d.pollsLeft = p
  induction p generalizing s w d with
  | zero =>
    have hd : { d with pollsLeft := 0 } = d := by rw [← hp]
    exact ⟨s, rfl, BusEffect.refl s, ha, by rw [hd]; exact h⟩
  | succ p ih =>
    obtain ⟨hstep, he, hnext⟩ := h.miss hp
    obtain ⟨u, hrun, he', haddr, hu⟩ := ih hnext ((pollOnce_addr w s).trans ha) rfl
    subst ha
    refine ⟨u, (run_next hstep p).trans hrun, (he.map_wait u.wait).trans he', haddr, ?_⟩
    rwa [Nat.add_assoc, Nat.add_comm 1] at hu

/-- What a fill leaves at its end: these cycles, the ready line, and nothing taken from the link. -/
def FillEnds (cycles : List Cycle) (s t : State) : Prop :=
  t.session = .awaitingCommand ∧ t.wait = none ∧ t.linkIn = s.linkIn
    ∧ t.linkOut = s.linkOut ++ (s.params.readyString ++ s.params.eolOut) ∧ t.cycleTrace = s.cycleTrace ++ cycles

theorem FillEnds.after {c d : List Cycle} {s u t : State} {w : Option PollWait} (he : BusEffect c { s with wait := w } u)
    (h : FillEnds d u t) : FillEnds (c ++ d) s t := by
  obtain ⟨hsession, hwait, hin, hout, hcycles⟩ := h
  have hparams : u.params = s.params := he.params
  refine ⟨hsession, hwait, hin.trans (busFrame_fields he.run.1).2.2.2.2.2.2.2.2.2.2.2.2.2.2.2.1, ?_, ?_⟩
  · rw [hout, hparams]
    exact congrArg (· ++ _) he.linkOut
  · rw [hcycles, he.run.2.1, List.append_assoc]

/-- A turn that ends a fill's last wait. -/
theorem FillEnds.of_finish {c : List Cycle} {s u : State} {w : Option PollWait} {l : Option Nat}
    (he : BusEffect c { s with wait := w } u) (hs : s.session = .executing) (hm : s.faultMark = false) (hw : u.wait = none) :
    ∃ t, finish (answer l u) = .next t ∧ FillEnds c s t := by
  have hmark : u.faultMark = false := (busFrame_fields he.run.1).2.2.2.2.2.2.2.2.2.2.2.2.2.2.2.2.2.1.trans hm
  refine ⟨_, finish_answer_of_done hmark (he.session.trans hs) hw, ?_⟩
  rw [← List.append_nil c]
  exact FillEnds.after he ⟨rfl, hw, rfl, rfl, (List.append_nil _).symm⟩

/-- The next address of a fill on a device that answers wrongly at first: its write and the first missed poll (R190). -/
theorem fillFrom_busy {s : State} {d : TestDevice} {k m : Nat} (h : linesIdle s = true) (hs : s.strategy = .eeprom)
    (hd : s.dev = .test d) (hk : d.polls = k + 1) (a : Word) (v : Byte) :
    BusEffect [.wr (busAddr s.params.addrWidth a) v, .poll (busAddr s.params.addrWidth a) (v ^^^ 0x80)]
        { s with wait := (fillFrom v (m + 1) a s).wait } (fillFrom v (m + 1) a s)
      ∧ (fillFrom v (m + 1) a s).wait = some { expect := v, polls := 1, next := a + 1#32, left := m }
      ∧ (fillFrom v (m + 1) a s).dev = .test { d with
          pollsLeft := k, lastWritten := v, mem := d.mem.write (busAddr s.params.addrWidth a).toNat v }
      ∧ (fillFrom v (m + 1) a s).addr = busAddr s.params.addrWidth a := by
  have ha : (writeSpan a [v] s).dev.answer .poll (busAddr s.params.addrWidth (spanAddr a ([v].length - 1)))
      = (some (v ^^^ 0x80), .test { d with
          pollsLeft := k, lastWritten := v, mem := d.mem.write (busAddr s.params.addrWidth a).toNat v }) := by
    simp only [writeSpan]
    rw [writeByte_dev_test h hd, answer_poll_busy (by simp [hk])]
    simp [hk]
  obtain ⟨he, hwait, hdev, haddr⟩ := commitEeprom_answered h a List.getLast?_singleton m ha
  rw [← commit_eeprom hs] at he hwait hdev haddr
  rw [if_neg (xor_0x80_ne v), List.length_singleton, spanAddr_one] at hwait
  rw [List.length_singleton, Nat.sub_self, spanAddr_zero] at he haddr
  rw [fillFrom_of_wait (by rw [hwait]; exact Option.some_ne_none _)]
  exact ⟨by simpa [loadCycles] using he, hwait, hdev, haddr⟩

/-- A turn of the fill's wait that matches: the fill ends, where nothing is left or the device answers at once, or writes the
next address and waits there (R105, R190). -/
theorem FillWait.match_turn {w : PollWait} {d : TestDevice} {s : State} (h : FillWait w d s) (hp : d.pollsLeft = 0) :
    (w.left * d.polls = 0 ∧ ∃ t, step s = .next t
        ∧ FillEnds ([.poll s.addr w.expect] ++ fillCycles s.params.addrWidth d.polls w.next w.expect w.left) s t)
      ∨ ∃ k m u, d.polls = k + 1 ∧ w.left = m + 1 ∧ step s = .next u
        ∧ BusEffect ([.poll s.addr w.expect] ++ [.wr (busAddr s.params.addrWidth w.next) w.expect,
            .poll (busAddr s.params.addrWidth w.next) (w.expect ^^^ 0x80)]) { s with wait := u.wait } u
        ∧ u.addr = busAddr s.params.addrWidth w.next
        ∧ FillWait { expect := w.expect, polls := 1, next := w.next + 1#32, left := m }
            { d with
              pollsLeft := k
              lastWritten := w.expect
              mem := d.mem.write (busAddr s.params.addrWidth w.next).toNat w.expect } u := by
  have ha := h.answer_ready hp
  obtain ⟨he, -, hdev⟩ := pollOnce_effect_answered h.lines ha w
  obtain ⟨hwait, hstep⟩ := step_of_match h.session h.mark h.wait
    (by rw [pollCycle_answered (linesIdle_iff.mp h.lines).2.2.2 ha])
  have hidle := he.linesIdle.trans h.lines
  have hparams : (pollOnce w s).params = s.params := he.params
  have hstrategy := he.strategy.trans h.strategy
  by_cases hdone : w.left = 0 ∨ d.polls = 0
  · have hfill : BusEffect (fillCycles s.params.addrWidth d.polls w.next w.expect w.left) (pollOnce w s)
        (fillFrom w.expect w.left w.next (pollOnce w s)) := by
      rcases hdone with h0 | h0
      · rw [h0]
        exact BusEffect.refl _
      · rw [h0, ← hparams]
        exact fillFrom_td0 hidle hstrategy hwait hdev h0 h.wf _ _ _
    rw [hstep]
    exact .inl ⟨by simpa using hdone, FillEnds.of_finish (he.trans hfill) h.session h.mark (hfill.wait.trans hwait)⟩
  · obtain ⟨m, hm⟩ := Nat.exists_eq_succ_of_ne_zero fun h0 => hdone (.inl h0)
    obtain ⟨k, hk⟩ := Nat.exists_eq_succ_of_ne_zero fun h0 => hdone (.inr h0)
    obtain ⟨hbusy, hwait', hdev', haddr⟩ := fillFrom_busy (m := m) hidle hstrategy hdev hk w.next w.expect
    rw [hparams] at hdev' haddr
    rw [congrArg Params.addrWidth hparams] at hbusy
    have hall := (he.map_wait _).trans hbusy
    have hanswer : step s = .next (fillFrom w.expect (m + 1) w.next (pollOnce w s)) := by
      rw [hstep, hm, answer_of_wait hwait' fun n hn => by have := (h.limit n hn).2; show 1 < n; omega]
      exact congrArg Host.Outcome.next (sessionTail_of_unfinished (.inr (.inr (by rw [hwait']; simp))))
    refine .inr ⟨k, m, _, hk, hm, hanswer, hall, haddr, hall.linesIdle.trans h.lines, hall.session.trans h.session, ?_,
      hall.strategy.trans h.strategy, hwait', hdev', Memory.write_wf h.wf _ _, ?_, fun _ => xor_0x80_ne _, fun n hn => ?_⟩
    · exact (busOnly_faultMark (fillFrom_busOnly _ _ _ _)).trans ((pollOnce_faultMark w s).trans h.mark)
    · rw [haddr, Memory.read_write h.wf, if_pos rfl]
    · rw [hall.params] at hn
      have := (h.limit n hn).2
      exact ⟨fun _ => by show 1 + k < n; omega, this⟩

/-- A waiting fill runs to its end: the misses and the match of its wait, then the addresses left (R190, R105, R66). -/
theorem FillWait.run {w : PollWait} {d : TestDevice} {s : State} (h : FillWait w d s) :
    ∃ t, Host.Core.run core (d.pollsLeft + 1 + w.left * d.polls) s = .next t
      ∧ FillEnds (List.replicate d.pollsLeft (.poll s.addr (d.lastWritten ^^^ 0x80)) ++ ([.poll s.addr w.expect]
          ++ fillCycles s.params.addrWidth d.polls w.next w.expect w.left)) s t := by
  generalize hleft : w.left = left
  induction left using Nat.strong_induction_on generalizing s w d with
  | _ left ih =>
    obtain ⟨u, hrun, he, haddr, hu⟩ := h.misses rfl
    have hparams : u.params = s.params := he.params
    rw [Nat.add_assoc, run_add hrun]
    rcases hu.match_turn rfl with ⟨h0, t, hstep, hends⟩ | ⟨k, m, v, hk, hm, hstep, he', haddr', hv⟩
    · simp only [hleft] at h0 hends
      rw [hparams, haddr] at hends
      rw [h0]
      exact ⟨t, run_one hstep, hends.after he⟩
    · simp only at hk hm
      obtain rfl : left = m + 1 := hleft.symm.trans hm
      obtain ⟨t, hrest, hends⟩ := ih m (Nat.lt_succ_self m) hv rfl
      have hvp : v.params = s.params := he'.params.trans hparams
      simp only [hk] at hrest hends ⊢
      refine ⟨t, ?_, ?_⟩
      · rw [Nat.add_comm 1, run_next hstep, ← hrest]
        congr 1
        ring
      · have := (hends.after he').after he
        rw [haddr', hvp, hparams, haddr] at this
        rw [fillCycles_succ]
        simpa [List.replicate_succ] using this

/-- Settles O44: the statement's premises are `FillWait`, its conclusion `FillWait.run`. -/
theorem fillGoesOnAfterTheWait : Obligations.FillGoesOnAfterTheWait := by
  intro s w d h hs hm hstrategy hw hd hwf hheld hwrong hl
  obtain ⟨t, hrun, hsession, hwait, hin, hout, hcycles⟩ :=
    (FillWait.mk h hs hm hstrategy hw hd hwf hheld hwrong hl).run
  exact ⟨t, hrun, hsession, hwait, hin, hout.trans (List.append_assoc _ _ _).symm,
    hcycles.trans (by simp only [List.append_assoc])⟩

end Sys2Proof.Machine

/-! ## Round trip and readback on test devices (R61 to R66) -/

namespace Sys2Proof.Machine

/-- A poll takes one wrong answer from a test device, if it has any left, and nothing else (R66). -/
theorem pollCycle_dev_test {s : State} {d : TestDevice} (h : linesIdle s = true) (hd : s.dev = .test d) :
    (pollCycle s).2.dev = .test { d with pollsLeft := d.pollsLeft - 1 } := by
  obtain ⟨v, n, he⟩ := pollCycle_spec s
  rw [he]
  simp only [(linesIdle_iff.mp h).2.2.2, if_true, hd]
  by_cases h0 : d.pollsLeft = 0
  · have hself : { d with pollsLeft := d.pollsLeft - 1 } = d := by
      cases d
      simp_all
    rw [answer_poll_ready h0, hself]
  · rw [answer_poll_busy h0]

/-- The state after any number of polls of a test device. -/
theorem iterate_pollCycle_test {s : State} {d : TestDevice} (h : linesIdle s = true) (hd : s.dev = .test d) (n : Nat) :
    linesIdle ((fun u => (pollCycle u).2)^[n] s) = true
      ∧ ((fun u => (pollCycle u).2)^[n] s).params = s.params ∧ ((fun u => (pollCycle u).2)^[n] s).addr = s.addr
      ∧ ((fun u => (pollCycle u).2)^[n] s).dev = .test { d with pollsLeft := d.pollsLeft - n } := by
  induction n with
  | zero => exact ⟨h, rfl, rfl, hd⟩
  | succ n ih =>
    obtain ⟨hidle, hparams, haddr, hdev⟩ := ih
    have he := pollCycle_effect hidle
    rw [Function.iterate_succ_apply']
    exact ⟨he.linesIdle.trans hidle, he.params.trans hparams, (pollCycle_addr _).trans haddr, pollCycle_dev_test hidle hdev⟩

/-- Settles O58: the device after the write and `n` polls by `iterate_pollCycle_test`; its next answer by what it has left. -/
theorem roundTripOnTestDevices : Obligations.RoundTripOnTestDevices := by
  intro s a v d n h hd hwf polled
  have he := writeByte_effect h a v
  obtain ⟨hidle, hparams, haddr, hdev⟩ := iterate_pollCycle_test (he.linesIdle.trans h) (writeByte_dev_test h hd a v) n
  rw [writeByte_addr] at haddr
  rw [he.params] at hparams
  have hstored := Memory.read_write hwf (busAddr s.params.addrWidth a).toNat (busAddr s.params.addrWidth a).toNat v
  rw [if_pos rfl] at hstored
  refine ⟨?_, readByte_value_test hdev (by rw [hparams]; exact hstored)⟩
  have hce := (linesIdle_iff.mp hidle).2.2.2
  by_cases hn : n < d.polls
  · rw [if_pos hn, pollCycle_answered hce (by rw [hdev, answer_poll_busy (Nat.sub_ne_zero_of_lt hn)])]
  · rw [if_neg hn, pollCycle_answered hce (by rw [hdev, haddr, answer_poll_ready (by simp; omega), hstored])]

/-- The address lines of a span's byte, as a number (R41). -/
theorem toNat_busAddr_spanAddr {w : Nat} (hw : w ≤ 32) (a : Word) (i : Nat) :
    (busAddr w (spanAddr a i)).toNat = (a.toNat + i) % 2 ^ w := by
  have hdvd : 2 ^ w ∣ 2 ^ 32 := Nat.pow_dvd_pow 2 hw
  have hlt : (spanAddr a i).toNat % 2 ^ w < 2 ^ 32 := lt_of_le_of_lt (Nat.mod_le _ _) (spanAddr a i).isLt
  simp only [busAddr, BitVec.toNat_ofNat, Nat.mod_eq_of_lt hlt]
  simp only [spanAddr, BitVec.toNat_add, BitVec.toNat_ofNat, Nat.add_mod_mod]
  exact Nat.mod_mod_of_dvd _ hdvd

/-- A span that fits the address lines uses each of its addresses once (R41). -/
theorem busAddr_spanAddr_inj {w : Nat} (hw : w ≤ 32) {a : Word} {i j : Nat} (hi : i < 2 ^ w) (hj : j < 2 ^ w)
    (h : busAddr w (spanAddr a i) = busAddr w (spanAddr a j)) : i = j := by
  have hmod : a.toNat + i ≡ a.toNat + j [MOD 2 ^ w] := by
    have := congrArg BitVec.toNat h
    rwa [toNat_busAddr_spanAddr hw, toNat_busAddr_spanAddr hw] at this
  exact (Nat.ModEq.add_left_cancel' _ hmod).eq_of_lt_of_lt hi hj

/-- A span that a test device holds reads back as it stands there (R66). -/
theorem readSpan_of_stored {s : State} {start : Word} {bytes : List Byte} (ht : s.dev.isTest = true)
    (h : ∀ i v, bytes[i]? = some v → storedByte s.dev (busAddr s.params.addrWidth (spanAddr start i)) = some v)
    (hidle : linesIdle s = true) : (readSpan bytes.length start s).1 = bytes := by
  obtain ⟨hlen, -⟩ := readSpan_effect hidle bytes.length start
  cases hd : s.dev with
  | oracle => simp [hd, Dev.isTest] at ht
  | scripted answers => simp [hd, Dev.isTest] at ht
  | test d =>
    rw [hd] at h
    refine List.ext_getElem hlen fun i h1 h2 => ?_
    exact readSpan_test hd _ start (List.getElem?_eq_getElem h1) (h i _ (List.getElem?_eq_getElem h2))

/-- Bus activity whose writes to a span are its bytes stores them: the span fits the address lines (R41, R66). -/
theorem BusEffect.stored_span {c : List Cycle} {s t : State} {start : Word} {bytes : List Byte} (h : BusEffect c s t)
    (htest : s.dev.isTest = true) (hwf : s.dev.wf = true) (hw : s.params.addrWidth ≤ 32)
    (hlen : bytes.length ≤ 2 ^ s.params.addrWidth)
    (hwrites : ∀ i, i < bytes.length → ∀ x, .wr (busAddr s.params.addrWidth (spanAddr start i)) x ∈ c ↔
      ∃ j, bytes[j]? = some x ∧ busAddr s.params.addrWidth (spanAddr start j) = busAddr s.params.addrWidth (spanAddr start i))
    {i : Nat} {v : Byte} (hv : bytes[i]? = some v) :
    storedByte t.dev (busAddr s.params.addrWidth (spanAddr start i)) = some v := by
  obtain ⟨hi, -⟩ := List.getElem?_eq_some_iff.mp hv
  have hlast : lastWriteTo (busAddr s.params.addrWidth (spanAddr start i)) c = some v := by
    refine lastWriteTo_eq_some ((hwrites i hi v).mpr ⟨i, hv, rfl⟩) fun x hx => ?_
    obtain ⟨j, hj, hji⟩ := (hwrites i hi x).mp hx
    obtain ⟨hjlt, -⟩ := List.getElem?_eq_some_iff.mp hj
    have hij := busAddr_spanAddr_inj hw (by omega) (by omega) hji
    rw [hij, hv] at hj
    exact (Option.some.inj hj).symm
  rw [h.mem hwf htest, hlast, Option.some_or]

/-- Settles O57: the commit's writes to the span are its bytes, so the device holds them, and the reads find them. -/
theorem pageReadbackOnTestDevices : Obligations.PageReadbackOnTestDevices := by
  intro s start bytes left d h hw hw32 hd hwf hlen hunlock
  have htest : s.dev.isTest = true := by rw [hd]; rfl
  have hchip : s.dev.wf = true := by rw [hd]; exact hwf
  have reads {c : List Cycle} {w : Option PollWait} {t : State} (he : BusEffect c { s with wait := w } t)
      (hwrites : ∀ i, i < bytes.length → ∀ x, .wr (busAddr s.params.addrWidth (spanAddr start i)) x ∈ c ↔
        ∃ j, bytes[j]? = some x ∧ busAddr s.params.addrWidth (spanAddr start j) = busAddr s.params.addrWidth (spanAddr start i)) :
      (readSpan bytes.length start t).1 = bytes := by
    refine readSpan_of_stored (he.test.trans htest) (fun i v hv => ?_) (he.linesIdle.trans h)
    rw [he.params]
    exact he.stored_span htest hchip hw32 hlen hwrites hv
  cases hs : s.strategy with
  | flash =>
    rw [commit_flash hs]
    refine reads (w := s.wait) (commitFlash_effect h hw start bytes) fun i hi x => ?_
    obtain ⟨h1, h2⟩ := hunlock hs i hi
    exact wr_mem_flashCycles h1 h2
  | eeprom =>
    rw [commit_eeprom hs]
    cases hb : bytes.getLast? with
    | none =>
      rw [List.getLast?_eq_none_iff.mp hb]
      rfl
    | some last =>
      obtain ⟨v, he, -⟩ := commitEeprom_effect h start hb left
      refine reads he fun i hi x => ?_
      rw [List.mem_append, List.mem_singleton, or_iff_left nofun]
      exact wr_mem_loadCycles

/-! ## Faults (R228, R234, D24) -/

/-- The answer `o` of a turn from `s` is a next state, or `hang` where the turn with no limit, `free`, ends in a wait that has
used up the limit, its last cycle a missed poll. -/
def AnswersOrHangs (s : State) (o free : Host.Outcome State Fault Refusal) : Prop :=
  (∃ t, o = .next t)
    ∨ ∃ n t w, s.params.pollLimit = some n ∧ o = .fault .hang ∧ free = .next t ∧ t.wait = some w ∧ n ≤ w.polls
      ∧ endsInMissedPoll s t

theorem AnswersOrHangs.of_answer {s v : State} {l : Option Nat} (hl : s.params.pollLimit = l) (h : endsInMissedPoll s v) :
    AnswersOrHangs s (answer l v) (answer none (withPollLimit none v)) := by
  subst hl
  rcases answer_cases s.params.pollLimit v with hn | ⟨hf, n, w, hn, hw, hle⟩
  · exact .inl ⟨v, hn⟩
  · exact .inr ⟨n, withPollLimit none v, w, hn, hf, rfl, hw, hle, h⟩

theorem AnswersOrHangs.finish {s : State} {o free : Host.Outcome State Fault Refusal} (h : AnswersOrHangs s o free) :
    AnswersOrHangs s (finish o) (finish free) := by
  rcases h with ⟨t, rfl⟩ | ⟨n, t, w, hn, rfl, rfl, hw, hle, hmiss⟩
  · exact .inl ⟨_, rfl⟩
  · refine .inr ⟨n, t, w, hn, rfl, ?_, hw, hle, hmiss⟩
    exact congrArg Host.Outcome.next (sessionTail_of_unfinished (.inr (.inr (by rw [hw]; exact Option.some_ne_none w))))

/-- A hand-over of a complete payload whose entries all hold a value commits them (R142). -/
theorem handOver_of_complete {s : State} {bytes : List Byte} (h : s.binCount ≤ s.binIndex)
    (hb : bufferPrefix s.pageBuffer (min s.binCount pageCap) = some bytes) :
    handOver s = answer s.params.pollLimit (commit s.startAddr bytes 0 { s with session := .executing }) := by
  simp [handOver, payloadComplete, h, hb]

theorem handOver_of_short {s : State} (h : s.binIndex < s.binCount) : handOver s = .next s :=
  if_neg (by simpa [payloadComplete] using h)

/-- The end of a page write finds no entry absent (R25, R142). -/
theorem handOver_answersOrHangs {s : State} (h : linesIdle s = true) (hw : s.wait = none) (hr : RegistersOk s)
    (hheld : payloadHeld s = true) :
    AnswersOrHangs s (handOver (collectBinary s)) (handOver (collectBinary (withPollLimit none s))) := by
  have hfree : collectBinary (withPollLimit none s) = withPollLimit none (collectBinary s) := rfl
  rw [hfree]
  have hcounters := (collectBinary_registers hr).counters.1
  have hheld' := collectBinary_held hr hheld
  have hparams : (collectBinary s).params = s.params := rfl
  generalize hc : collectBinary s = c at hcounters hheld' hparams ⊢
  by_cases hlt : c.binIndex < c.binCount
  · exact .inl ⟨c, handOver_of_short hlt⟩
  · have hcount : c.binCount = c.binIndex := by omega
    rw [payloadHeld, ← hcount] at hheld'
    obtain ⟨bytes, hb⟩ := Option.isSome_iff_exists.mp hheld'
    have hmiss : endsInMissedPoll s (commit c.startAddr bytes 0 { c with session := .executing }) := by
      subst hc
      exact commit_missed (s := { collectBinary s with session := .executing }) h hw _ _ _
    have hunlimited : handOver (withPollLimit none c)
        = answer none (withPollLimit none (commit c.startAddr bytes 0 { c with session := .executing })) :=
      (handOver_of_complete (s := withPollLimit none c) hcount.le hb).trans
        (congrArg (answer none) (commit_withPollLimit c.startAddr bytes 0 none { c with session := .executing }))
    rw [handOver_of_complete hcount.le hb, hunlimited]
    exact .of_answer (congrArg Params.pollLimit hparams.symm) hmiss

theorem exec_answersOrHangs {i : Instr} {s : State} (h : linesIdle s = true) (hw : s.wait = none) (hr : RegistersOk s)
    (hi : ∀ a b, i = .page a b → a = s.startAddr) : AnswersOrHangs s (exec i s) (exec i (withPollLimit none s)) := by
  cases i with
  | fill start stop value =>
    have hmiss := fillFrom_missed h hw (fillByte value) (rangeLength start stop) start
    have hfree : exec (.fill start stop value) (withPollLimit none s)
        = answer none (withPollLimit none (fillFrom (fillByte value) (rangeLength start stop) start s)) :=
      congrArg (answer none) (fillFrom_withPollLimit _ _ _ _ _)
    rw [hfree]
    exact .of_answer rfl hmiss
  | page start stop =>
    by_cases ha : rangeLength start stop ≤ pageCap ∨ s.params.pOverflow = .truncate
    · have hrange : start.toNat ≤ s.endAddr.toNat := hi start stop rfl ▸ hr.range
      rw [exec_page_of_admitted ha, exec_page_of_admitted (s := withPollLimit none s) ha]
      exact handOver_answersOrHangs
        (s := { s with
          startAddr := start, binCount := rangeLength start stop, binIndex := 0, session := .awaitingBinary })
        h hw ⟨hrange, ⟨Nat.zero_le _, rangeLength_le _ _⟩, hr.buffer, hr.line⟩ rfl
    · push Not at ha
      rw [exec_page_of_overflow ha.1]
      cases hp : s.params.pOverflow with
      | fault => exact .inl ⟨_, by rw [pageOverflow, hp]⟩
      | reject => exact .inl ⟨_, by rw [pageOverflow, hp]⟩
      | truncate => exact absurd hp ha.2
  | _ => exact .inl ⟨_, rfl⟩

theorem resumeWait_answersOrHangs {s : State} {w : PollWait} (h : linesIdle s = true) (hw : s.wait = some w) :
    AnswersOrHangs s (resumeWait w s) (resumeWait w (withPollLimit none s)) := by
  have hpoll := pollOnce_missed h (.inr hw)
  obtain ⟨v, he, -⟩ := pollOnce_effect h w
  simp only [resumeWait, pollOnce_withPollLimit, withPollLimit_wait, fillFrom_withPollLimit]
  by_cases hwaits : (pollOnce w s).wait.isSome = true
  · rw [if_pos hwaits, if_pos hwaits]
    exact .of_answer rfl hpoll
  · rw [if_neg hwaits, if_neg hwaits]
    have hnone : (pollOnce w s).wait = none := by simpa using hwaits
    exact .of_answer rfl (endsInMissedPoll_after he.run.2.1 (.inl hnone)
      (fillFrom_missed (he.linesIdle.trans h) hnone w.expect w.left w.next))

/-- A step of an unmarked state that meets the invariant answers, or hangs on a missed poll (R228, R234). -/
theorem step_answersOrHangs {s : State} (h : Inv s) (hm : s.faultMark = false) :
    AnswersOrHangs s (step s) (step (withPollLimit none s)) := by
  rcases step_cases s with ⟨hm', -⟩ | ⟨-, -, line, -, hs⟩ | ⟨-, hses, line, rest, hr, hs⟩ | ⟨-, hses, hs⟩ | ⟨-, -, -, hs⟩
    | ⟨-, hses, w, hw, hs⟩
  · rw [hm] at hm'
    cases hm'
  · exact .inl ⟨_, hs⟩
  · have hexec := exec_answersOrHangs
      (s := loadCommand (parseLine line) { s with line := line, linkIn := rest }) (i := instrOf (parseLine line)) h.lines
      (sessionOk_awaitingCommand h.session hses).1 (loadCommand_registers h hses hr) fun a b hi => (instrOf_eq_page hi).1
    rw [hs, step_of_complete (s := withPollLimit none s) hses hm hr]
    exact hexec.finish
  · obtain ⟨hw, -, hheld⟩ := sessionOk_awaitingBinary h.session hses
    rw [hs, step_of_binary (s := withPollLimit none s) hses hm]
    exact (handOver_answersOrHangs h.lines hw h.registers hheld).finish
  · exact .inl ⟨_, hs⟩
  · rw [hs, step_of_wait (s := withPollLimit none s) hses hm hw]
    exact (resumeWait_answersOrHangs h.lines hw).finish

/-- Settles O20: the mark by `step_of_mark`, the rest by `step_answersOrHangs` and the turns of a wait. -/
theorem onlyMarkedStatesFault : Obligations.OnlyMarkedStatesFault := by
  refine ⟨fun s => step_of_mark, fun s => step_answersOrHangs, fun s w n hm hs hw hn hx => ⟨?hangs, fun hlt => ?waits⟩,
    fun s w hm hs hw hleft hx => ?ends⟩
  case hangs => exact step_of_last_miss hs hm hw hx hn
  case waits =>
    refine ⟨_, step_of_miss hs hm hw hx fun k hk => ?_, by rw [pollOnce_eq hw, if_neg hx]⟩
    obtain rfl := Option.some.inj (hn.symm.trans hk)
    exact hlt
  case ends =>
    obtain ⟨hwait, hstep⟩ := step_of_match hs hm hw hx
    rw [hleft, fillFrom,
      finish_answer_of_done ((pollOnce_faultMark w s).trans hm) ((pollOnce_session w s).trans hs) hwait] at hstep
    exact ⟨_, hstep, hwait, rfl⟩

/-! ## Resets (R240, R242) -/

/-- A test device keeps its kind and its form through a disturbance. -/
theorem Dev.disturb_test (w : Nat) (area : ChipArea) (remains : ChipRemains) {d : TestDevice} (h : d.mem.wf = true) :
    ((Dev.test d).disturb w area remains).isTest = true ∧ ((Dev.test d).disturb w area remains).wf = true := by
  unfold Dev.disturb
  dsimp only
  split
  · exact ⟨rfl, h⟩
  · exact ⟨rfl, Memory.disturb_wf w area remains.cells h⟩

/-- Outside the area a test device keeps its byte (R242, U13). -/
theorem storedByte_disturb_outside {w : Nat} {area : ChipArea} (remains : ChipRemains) {d : TestDevice} (h : d.mem.wf = true)
    {a : Word} (ha : area.covers w a.toNat = false) :
    storedByte ((Dev.test d).disturb w area remains) a = storedByte (.test d) a := by
  unfold Dev.disturb
  dsimp only
  split
  · rfl
  · exact Memory.disturb_read w remains.cells h ha

/-- Inside the area a byte may hold any value (R242, U13). -/
theorem storedByte_disturb_inside {w : Nat} {area : ChipArea} {remains : ChipRemains} {d : TestDevice} (h : d.mem.wf = true)
    {a : Word} {v : Byte} (ha : area.covers w a.toNat = true) (hc : remains.cells = [(a.toNat, v)]) :
    storedByte ((Dev.test d).disturb w area remains) a = some v := by
  have hne : area ≠ .untouched := by
    rintro rfl
    cases ha
  simp only [Dev.disturb, hne, if_false, storedByte, hc, Memory.disturb, ha, if_true]
  rw [Memory.read_write h, if_pos rfl]

/-- Settles O17: the reset state field by field; the chip by the area of the abandoned command. -/
theorem resetEventFromAnyState : Obligations.ResetEventFromAnyState := by
  refine ⟨fun s => ⟨rfl, rfl, rfl, rfl, rfl, rfl, rfl, rfl, rfl, rfl, stuckStepChangesNothing _ rfl nofun⟩,
    fun remains s => ⟨?block, fun h => ?idle⟩, fun remains s d i hd hwf habandoned => ?chip⟩
  case block =>
    rcases resetDuring_eq remains s with ⟨-, he⟩ | ⟨i, -, he⟩ <;> rw [he]
  case idle =>
    rcases resetDuring_eq remains s with ⟨-, he⟩ | ⟨i, hi, -⟩
    · exact he
    · rw [h] at hi
      cases hi
  case chip =>
    have hdev : (resetDuring remains s).dev
        = (Dev.test d).disturb s.params.addrWidth (disturbedArea s.strategy i) remains := by
      rcases resetDuring_eq remains s with ⟨hn, -⟩ | ⟨j, hj, he⟩
      · rw [habandoned] at hn
        cases hn
      · obtain rfl := Option.some.inj (habandoned.symm.trans hj)
        rw [he, hd]
    intro t
    obtain ⟨htest, hform⟩ := Dev.disturb_test s.params.addrWidth (disturbedArea s.strategy i) remains hwf
    rw [show t.dev = _ from hdev]
    refine ⟨htest, hform, fun hi => ?untouched, fun start stop hs hi => ?span, fun hi a v ha hc => ?whole⟩
    case untouched =>
      have harea : disturbedArea s.strategy i = .untouched := by
        rcases hi with rfl | rfl | ⟨a, rfl⟩ | ⟨a, b, rfl⟩ | ⟨a, b, rfl⟩ | rfl | rfl | ⟨o, rfl⟩ <;> rfl
      rw [harea, hd]
      rfl
    case span =>
      have harea : disturbedArea s.strategy i = .span start (rangeLength start stop) := by
        rcases hi with rfl | ⟨value, rfl⟩ <;> rw [hs] <;> rfl
      rw [harea, hd]
      refine ⟨fun a ha => storedByte_disturb_outside remains hwf ?_, fun k v hk hc => storedByte_disturb_inside hwf ?_ hc⟩
      · refine Bool.eq_false_iff.mpr fun hcov => ?_
        obtain ⟨k, hk, e⟩ := (ChipArea.covers_span _ _ _ _).mp hcov
        exact ha k hk (BitVec.eq_of_toNat_eq e)
      · exact (ChipArea.covers_span _ _ _ _).mpr ⟨k, hk, rfl⟩
    case whole =>
      have harea : disturbedArea s.strategy i = .whole := by
        rcases hi with rfl | rfl | rfl | ⟨hs, ⟨b, c, rfl⟩ | ⟨b, c, e, rfl⟩⟩
        case inr.inr.inr.inl | inr.inr.inr.inr =>
          rw [hs]
          rfl
        all_goals rfl
      rw [harea]
      exact storedByte_disturb_inside hwf (decide_eq_true ha) hc

end Sys2Proof.Machine

/-! ## Frames of the instructions (44 to 47, R156) -/

namespace Sys2Proof.Machine

theorem execPage_linkOut {start stop : Word} {s t : State} (h : execPage start stop s = .next t) : t.linkOut = s.linkOut := by
  rcases execPage_cases h with ⟨-, ⟨-, rfl⟩ | ⟨-, rfl⟩⟩ | ⟨-, he⟩
  · rfl
  · rfl
  · exact (busOnly_linkOut (enterBinary_busOnly he).1).trans rfl

/-- Only `i`, `v`, `d` and `r` write `linkOut`. -/
theorem exec_linkOut {i : Instr} {s t : State} (hi : i ≠ .ident) (hv : i ≠ .version) (hd : ∀ a b, i ≠ .dump a b)
    (hr : ∀ a b, i ≠ .read a b) (h : exec i s = .next t) : t.linkOut = s.linkOut := by
  cases i with
  | ident => exact absurd rfl hi
  | version => exact absurd rfl hv
  | dump a b => exact absurd rfl (hd a b)
  | read a b => exact absurd rfl (hr a b)
  | page a b => exact execPage_linkOut h
  | fill a b c =>
    rw [answer_next h]
    exact (busOnly_linkOut (fillFrom_busOnly _ _ _ s)).trans rfl
  | setAddress _ | modeEeprom | modeFlash | unrecognised _ =>
    obtain rfl := Host.Outcome.next.inj h
    rfl
  | lock | unlock | erase | seqChipErase | seqSwpEnable | seqSwpDisable =>
    obtain rfl := Host.Outcome.next.inj h
    exact busOnly_linkOut (writeSeqDelay_busOnly _ _ s)
  | seqFlashByteProgram a v =>
    obtain rfl := Host.Outcome.next.inj h
    exact busOnly_linkOut (flashByteProgram_busOnly a v s)

/-- Only `p` and `f` write the control position. -/
theorem exec_wait {i : Instr} {s t : State} (hp : ∀ a b, i ≠ .page a b) (hf : ∀ a b c, i ≠ .fill a b c)
    (h : exec i s = .next t) : t.wait = s.wait := by
  cases i with
  | page a b => exact absurd rfl (hp a b)
  | fill a b c => exact absurd rfl (hf a b c)
  | ident | version | setAddress _ | modeEeprom | modeFlash | unrecognised _ =>
    obtain rfl := Host.Outcome.next.inj h
    rfl
  | dump a b =>
    obtain rfl := Host.Outcome.next.inj h
    obtain ⟨out, ho⟩ := dumpRows_busOnly a (rangeLength a b) (rowTotal (rangeLength a b)) s
    exact (busOnly_wait ho).trans rfl
  | read a b =>
    obtain rfl := Host.Outcome.next.inj h
    obtain ⟨out, ho⟩ := streamBytes_busOnly (rangeLength a b) a s
    exact (busOnly_wait ho).trans rfl
  | lock | unlock | erase | seqChipErase | seqSwpEnable | seqSwpDisable =>
    obtain rfl := Host.Outcome.next.inj h
    exact busOnly_wait (writeSeqDelay_busOnly _ _ s)
  | seqFlashByteProgram a v =>
    obtain rfl := Host.Outcome.next.inj h
    exact busOnly_wait (flashByteProgram_busOnly a v s)

/-- Settles O51: the effect on the bus by `exec_effect`, the other fields one lemma each. -/
theorem instructionFrame : Obligations.InstructionFrame := by
  intro i s t h ht
  obtain ⟨c, he⟩ := exec_effect h ht
  obtain ⟨hline, hopcode, hend, hfill⟩ := he.fields
  refine ⟨⟨he.params, he.linesIdle.trans h, hline, hopcode, hend, hfill⟩, fun hp => ?_, fun hE hF => exec_strategy hE hF ht,
    fun hi hv hd hr => exec_linkOut hi hv hd hr ht, fun hp hf => exec_wait hp hf ht, ?_⟩
  · obtain ⟨out, ho⟩ := exec_busOnly hp ht
    exact ⟨(busOnly_startAddr ho).trans rfl, (busOnly_binCount ho).trans rfl, (busOnly_binIndex ho).trans rfl,
      (busOnly_session ho).trans rfl, (busOnly_pageBuffer ho).trans rfl, (busOnly_linkIn ho).trans rfl,
      (busOnly_faultMark ho).trans rfl⟩
  · rintro (rfl | rfl | rfl | rfl | ⟨o, rfl⟩)
    all_goals
      obtain rfl := Host.Outcome.next.inj ht
      exact ⟨rfl, rfl, rfl, rfl, rfl, rfl⟩

/-- Settles O52: the frame of every other instruction, and what `p` takes. -/
theorem onlyPageWriteConsumesTheLink : Obligations.OnlyPageWriteConsumesTheLink := by
  refine fun i s t h => ⟨fun hp => ?_, fun a b hi => ?_⟩
  · obtain ⟨out, ho⟩ := exec_busOnly hp h
    exact (busOnly_linkIn ho).trans rfl
  · subst hi
    rcases execPage_cases h with ⟨hlen, ⟨-, rfl⟩ | ⟨-, rfl⟩⟩ | ⟨-, he⟩
    · exact .inl ⟨rfl, hlen⟩
    · exact .inl ⟨rfl, hlen⟩
    · exact .inr (busOnly_linkIn (enterBinary_busOnly he).1)

/-! ## What an earlier command left in the page buffer (R25, R142) -/

theorem pollOnce_withBuffer (w : PollWait) (m : Memory) (s : State) :
    pollOnce w (withBuffer m s) = withBuffer m (pollOnce w s) := by
  have h := (beside_withBuffer m).pollCycle { s with wait := some w }
  have hself : { withBuffer m s with wait := some w } = withBuffer m { s with wait := some w } := rfl
  simp only [pollOnce, hself, h]
  rfl

theorem commit_withBuffer (a : Word) (bytes : List Byte) (left : Nat) (m : Memory) (s : State) :
    commit a bytes left (withBuffer m s) = withBuffer m (commit a bytes left s) := by
  have hstrategy : flashSelected (withBuffer m s) = flashSelected s := rfl
  unfold commit commitEeprom
  rw [hstrategy]
  split
  · exact (beside_withBuffer m).commitFlash a bytes s
  · split
    · rfl
    · rw [(beside_withBuffer m).writeSpan, pollOnce_withBuffer]

theorem fillFrom_withBuffer (v : Byte) (count : Nat) (a : Word) (m : Memory) (s : State) :
    fillFrom v count a (withBuffer m s) = withBuffer m (fillFrom v count a s) := by
  induction count generalizing a s with
  | zero => rfl
  | succ n ih =>
    have hwait : (withBuffer m (commit a [v] n s)).wait = (commit a [v] n s).wait := rfl
    simp only [fillFrom, commit_withBuffer, hwait, ih]
    split <;> rfl

theorem dumpRows_withBuffer (start : Word) (length left : Nat) (m : Memory) (s : State) :
    dumpRows start length left (withBuffer m s) = withBuffer m (dumpRows start length left s) := by
  have row (base : Word) (count : Nat) (u : State) :
      dumpRow base count (withBuffer m u) = withBuffer m (dumpRow base count u) := by
    simp only [dumpRow, (beside_withBuffer m).readSpan]
    rfl
  induction left generalizing s with
  | zero => rfl
  | succ n ih => exact (congrArg (dumpRows start length n) (row _ _ s)).trans (ih _)

theorem streamBytes_withBuffer (count : Nat) (a : Word) (m : Memory) (s : State) :
    streamBytes count a (withBuffer m s) = withBuffer m (streamBytes count a s) := by
  simp only [streamBytes_eq_readSpan, (beside_withBuffer m).readSpan]
  rfl

theorem answer_withBuffer {l : Option Nat} {u t : State} (m : Memory) (h : answer l u = .next t) :
    answer l (withBuffer m u) = .next (withBuffer m t) := by
  obtain rfl := answer_next h
  cases l with
  | none => rfl
  | some n =>
    have hexhausted : pollsExhausted n (withBuffer m t) = pollsExhausted n t := rfl
    simp only [answer, hexhausted] at h ⊢
    split at h
    · cases h
    · rename_i hn
      exact if_neg hn

/-- An instruction other than `p` does the same over another page buffer, and leaves it as it is. -/
theorem exec_withBuffer {i : Instr} {s t : State} (m : Memory) (hp : ∀ a b, i ≠ .page a b) (h : exec i s = .next t) :
    exec i (withBuffer m s) = .next (withBuffer m t) := by
  have hm := beside_withBuffer m
  cases i with
  | page a b => exact absurd rfl (hp a b)
  | fill a b c =>
    have := answer_withBuffer m h
    rwa [← fillFrom_withBuffer] at this
  | ident | version | setAddress _ | modeEeprom | modeFlash | unrecognised _ =>
    obtain rfl := Host.Outcome.next.inj h
    rfl
  | dump a b =>
    obtain rfl := Host.Outcome.next.inj h
    exact congrArg Host.Outcome.next (dumpRows_withBuffer _ _ _ m s)
  | read a b =>
    obtain rfl := Host.Outcome.next.inj h
    exact congrArg Host.Outcome.next (streamBytes_withBuffer _ _ m s)
  | seqFlashByteProgram a v =>
    obtain rfl := Host.Outcome.next.inj h
    exact congrArg Host.Outcome.next (hm.flashByteProgram a v s)
  | lock | unlock | erase | seqChipErase | seqSwpEnable | seqSwpDisable =>
    obtain rfl := Host.Outcome.next.inj h
    exact congrArg Host.Outcome.next ((congrArg (engineDelay _) (hm.writeSeq _ s)).trans (hm.engineDelay _ _))

/-- The buffer `m` may stand in place of the state's: unwritten entries are absent in both, and of a payload being collected the
entries received so far are the same (R25, R141). -/
structure BuffersAgree (m : Memory) (s : State) : Prop where
  mine : s.pageBuffer.unlisted = none
  other : m.unlisted = none
  held : s.session = .awaitingBinary → ∀ i, i < s.binIndex → i < pageCap → m.read i = s.pageBuffer.read i

/-- The commit reads the entries of its count only (R142). -/
theorem bufferPrefix_congr {m m' : Memory} {count : Nat} (h : ∀ i, i < count → m'.read i = m.read i) :
    bufferPrefix m' count = bufferPrefix m count := by
  induction count with
  | zero => rfl
  | succ n ih => simp only [bufferPrefix, ih fun i hi => h i (by omega), h n (by omega)]

/-- Collecting and handing over from buffers that agree: the same answer, and they agree still (R141, R142). -/
theorem handOver_withBuffer {s t : State} {m : Memory} (h : BuffersAgree m s) (hs : s.session = .awaitingBinary)
    (ht : handOver (collectBinary s) = .next t) :
    ∃ m', handOver (collectBinary (withBuffer m s)) = .next (withBuffer m' t) ∧ BuffersAgree m' t := by
  let m' := storePayload s.binIndex (s.linkIn.take (s.binCount - s.binIndex)) m
  have hcollect : collectBinary (withBuffer m s) = withBuffer m' (collectBinary s) := rfl
  have hmine : (collectBinary s).pageBuffer.unlisted = none := (storePayload_unlisted _ _ _).trans h.mine
  have hother : m'.unlisted = none := (storePayload_unlisted _ _ _).trans h.other
  have hheld : ∀ i, i < (collectBinary s).binIndex → i < pageCap → m'.read i = (collectBinary s).pageBuffer.read i := by
    intro i hi hcap
    rw [collectBinary_binIndex] at hi
    rw [collectBinary_pageBuffer, storePayload_read h.mine, storePayload_read h.other]
    split
    · rfl
    · exact h.held hs i (by omega) hcap
  rw [hcollect]
  refine ⟨m', ?_⟩
  rcases handOver_cases (collectBinary s) with ⟨hlt, h1⟩ | ⟨hle, bytes, hb, h1⟩ | ⟨-, -, h1⟩
  · rw [h1] at ht
    obtain rfl := Host.Outcome.next.inj ht
    exact ⟨handOver_of_short hlt, hmine, hother, fun _ => hheld⟩
  · have hprefix : bufferPrefix m' (min (collectBinary s).binCount pageCap) = some bytes :=
      (bufferPrefix_congr fun i hi => hheld i (by omega) (by omega)).trans hb
    have ho := (handOver_busOnly ht).1
    rcases (handOver_busOnly ht).2 with ⟨hlt, -⟩ | ⟨-, hx⟩
    · omega
    rw [h1] at ht
    refine ⟨?_, (busOnly_pageBuffer ho) ▸ hmine, hother, fun hc => by rw [hx] at hc; cases hc⟩
    rw [handOver_of_complete (s := withBuffer m' (collectBinary s)) hle hprefix]
    have hcommit := commit_withBuffer s.startAddr bytes 0 m' { collectBinary s with session := .executing }
    exact (congrArg (answer _) hcommit).trans (answer_withBuffer m' ht)
  · rw [h1] at ht
    cases ht

/-- `p` over another page buffer. -/
theorem execPage_withBuffer {a b : Word} {s t : State} {m : Memory} (hs : s.pageBuffer.unlisted = none)
    (hm : m.unlisted = none) (h : exec (.page a b) s = .next t) :
    ∃ m', exec (.page a b) (withBuffer m s) = .next (withBuffer m' t)
      ∧ (s.session ≠ .awaitingBinary → BuffersAgree m' t) := by
  rcases execPage_cases h with ⟨hlen, ⟨hp, rfl⟩ | ⟨hp, rfl⟩⟩ | ⟨hadm, he⟩
  · refine ⟨m, ?_, fun hne => ⟨hs, hm, fun hc => absurd hc hne⟩⟩
    rw [exec_page_of_overflow hlen, pageOverflow, show (withBuffer m s).params.pOverflow = .fault from hp]
    rfl
  · refine ⟨m, ?_, fun hne => ⟨hs, hm, fun hc => absurd hc hne⟩⟩
    rw [exec_page_of_overflow hlen, pageOverflow, show (withBuffer m _).params.pOverflow = .reject from hp]
  · have hagree : BuffersAgree m
        { s with startAddr := a, binCount := rangeLength a b, binIndex := 0, session := .awaitingBinary } :=
      ⟨hs, hm, fun _ i hi => absurd hi (Nat.not_lt_zero i)⟩
    obtain ⟨m', h1, h2⟩ := handOver_withBuffer hagree rfl he
    refine ⟨m', ?_, fun _ => h2⟩
    rw [exec_page_of_admitted (s := withBuffer m s) hadm]
    exact h1

/-- The session's tail over another page buffer. -/
theorem sessionTail_withBuffer (m : Memory) (u : State) : sessionTail (withBuffer m u) = withBuffer m (sessionTail u) := by
  rcases sessionTail_cases u with ⟨hn, h⟩ | ⟨hm, hs, hw, h⟩ <;> rw [h]
  · exact sessionTail_of_unfinished hn
  · exact sessionTail_of_done (u := withBuffer m u) hm hs hw

theorem BuffersAgree.sessionTail {m : Memory} {u : State} (h : BuffersAgree m u) : BuffersAgree m (sessionTail u) := by
  rcases sessionTail_cases u with ⟨-, ht⟩ | ⟨-, -, -, ht⟩ <;> rw [ht]
  · exact h
  · exact ⟨h.mine, h.other, nofun⟩

/-- A turn that gives the same over another buffer gives the same to the session. -/
theorem finish_withBuffer {o o' : Host.Outcome State Fault Refusal} {t : State} (h : finish o = .next t)
    (ho : ∀ u, o = .next u → ∃ m', o' = .next (withBuffer m' u) ∧ BuffersAgree m' u) :
    ∃ m', finish o' = .next (withBuffer m' t) ∧ BuffersAgree m' t := by
  obtain ⟨u, hu, rfl⟩ := finish_next h
  obtain ⟨m', rfl, hagree⟩ := ho u hu
  exact ⟨m', congrArg Host.Outcome.next (sessionTail_withBuffer m' u), hagree.sessionTail⟩

theorem BuffersAgree.of_busOnly {m : Memory} {s t : State} (hb : busOnly s t) (h : BuffersAgree m s) : BuffersAgree m t := by
  obtain ⟨h1, h2, h3⟩ := h
  exact ⟨by rwa [busOnly_pageBuffer hb], h2, by rwa [busOnly_session hb, busOnly_binIndex hb, busOnly_pageBuffer hb]⟩

theorem resumeWait_withBuffer {w : PollWait} {s t : State} {m : Memory} (h : resumeWait w s = .next t) :
    resumeWait w (withBuffer m s) = .next (withBuffer m t) := by
  have := answer_withBuffer m h
  simp only [resumeWait, pollOnce_withBuffer, fillFrom_withBuffer]
  split
  · rename_i hwaits
    rwa [if_pos (show (pollOnce w s).wait.isSome = true from hwaits)] at this
  · rename_i hwaits
    rwa [if_neg (show ¬ (pollOnce w s).wait.isSome = true from hwaits)] at this

/-- A step from buffers that agree: the same answer, and they agree again. -/
theorem step_withBuffer {s t : State} {m : Memory} (h : BuffersAgree m s) (ht : step s = .next t) :
    ∃ m', step (withBuffer m s) = .next (withBuffer m' t) ∧ BuffersAgree m' t := by
  rcases step_cases s with ⟨-, hs⟩ | ⟨hm, hses, line, hr, hs⟩ | ⟨hm, hses, line, rest, hr, hs⟩ | ⟨hm, hses, hs⟩
    | ⟨hm, hses, hw, hs⟩ | ⟨hm, hses, w, hw, hs⟩
  · rw [hs] at ht
    cases ht
  · rw [hs] at ht
    obtain rfl := Host.Outcome.next.inj ht
    exact ⟨m, step_of_incomplete (s := withBuffer m s) hses hm hr, h.mine, h.other,
      fun hc => by rw [show s.session = .awaitingBinary from hc] at hses; cases hses⟩
  · rw [hs] at ht
    rw [step_of_complete (s := withBuffer m s) hses hm hr]
    refine finish_withBuffer ht fun u hu => ?_
    by_cases hp : ∃ a b, instrOf (parseLine line) = .page a b
    · obtain ⟨a, b, hi⟩ := hp
      rw [hi] at hu ⊢
      obtain ⟨m', h1, h2⟩ := execPage_withBuffer (s := loadCommand (parseLine line) { s with line := line, linkIn := rest })
        h.mine h.other hu
      exact ⟨m', h1, h2 nofun⟩
    · push Not at hp
      obtain ⟨out, ho⟩ := exec_busOnly hp hu
      exact ⟨m, exec_withBuffer m hp hu, .of_busOnly ho ⟨h.mine, h.other, nofun⟩⟩
  · rw [hs] at ht
    rw [step_of_binary (s := withBuffer m s) hses hm]
    exact finish_withBuffer ht fun u hu => handOver_withBuffer h hses hu
  · rw [hs] at ht
    obtain rfl := Host.Outcome.next.inj ht
    have hstep : step (withBuffer m s) = .next (sessionTail (withBuffer m s)) := by
      simp [step, fetch, withBuffer, hm, hses, hw, finish]
    exact ⟨m, by rw [hstep, sessionTail_withBuffer], h.sessionTail⟩
  · rw [hs] at ht
    rw [step_of_wait (s := withBuffer m s) hses hm hw]
    exact finish_withBuffer ht fun u hu => ⟨m, resumeWait_withBuffer hu,
      .of_busOnly (resumeWait_busOnly hu) ⟨h.mine, h.other, h.held⟩⟩

/-- Settles O53: instructions by `exec_withBuffer` and `execPage_withBuffer`, steps by `step_withBuffer`. -/
theorem stalePageBufferIsNeverRead : Obligations.StalePageBufferIsNeverRead := by
  refine ⟨fun i s t m hs hm h => ?_, fun s t m hs hm hheld h => ?_⟩
  · by_cases hp : ∃ a b, i = .page a b
    · obtain ⟨a, b, rfl⟩ := hp
      obtain ⟨m', h1, -⟩ := execPage_withBuffer hs hm h
      exact ⟨m', h1⟩
    · push Not at hp
      exact ⟨m, exec_withBuffer m hp h⟩
  · obtain ⟨m', h1, hagree⟩ := step_withBuffer ⟨hs, hm, hheld⟩ h
    exact ⟨m', h1, hagree.mine, hagree.other, hagree.held⟩

/-! ## Commands that do not observe the chip (R122 to R127, R234) -/

/-- The same state with another chip on the bus. -/
def OtherChip (s t : State) : Prop := ∃ chip, t = { s with dev := chip }

theorem OtherChip.writeByte {s t : State} (h : OtherChip s t) (a : Word) (v : Byte) :
    OtherChip (writeByte a v s) (writeByte a v t) := by
  obtain ⟨chip, rfl⟩ := h
  rw [writeByte_eq, writeByte_eq]
  exact ⟨_, rfl⟩

theorem OtherChip.writeSeq {s t : State} (h : OtherChip s t) (steps : List (Word × Byte)) :
    OtherChip (writeSeq steps s) (writeSeq steps t) := by
  induction steps generalizing s t with
  | nil => exact h
  | cons x rest ih => exact ih (h.writeByte x.1 x.2)

theorem OtherChip.engineDelay {s t : State} (h : OtherChip s t) (d : DelayName) :
    OtherChip (engineDelay d s) (engineDelay d t) := by
  obtain ⟨chip, rfl⟩ := h
  exact ⟨chip, rfl⟩

theorem OtherChip.flashByteProgram {s t : State} (h : OtherChip s t) (a : Word) (v : Byte) :
    OtherChip (flashByteProgram a v s) (flashByteProgram a v t) :=
  ((h.writeSeq flashUnlock).writeByte a v).engineDelay .tFlashByte

theorem OtherChip.commitFlash {s t : State} (h : OtherChip s t) (a : Word) (bytes : List Byte) :
    OtherChip (commitFlash a bytes s) (commitFlash a bytes t) := by
  induction bytes generalizing s t a with
  | nil => exact h
  | cons v rest ih => exact ih (h.flashByteProgram a v) (a + 1#32)

theorem OtherChip.wait {s t : State} (h : OtherChip s t) : t.wait = s.wait := by
  obtain ⟨chip, rfl⟩ := h
  rfl

theorem OtherChip.strategy {s t : State} (h : OtherChip s t) : t.strategy = s.strategy := by
  obtain ⟨chip, rfl⟩ := h
  rfl

theorem OtherChip.commit {s t : State} (h : OtherChip s t) (hs : s.strategy = .flash) (a : Word) (bytes : List Byte)
    (left : Nat) : OtherChip (commit a bytes left s) (commit a bytes left t) := by
  rw [commit_flash hs, commit_flash (h.strategy.trans hs)]
  exact h.commitFlash a bytes

/-- A fill under FLASH polls nothing (R190, R122). -/
theorem OtherChip.fillFrom {s t : State} (h : OtherChip s t) (hs : s.strategy = .flash) (v : Byte) (count : Nat) (a : Word) :
    OtherChip (fillFrom v count a s) (fillFrom v count a t) := by
  induction count generalizing s t a with
  | zero => exact h
  | succ n ih =>
    have hc := h.commit hs a [v] n
    simp only [Machine.fillFrom, hc.wait]
    split
    · exact hc
    · exact ih hc ((busOnly_strategy (commit_busOnly a [v] n s)).trans hs) (a + 1#32)

theorem OtherChip.answer {l : Option Nat} {u v t : State} (h : OtherChip u v) (ht : answer l u = .next t) :
    ∃ chip, answer l v = .next { t with dev := chip } := by
  obtain rfl := answer_next ht
  obtain ⟨chip, rfl⟩ := h
  refine ⟨chip, ?_⟩
  cases l with
  | none => rfl
  | some n =>
    have hexhausted : pollsExhausted n { t with dev := chip } = pollsExhausted n t := rfl
    simp only [Machine.answer, hexhausted] at ht ⊢
    split at ht
    · cases ht
    · rename_i hn
      exact if_neg hn

/-- The end of a page write under FLASH polls nothing (R142, R122). -/
theorem OtherChip.handOver {s t u : State} (h : OtherChip s u) (hs : s.strategy = .flash) (ht : handOver s = .next t) :
    ∃ chip, handOver u = .next { t with dev := chip } := by
  obtain ⟨chip, rfl⟩ := h
  rcases handOver_cases s with ⟨hlt, h1⟩ | ⟨hle, bytes, hb, h1⟩ | ⟨-, -, h1⟩
  · rw [h1] at ht
    obtain rfl := Host.Outcome.next.inj ht
    exact ⟨chip, handOver_of_short hlt⟩
  · rw [h1] at ht
    rw [handOver_of_complete (s := { s with dev := chip }) hle hb]
    have hc : OtherChip { s with session := .executing } { s with session := .executing, dev := chip } := ⟨chip, rfl⟩
    exact (hc.commit hs s.startAddr bytes 0).answer ht
  · rw [h1] at ht
    cases ht

theorem execPage_otherChip {a b : Word} {s t : State} (chip : Dev) (hs : s.strategy = .flash)
    (h : exec (.page a b) s = .next t) : ∃ chip', exec (.page a b) { s with dev := chip } = .next { t with dev := chip' } := by
  rcases execPage_cases h with ⟨hlen, ⟨hp, rfl⟩ | ⟨hp, rfl⟩⟩ | ⟨hadm, he⟩
  · exact ⟨chip, by rw [exec_page_of_overflow hlen, pageOverflow]; simp [hp]⟩
  · exact ⟨chip, by rw [exec_page_of_overflow hlen, pageOverflow]; simp [hp]⟩
  · rw [exec_page_of_admitted (s := { s with dev := chip }) hadm]
    have hchip (n : Nat) : OtherChip
        (collectBinary { s with startAddr := a, binCount := n, binIndex := 0, session := .awaitingBinary })
        (collectBinary { s with startAddr := a, binCount := n, binIndex := 0, session := .awaitingBinary, dev := chip }) :=
      ⟨chip, rfl⟩
    exact (hchip (rangeLength a b)).handOver hs he

/-- Settles O54: the writes, the delays and the texts do not look at the chip. -/
theorem writingCommandsDoNotObserveTheChip : Obligations.WritingCommandsDoNotObserveTheChip := by
  intro i s t chip hd hr hflash h
  have hchip : OtherChip s { s with dev := chip } := ⟨chip, rfl⟩
  have plain {f : State → State} (hf : OtherChip (f s) (f { s with dev := chip })) (ht : f s = t) :
      ∃ chip', (.next (f { s with dev := chip }) : Host.Outcome State Fault Refusal) = .next { t with dev := chip' } := by
    obtain ⟨chip', e⟩ := hf
    exact ⟨chip', by rw [e, ht]⟩
  cases i with
  | dump a b => exact absurd rfl (hd a b)
  | read a b => exact absurd rfl (hr a b)
  | fill a b c =>
    have hs : s.strategy = .flash := hflash.resolve_right fun hn => hn.2 a b c rfl
    exact (hchip.fillFrom hs (fillByte c) (rangeLength a b) a).answer h
  | page a b => exact execPage_otherChip chip (hflash.resolve_right fun hn => hn.1 a b rfl) h
  | ident | version | setAddress _ | modeEeprom | modeFlash | unrecognised _ =>
    obtain rfl := Host.Outcome.next.inj h
    exact ⟨chip, rfl⟩
  | lock | unlock | erase | seqChipErase | seqSwpEnable | seqSwpDisable =>
    exact plain ((hchip.writeSeq _).engineDelay _) (Host.Outcome.next.inj h)
  | seqFlashByteProgram a v => exact plain (hchip.flashByteProgram a v) (Host.Outcome.next.inj h)

end Sys2Proof.Machine

/-! ## A payload complete on the link (R141, R142, R193) -/

namespace Sys2Proof.Machine

/-- Nothing but the bus has changed where only bus cycles have run. -/
theorem BusEffect.busOnly {c : List Cycle} {s t : State} (h : BusEffect c s t) : busOnly s t := by
  have hf := h.run.1
  unfold busFrame at hf
  unfold Machine.busOnly
  rw [hf]

/-- Bus activity depends on none of the fields that the end of a command writes. -/
theorem BusEffect.map_sessionEnd {c : List Cycle} {s t : State} (h : BusEffect c s t) (x : Session) (line out : List Byte) :
    BusEffect c { s with session := x, line := line, linkOut := out } { t with session := x, line := line, linkOut := out } := by
  have hf := h.run.1
  constructor
  · refine ⟨?_, h.run.2.1, h.run.2.2⟩
    unfold busFrame at hf ⊢
    rw [hf]
  · exact h.addr
  · exact h.chip
  · exact h.test
  · exact h.mem

/-- `m` holds `bytes` from index 0 and reads as `old` above them. -/
structure HoldsOver (m old : Memory) (bytes : List Byte) : Prop where
  front : ∀ i, i < bytes.length → m.read i = bytes[i]?
  back : ∀ j, bytes.length ≤ j → m.read j = old.read j

/-- Of a payload the part `held` is in the page buffer and all the rest of it on the link, followed by `rest`. -/
structure PayloadOnLink (s : State) (held payload rest : List Byte) : Prop where
  unlisted : s.pageBuffer.unlisted = none
  index : held.length = s.binIndex
  received : ∀ i, i < held.length → i < 4096 → s.pageBuffer.read i = held[i]?
  count : held.length + payload.length = s.binCount
  link : s.linkIn = payload ++ rest

/-- The state in which the commit of a completed payload begins (R142). -/
def handedOver (s : State) (payload rest : List Byte) : State :=
  { s with
    session := .executing
    pageBuffer := storePayload s.binIndex payload s.pageBuffer
    binIndex := s.binCount
    linkIn := rest }

theorem PayloadOnLink.collect {s : State} {held payload rest : List Byte} (h : PayloadOnLink s held payload rest) :
    { collectBinary s with session := .executing } = handedOver s payload rest := by
  have hwanted : s.binCount - s.binIndex = payload.length := by
    have := h.index
    have := h.count
    omega
  have hindex : s.binIndex + payload.length = s.binCount := h.index ▸ h.count
  rw [collectBinary_fields, h.link, hwanted, List.take_left, List.drop_left, hindex]
  rfl

theorem PayloadOnLink.holdsOver {s : State} {held payload rest : List Byte} (h : PayloadOnLink s held payload rest) :
    HoldsOver (storePayload s.binIndex payload s.pageBuffer) s.pageBuffer ((held ++ payload).take 4096) := by
  have hcap : pageCap = 4096 := rfl
  have hindex := h.index
  constructor
  · intro i hi
    rw [List.length_take, List.length_append] at hi
    rw [storePayload_read h.unlisted, List.getElem?_take_of_lt (by omega)]
    split
    · rw [List.getElem?_append_right (by omega), hindex]
    · rw [List.getElem?_append_left (by omega)]
      exact h.received i (by omega) (by omega)
  · intro j hj
    rw [List.length_take, List.length_append] at hj
    rw [storePayload_read h.unlisted, if_neg (by omega)]

/-- The hand-over commits what is held and what is taken, up to the capacity (R142, R195). -/
theorem PayloadOnLink.handOver {s : State} {held payload rest : List Byte} (h : PayloadOnLink s held payload rest) :
    handOver (collectBinary s) = answer s.params.pollLimit
      (commit s.startAddr ((held ++ payload).take 4096) 0 (handedOver s payload rest)) := by
  have hbuffer : (collectBinary s).pageBuffer = storePayload s.binIndex payload s.pageBuffer :=
    congrArg State.pageBuffer h.collect
  have hindex : (collectBinary s).binIndex = s.binCount := congrArg State.binIndex h.collect
  have hprefix : bufferPrefix (collectBinary s).pageBuffer (min (collectBinary s).binCount pageCap)
      = some ((held ++ payload).take 4096) := by
    refine bufferPrefix_eq_some.mpr ⟨?_, fun i hi => ?_⟩
    · rw [List.length_take, List.length_append, h.count, min_comm]
      rfl
    · rw [hbuffer, h.holdsOver.front i hi, List.getElem?_eq_getElem hi]
  rw [handOver_of_complete hindex.ge hprefix, h.collect]
  rfl

/-- Under FLASH the commit of the payload runs to its end (R122). -/
theorem PayloadOnLink.handOver_flash {s : State} {held payload rest : List Byte} (h : PayloadOnLink s held payload rest)
    (hidle : linesIdle s = true) (hw : 16 ≤ s.params.addrWidth) (hs : s.strategy = .flash) (hwait : s.wait = none) :
    ∃ t, Machine.handOver (collectBinary s) = .next t
      ∧ BusEffect (flashCycles s.params.addrWidth s.startAddr ((held ++ payload).take 4096)) (handedOver s payload rest) t := by
  have he := commitFlash_effect (s := handedOver s payload rest) hidle hw s.startAddr ((held ++ payload).take 4096)
  refine ⟨_, ?_, he⟩
  rw [h.handOver, commit_flash (s := handedOver s payload rest) hs]
  exact answer_of_idle _ (he.wait.trans hwait)

/-- What an EEPROM commit of bytes that end in `last` leaves when the chip answers its poll with `x` (R121, R105). -/
structure PolledOnce (c : List Cycle) (s t : State) (x last : Byte) (more : List Byte) : Prop where
  effect : BusEffect c { s with wait := t.wait } t
  done : x = last → t.wait = none
  waits : x ≠ last → ∃ w, t.wait = some w ∧ w.expect = last ∧ w.polls = 1 ∧ w.left = 0
  dev : t.dev = .scripted more

/-- Under EEPROM the commit of the payload ends in one poll, and the limit is asked about that (R121, R234). -/
theorem PayloadOnLink.handOver_eeprom {s : State} {held payload rest more : List Byte} {last x : Byte}
    (h : PayloadOnLink s held payload rest) (hidle : linesIdle s = true) (hs : s.strategy = .eeprom)
    (hlast : ((held ++ payload).take 4096).getLast? = some last) (hd : s.dev = .scripted (x :: more)) :
    ∃ t, Machine.handOver (collectBinary s) = answer s.params.pollLimit t
      ∧ PolledOnce (loadCycles s.params.addrWidth s.startAddr ((held ++ payload).take 4096)
          ++ [.poll (busAddr s.params.addrWidth (spanAddr s.startAddr (((held ++ payload).take 4096).length - 1))) x])
        (handedOver s payload rest) t x last more := by
  obtain ⟨he, hwait, hdev⟩ := commitEeprom_scripted (s := handedOver s payload rest) hidle s.startAddr hlast 0 hd
  refine ⟨_, by rw [h.handOver, commit_eeprom (s := handedOver s payload rest) hs], he, fun hx => ?_, fun hx => ?_, hdev⟩
  · rw [hwait, if_pos hx]
  · exact ⟨_, by rw [hwait, if_neg hx], rfl, rfl, rfl⟩

/-- With room for its poll such a commit is answered as it is. -/
theorem PolledOnce.answer {c : List Cycle} {s t : State} {x last : Byte} {more : List Byte} {l : Option Nat}
    (h : PolledOnce c s t x last more) (hroom : ∀ n, l = some n → 1 < n ∨ x = last) : answer l t = .next t := by
  by_cases hx : x = last
  · exact answer_of_idle l (h.done hx)
  · obtain ⟨w, hw, -, hpolls, -⟩ := h.waits hx
    exact answer_of_wait hw fun n hn => hpolls ▸ (hroom n hn).resolve_right hx

end Sys2Proof.Machine

/-! ## `p` (R193, R195) -/

namespace Sys2Proof.Machine

/-- The state in which `p` collects its payload (R193, D34). -/
def collecting (start : Word) (length : Nat) (s : State) : State :=
  { s with
    startAddr := start
    binCount := length
    binIndex := 0
    session := .awaitingBinary }

theorem payloadOnLink_collecting {s : State} {start : Word} {length : Nat} {payload rest : List Byte}
    (hu : s.pageBuffer.unlisted = none) (hlen : payload.length = length) (hlink : s.linkIn = payload ++ rest) :
    PayloadOnLink (collecting start length s) [] payload rest :=
  ⟨hu, rfl, nofun, (Nat.zero_add _).trans hlen, hlink⟩

/-- The state in which `p` begins the commit of a payload taken from the link, its buffer left open. -/
def pageTaken (s : State) (start : Word) (payload rest : List Byte) (buffer : Memory) : State :=
  { s with
    session := .executing
    startAddr := start
    binCount := payload.length
    binIndex := payload.length
    linkIn := rest
    pageBuffer := buffer }

section
variable {s : State} {start stop : Word} {payload rest : List Byte}

/-- `p` under FLASH with its payload on the link (R193, R122). -/
theorem exec_page_flash (hidle : linesIdle s = true) (hw : 16 ≤ s.params.addrWidth) (hs : s.strategy = .flash)
    (hwait : s.wait = none) (hu : s.pageBuffer.unlisted = none)
    (hadm : rangeLength start stop ≤ pageCap ∨ s.params.pOverflow = .truncate)
    (hlen : payload.length = rangeLength start stop) (hlink : s.linkIn = payload ++ rest) :
    ∃ t, exec (.page start stop) s = .next t
      ∧ HoldsOver t.pageBuffer s.pageBuffer (payload.take 4096)
      ∧ BusEffect (flashCycles s.params.addrWidth start (payload.take 4096)) (pageTaken s start payload rest t.pageBuffer) t := by
  have hp := payloadOnLink_collecting (start := start) hu hlen hlink
  obtain ⟨t, ht, he⟩ := hp.handOver_flash hidle hw hs hwait
  have hbuffer := busOnly_pageBuffer he.busOnly
  refine ⟨t, (exec_page_of_admitted hadm).trans ht, hbuffer ▸ hp.holdsOver, ?_⟩
  rw [hbuffer, pageTaken, hlen]
  exact he

/-- `p` under EEPROM with its payload on the link (R193, R121). -/
theorem exec_page_eeprom {last x : Byte} {more : List Byte} (hidle : linesIdle s = true) (hs : s.strategy = .eeprom)
    (hu : s.pageBuffer.unlisted = none) (hadm : rangeLength start stop ≤ pageCap ∨ s.params.pOverflow = .truncate)
    (hlen : payload.length = rangeLength start stop) (hlink : s.linkIn = payload ++ rest)
    (hlast : (payload.take 4096).getLast? = some last) (hd : s.dev = .scripted (x :: more))
    (hroom : ∀ n, s.params.pollLimit = some n → 1 < n ∨ x = last) :
    ∃ t, exec (.page start stop) s = .next t
      ∧ HoldsOver t.pageBuffer s.pageBuffer (payload.take 4096)
      ∧ PolledOnce (loadCycles s.params.addrWidth start (payload.take 4096)
          ++ [.poll (busAddr s.params.addrWidth (spanAddr start ((payload.take 4096).length - 1))) x])
        (pageTaken s start payload rest t.pageBuffer) t x last more := by
  have hp := payloadOnLink_collecting (start := start) hu hlen hlink
  obtain ⟨t, ht, hpoll⟩ := hp.handOver_eeprom hidle hs hlast hd
  have hbuffer := busOnly_pageBuffer hpoll.effect.busOnly
  refine ⟨t, (exec_page_of_admitted hadm).trans (ht.trans (hpoll.answer hroom)), hbuffer ▸ hp.holdsOver, ?_⟩
  rw [hbuffer, pageTaken, hlen]
  exact hpoll

end

/-- Settles O45: `exec_page_flash`, where the capacity cuts nothing off. -/
theorem flashPageWriteCompletes : Obligations.FlashPageWriteCompletes := by
  intro s start stop payload rest hidle hw hs hwait hu hcap hlen hlink
  obtain ⟨t, ht, hholds, he⟩ := exec_page_flash hidle hw hs hwait hu (.inl hcap) hlen hlink
  rw [List.take_of_length_le (hlen.trans_le hcap)] at hholds he
  exact ⟨t, ht, hholds.front, hholds.back, he.busRun⟩

/-- Settles O46: `exec_page_eeprom`, where the capacity cuts nothing off. -/
theorem eepromPageWriteCompletesOrWaits : Obligations.EepromPageWriteCompletesOrWaits := by
  intro s start stop payload rest last x more hidle hs hwait hu hcap hlen hlink hlast hd hroom
  have htake : payload.take 4096 = payload := List.take_of_length_le (hlen.trans_le hcap)
  obtain ⟨t, ht, hholds, hpoll⟩ :=
    exec_page_eeprom hidle hs hu (.inl hcap) hlen hlink (htake.symm ▸ hlast) hd hroom
  rw [htake] at hholds hpoll
  refine ⟨t, ht, hpoll.done, fun hx => ?_, hpoll.dev, hholds.front, hholds.back, hpoll.effect.busRun⟩
  obtain ⟨w, hw, hexpect, -, hleft⟩ := hpoll.waits hx
  exact ⟨w, hw, hexpect, hleft⟩

/-- Settles O49: `exec_page_flash` and `exec_page_eeprom`, where the capacity cuts off the first 4096 bytes. -/
theorem overlongPageWriteIsTruncated : Obligations.OverlongPageWriteIsTruncated := by
  intro s start stop payload rest hidle hwait hu htrunc hlong hlen hlink
  have htake : (payload.take 4096).length = 4096 := by
    rw [List.length_take]
    omega
  have entries {m : Memory} (h : HoldsOver m s.pageBuffer (payload.take 4096)) :
      (∀ i, i < 4096 → m.read i = payload[i]?) ∧ ∀ j, 4096 ≤ j → m.read j = s.pageBuffer.read j :=
    ⟨fun i hi => (h.front i (htake.symm ▸ hi)).trans (List.getElem?_take_of_lt hi), fun j hj => h.back j (htake.symm ▸ hj)⟩
  refine ⟨fun hw hs => ?_, fun last x more hs hlast hd hroom => ?_⟩
  · obtain ⟨t, ht, hholds, he⟩ := exec_page_flash hidle hw hs hwait hu (.inr htrunc) hlen hlink
    exact ⟨t, ht, (entries hholds).1, (entries hholds).2, he.busRun⟩
  · have hlast' : (payload.take 4096).getLast? = some last := by
      rw [List.getLast?_eq_getElem?, htake, List.getElem?_take_of_lt (by omega)]
      exact hlast
    obtain ⟨t, ht, hholds, hpoll⟩ := exec_page_eeprom hidle hs hu (.inr htrunc) hlen hlink hlast' hd hroom
    rw [htake] at hpoll
    refine ⟨t, ht, hpoll.done, fun hx => ?_, hpoll.dev, (entries hholds).1, (entries hholds).2, hpoll.effect.busRun⟩
    obtain ⟨w, hw, hexpect, -, hleft⟩ := hpoll.waits hx
    exact ⟨w, hw, hexpect, hleft⟩

/-- Settles O47: a payload that falls short is taken whole, and the hand-over waits. -/
theorem pageWriteWaitsForItsPayload : Obligations.PageWriteWaitsForItsPayload := by
  intro s start stop hu hadm hshort
  have htake : s.linkIn.take (rangeLength start stop) = s.linkIn := List.take_of_length_le hshort.le
  have hcollect : collectBinary (collecting start (rangeLength start stop) s) = { s with
      session := .awaitingBinary
      startAddr := start
      binCount := rangeLength start stop
      binIndex := s.linkIn.length
      linkIn := []
      pageBuffer := storePayload 0 s.linkIn s.pageBuffer } := by
    simp [collectBinary_fields, collecting, htake, hshort.le]
  have hcap : pageCap = 4096 := rfl
  have hexec : exec (.page start stop) s = .next (collectBinary (collecting start (rangeLength start stop) s)) :=
    (exec_page_of_admitted hadm).trans (handOver_of_short (hcollect ▸ hshort))
  rw [hexec, hcollect]
  refine ⟨_, rfl, fun i hi hi' => ?_, fun j hj => ?_, rfl⟩
  · exact (storePayload_read hu 0 _ i).trans (if_pos (by omega))
  · exact (storePayload_read hu 0 _ j).trans (if_neg (by omega))

end Sys2Proof.Machine

/-! ## Page writes in the session (R141, R142, R158) -/

namespace Sys2Proof.Machine

/-- The end of a command that leaves nothing to wait for, as an effect on the bus (R158). -/
theorem sessionTail_effect {c : List Cycle} {s u : State} (h : BusEffect c s u) (hs : s.session = .executing)
    (hm : s.faultMark = false) (hw : s.wait = none) :
    BusEffect c { s with
      session := .awaitingCommand
      line := []
      linkOut := s.linkOut ++ s.params.readyString ++ s.params.eolOut } (sessionTail u) := by
  have ho := h.busOnly
  have hout : u.linkOut ++ (u.params.readyString ++ u.params.eolOut) = s.linkOut ++ s.params.readyString ++ s.params.eolOut := by
    rw [busOnly_linkOut ho, busOnly_params ho, List.append_assoc]
  rw [sessionTail_of_done ((busOnly_faultMark ho).trans hm) ((busOnly_session ho).trans hs) ((busOnly_wait ho).trans hw), hout]
  exact h.map_sessionEnd _ _ _

theorem sessionTail_dev (u : State) : (sessionTail u).dev = u.dev := by
  rcases sessionTail_cases u with ⟨-, h⟩ | ⟨-, -, -, h⟩ <;> rw [h]

theorem sessionTail_pageBuffer (u : State) : (sessionTail u).pageBuffer = u.pageBuffer := by
  rcases sessionTail_cases u with ⟨-, h⟩ | ⟨-, -, -, h⟩ <;> rw [h]

/-- Settles O59: the line decodes to `p` (`instrOf_parseLine_encode`), and its turn is `exec_page_flash`. -/
theorem flashPageWriteFromTheLink : Obligations.FlashPageWriteFromTheLink := by
  intro s start stop line payload rest hses hm hwait hline hidle hp hs hu hrange hcap hlen henc hlink
  have hwf : (Instr.page start stop).wf = true := decide_eq_true hrange
  obtain ⟨⟨hw, -, hmax⟩, -⟩ := paramsLegal_facts hp
  have hcode := encode_codeOk hp hwf
  rw [henc] at hcode
  obtain ⟨hsize, text, rfl, hlf⟩ := hcode
  have hread : readLine s.params.lineMax s.line s.linkIn = .complete text (payload ++ rest) := by
    have hsize' := codeSize_le (.page start stop)
    rw [← hsize, List.length_append, List.length_singleton] at hsize'
    rw [hline, hlink]
    simpa using readLine_term s.params.lineMax [] text (payload ++ rest) hlf (by simp; omega)
  obtain ⟨t, ht, -, he⟩ := exec_page_flash
    (s := loadCommand (parseLine text) { s with line := text, linkIn := payload ++ rest })
    hidle hw hs hwait hu (.inl hcap) hlen rfl
  have hend := sessionTail_effect he rfl hm hwait
  have ho := hend.busOnly
  rw [List.take_of_length_le (hlen.trans_le hcap)] at hend
  refine ⟨sessionTail t, ?_, busOnly_session ho, busOnly_line ho, busOnly_linkIn ho, busOnly_linkOut ho, hend.run.2.1,
    (busOnly_strategy ho).trans hs, hend.linesIdle.trans hidle⟩
  rw [step_of_complete hses hm hread, instrOf_parseLine_encode hwf henc, ht]
  rfl

/-- Settles O60: the hand-over by `PayloadOnLink.handOver_flash` and `.handOver_eeprom`, and the session's tail. -/
theorem payloadEndHandsOver : Obligations.PayloadEndHandsOver := by
  intro s held payload rest hinv hses hm hindex hheld hcount hlink
  have hp : PayloadOnLink s held payload rest := ⟨unlisted_of_bufferOk hinv.buffer, hindex, hheld, hcount, hlink⟩
  obtain ⟨hwait, -, -⟩ := sessionOk_awaitingBinary hinv.session hses
  obtain ⟨⟨hw, -, -⟩, -⟩ := paramsLegal_facts hinv.params
  refine ⟨fun hs => ?_, fun last x more hs hlast hd => ?_⟩ <;> rw [step_of_binary hses hm]
  · obtain ⟨u, hu, he⟩ := hp.handOver_flash hinv.lines hw hs hwait
    have hend := sessionTail_effect he rfl hm hwait
    have hbuffer := busOnly_pageBuffer hend.busOnly
    refine ⟨sessionTail u, congrArg finish hu, hbuffer ▸ hp.holdsOver.front, hbuffer ▸ hp.holdsOver.back, ?_⟩
    rw [hbuffer]
    exact hend.busRun
  · obtain ⟨u, hu, hpoll⟩ := hp.handOver_eeprom hinv.lines hs hlast hd
    have hbuffer := busOnly_pageBuffer hpoll.effect.busOnly
    have hholds : HoldsOver u.pageBuffer s.pageBuffer ((held ++ payload).take 4096) := hbuffer ▸ hp.holdsOver
    refine ⟨fun hroom => ?_, fun n hn hle hx => ?_⟩
    · rw [hu, hpoll.answer hroom]
      by_cases hx : x = last
      · have hend := sessionTail_effect hpoll.effect rfl hm (hpoll.done hx)
        have ho := hend.busOnly
        rw [← sessionTail_pageBuffer u] at hholds
        refine ⟨sessionTail u, rfl, fun _ => ⟨busOnly_session ho, (busOnly_wait ho).trans (hpoll.done hx), busOnly_line ho,
          busOnly_linkOut ho⟩, fun hne => absurd hx hne, (sessionTail_dev u).trans hpoll.dev, hholds.front, hholds.back, ?_⟩
        rw [busOnly_session ho, busOnly_line ho, busOnly_linkOut ho, busOnly_pageBuffer ho, busOnly_wait ho]
        exact hend.busRun
      · obtain ⟨w, hw, hrest⟩ := hpoll.waits hx
        have ho := hpoll.effect.busOnly
        have htail : sessionTail u = u := sessionTail_of_unfinished (.inr (.inr (by simp [hw])))
        refine ⟨u, congrArg Host.Outcome.next htail, fun he => absurd he hx,
          fun _ => ⟨busOnly_session ho, (busOnly_line ho).trans rfl, (busOnly_linkOut ho).trans rfl, w, hw, hrest⟩, hpoll.dev,
          hholds.front, hholds.back, ?_⟩
        rw [busOnly_session ho, busOnly_line ho, busOnly_linkOut ho, hbuffer]
        exact hpoll.effect.busRun
    · obtain ⟨w, hw, -, hpolls, -⟩ := hpoll.waits hx
      rw [hu, hn, answer_of_exhausted hw (hle.trans hpolls.ge)]
      rfl

end Sys2Proof.Machine
